-- ==== Sys2Proof/Word.lean ====
section
/-! DEFINITION. The words the block moves and the shapes its registers come in: 32-bit packet words (R7), 64-bit
floating-point words (R10), the three bands and the two channels (R8), and the tuples held once per band or once
per channel (R24, R25). Plain data only: everything that computes stands in files under Sys2Proof/Machine. -/

namespace Sys2Proof

/-- A word of a packet: 32 bits, bit 0 the least significant (R7). -/
abbrev Word := BitVec 32

/-- A binary64 word, as the coefficient and history registers hold it (R10, R24, R25). -/
abbrev F64 := BitVec 64

/-- A byte of a serialised packet (R52). -/
abbrev Byte := BitVec 8

/-- A packet: the words the transport delimits as one command or one response (R70). -/
abbrev Packet := List Word

/-- A sample buffer: 32-bit words indexed from 0, one binary32 sample each (R14, R50). -/
abbrev Buffer := List Word

/-- Which quiet NaN a binary64 operation delivers: one sign bit and 51 payload bits, all of them open (R11, U9). -/
abbrev NanDraw := BitVec 52

/-- Which quiet NaN the conversion to binary32 delivers: one sign bit and 22 payload bits, all open (R13, U9). -/
abbrev NanDraw32 := BitVec 23

/-- The bands, in cascade order: bass = 0, mid = 1, treble = 2 (R8). -/
inductive Band
  | bass | mid | treble
deriving DecidableEq, Repr

/-- The channels: L = 0, R = 1; a mono buffer uses L (R8, R172). -/
inductive Channel
  | left | right
deriving DecidableEq, Repr

/-- The two agents, each with a port of its own: the control agent (C-port) and the processing agent (P-port) (R54). -/
inductive Agent
  | control | processing
deriving DecidableEq, Repr, Inhabited

/-- One value for each band. -/
structure PerBand (α : Type) where
  bass : α
  mid : α
  treble : α
deriving DecidableEq, Repr

/-- One value for each channel. -/
structure PerChannel (α : Type) where
  left : α
  right : α
deriving DecidableEq, Repr

/-- BiquadCoefficients: five binary64 values, normalised so that a0 = 1 (R24). -/
structure Coef where
  b0 : F64
  b1 : F64
  b2 : F64
  a1 : F64
  a2 : F64
deriving DecidableEq, Repr

/-- FilterHistory: the two previous inputs and the two previous outputs of one stage on one channel (R25). -/
structure Hist where
  x1 : F64
  x2 : F64
  y1 : F64
  y2 : F64
deriving DecidableEq, Repr

/-- Whether a buffer command is the mono one or the stereo one (R30). -/
inductive JobKind
  | mono | stereo
deriving DecidableEq, Repr

end Sys2Proof
end

