-- ==== Sys2Proof/Config.lean ====
section
/-! DEFINITION. The implementation parameters of R6: those it fixes, the band constants and `FS_RESET` with the defaults
the spec names for them, the parameters it leaves OPEN; and the free values that stand where the spec fixes no value (the
bits of a NaN, the order in which the two agents step). What a claim may override or must hold for every value of is an
uninterpreted constant. -/

namespace Sys2Proof

/-- `LEVEL_MIN` (R6). -/
def Config.levelMin : Int := 0

/-- `LEVEL_MAX` (R6). -/
def Config.levelMax : Int := 100

/-- `LEVEL_NEUTRAL` (R6): 0 dB. -/
def Config.levelNeutral : Int := 50

/-- `LEVEL_RESET`, the level of every band after reset (R6, R36). -/
def Config.levelReset : BitVec 7 := 50#7

/-- `MAX_LEN`, the longest buffer a length word can express (R6, R14). -/
def Config.maxLen : Nat := 2 ^ 32 - 1

/-- `PI64`, the binary64 nearest to pi (R6). -/
def Config.pi64 : F64 := 0x400921FB54442D18#64

/-- The exact binary64 constants of the pseudocode (R11). -/
def Config.one64 : F64 := 0x3FF0000000000000#64
/-- 2.0 (R11). -/
def Config.two64 : F64 := 0x4000000000000000#64
/-- −2.0 (R11). -/
def Config.minusTwo64 : F64 := 0xC000000000000000#64
/-- 40.0 (R11). -/
def Config.forty64 : F64 := 0x4044000000000000#64
/-- 50.0 (R11). -/
def Config.fifty64 : F64 := 0x4049000000000000#64

/-- The elementary functions of R12: sine, cosine (radians) and ten to the power, binary64 to binary64. That each is a
function of its operand alone is requirement E1 of R124. -/
structure Elementary where
  fsin : F64 → F64
  fcos : F64 → F64
  fpow10 : F64 → F64

/-- The bits of a binary64 word without its sign: the magnitude order of finite numbers is the order of these. -/
def Config.magnitudeBits (a : F64) : Nat := a.toNat % 2 ^ 63

/-- The exponent field is not all ones: zero, subnormal or normal. -/
abbrev Config.FiniteBits (a : F64) : Prop := Config.magnitudeBits a < 0x7FF0000000000000

/-- Finite and greater than zero. -/
abbrev Config.PositiveBits (a : F64) : Prop := 0 < a.toNat ∧ a.toNat < 0x7FF0000000000000

/-- What the spec requires of every choice of the elementary functions: E2 to E5 of R124. -/
structure Elementary.Lawful (f : Elementary) : Prop where
  /-- E2: `fpow10(+0.0) = 1.0` exactly. -/
  pow10_zero : f.fpow10 0#64 = Config.one64
  /-- E3: for finite `a` with |a| ≤ 0.5, `fpow10(a)` is finite and greater than zero. -/
  pow10_positive : ∀ a : F64, Config.magnitudeBits a ≤ 0x3FE0000000000000 → Config.PositiveBits (f.fpow10 a)
  /-- E4: for finite `a`, `fsin(a)` is finite and lies in [−1.0, 1.0]. -/
  sin_bounded : ∀ a : F64, Config.FiniteBits a → Config.magnitudeBits (f.fsin a) ≤ 0x3FF0000000000000
  /-- E4: the same of `fcos(a)`. -/
  cos_bounded : ∀ a : F64, Config.FiniteBits a → Config.magnitudeBits (f.fcos a) ≤ 0x3FF0000000000000
  /-- E5: for 0 < a < `PI64`, `fsin(a) > 0`. -/
  sin_positive : ∀ a : F64, 0 < a.toNat → a.toNat < Config.pi64.toNat → Config.PositiveBits (f.fsin a)

theorem Config.one64_positive : Config.PositiveBits Config.one64 := by decide

theorem Config.one64_magnitude : Config.magnitudeBits Config.one64 = 0x3FF0000000000000 := by decide

/-- A lawful choice of the elementary functions exists (constants will do): only that it exists is used, to say that
`Config.openElementary` is inhabited. -/
theorem Elementary.constants_lawful :
    Elementary.Lawful ⟨fun _ => Config.one64, fun _ => Config.one64, fun _ => Config.one64⟩ where
  pow10_zero := rfl
  pow10_positive _ _ := Config.one64_positive
  sin_bounded _ _ := Config.one64_magnitude.le
  cos_bounded _ _ := Config.one64_magnitude.le
  sin_positive _ _ _ := Config.one64_positive

/-- The elementary functions of the machine: OPEN (R6, R12, decision D11). Nothing is known of them but E1 to E5. -/
opaque Config.openElementary [Inhabited { f : Elementary // f.Lawful }] : { f : Elementary // f.Lawful }

/-- `fsin`, `fcos`, `fpow10` as the machine uses them (R12): the open choice; the witness given here only shows that
there is one, and no value of it can be read off. -/
def Config.elementary : { f : Elementary // f.Lawful } :=
  @Config.openElementary ⟨⟨_, Elementary.constants_lawful⟩⟩

/-- `EN_RESET`: OPEN, "default state is enabled=false-or-true per host policy" (R6, R36, U1). -/
opaque Config.enReset : Bool

/-- The sign and payload of the NaN that an operation of a P-sample step delivers: open, a new draw at each counter
value (R11, U9). -/
opaque Config.freeNan : Nat → NanDraw

/-- The sign and payload of a binary32 NaN sample: open, a new draw at each counter value (R13, U9). -/
opaque Config.freeNan32 : Nat → NanDraw32

/-- The sign and payload of a NaN that arises inside Compile: open, but fixed by the call's arguments and the operation's
place in it, because Compile is a pure function whose results are bit-identical (R120, R29). -/
opaque Config.freeCompileNan : Band → Int → Word → Nat → NanDraw

/-- Which agent goes next where both have an enabled step and the schedule of the state names none: open, a new draw at
each counter value (R57, U13, U14). -/
opaque Config.freeTurn : Nat → Agent

/-- The band constants and `FS_RESET`: the parameters of R6 that have a default which a claim may override (decisions D10,
D12; U8, U18). -/
structure Constants where
  /-- `GAIN_RANGE_DB`. -/
  gainRangeDb : F64
  /-- `F0[b]`, in Hz. -/
  f0 : PerBand F64
  /-- `S_SHELF`. -/
  sShelf : F64
  /-- `Q_MID`. -/
  qMid : F64
  /-- `FS_RESET`, an int32. -/
  fsReset : Word
deriving DecidableEq, Repr

/-- The defaults of R6. -/
def Config.defaultConstants : Constants where
  gainRangeDb := 0x4028000000000000#64                                                  -- 12.0
  f0 := ⟨0x4059000000000000#64, 0x408F400000000000#64, 0x40BF400000000000#64⟩           -- 100.0, 1000.0, 8000.0
  sShelf := Config.one64                                                                -- 1.0
  qMid := 0x3FE6A09E667F3BCD#64
  fsReset := 44100#32

/-- The constants of the machine: parameters (R6, U8, U18). Nothing is known of them but that `FS_RESET` is positive, as
its type in R6 says, so that a claim about the machine holds for every value of them. -/
opaque Config.openConstants [Inhabited { c : Constants // 0 < c.fsReset.toInt }] :
  { c : Constants // 0 < c.fsReset.toInt }

/-- The constants as the machine uses them (R6); the defaults given here only show that there are such constants, and no
value can be read off. A claim about the defaults takes `Config.constants.1 = Config.defaultConstants` as a premise, or
names them through `Config.defaults`. -/
def Config.constants : { c : Constants // 0 < c.fsReset.toInt } :=
  @Config.openConstants ⟨⟨Config.defaultConstants, by decide⟩⟩

/-- `FS_RESET` (R6, R36). -/
def Config.fsReset : Word := Config.constants.1.fsReset

theorem Config.fsReset_pos : 0 < Config.fsReset.toInt := Config.constants.2

/-- What Compile is given beside its three operands: the band constants, the elementary functions, and the bits of any
NaN it makes (R6, R121). -/
structure Params extends Constants where
  /-- `fsin`, `fcos`, `fpow10`. -/
  elementary : Elementary
  /-- The NaN bits of operation number `k` of Compile(b, level, fs). -/
  nan : Band → Int → Word → Nat → NanDraw

/-- The default constants of R6 with a given choice of elementary functions and NaN bits. -/
def Config.defaults (f : Elementary) (nan : Band → Int → Word → Nat → NanDraw) : Params :=
  { Config.defaultConstants with elementary := f, nan := nan }

/-- The parameters of the machine: its constants, the open elementary functions, the open NaN bits. -/
def Config.params : Params :=
  { Config.constants.1 with elementary := Config.elementary.1, nan := Config.freeCompileNan }

end Sys2Proof
end

