-- ==== Sys2Proof/Syntax.lean ====
section
/-! DEFINITION. The eleven commands of R79, one constructor per row of spec/opcode_table.json, with the operands R78
assembles; the operation codes and formats they are grouped under; the two pseudo-commands of R91. -/

namespace Sys2Proof

/-- A command. `value` and `fs` are words read as int32; a buffer operand is `none` where its reference is absent
(`nb`, `nbl`, `nbr` = 1) and otherwise the samples, whose count is the length word (R76 to R78). -/
inductive Instr
  /-- SETEN (R101): `en` is bit f0 of the header. -/
  | setEn (en : Bool)
  /-- GETEN (R102). -/
  | getEn
  /-- SETBASS (R104). -/
  | setBass (value : Word)
  /-- SETMID (R105). -/
  | setMid (value : Word)
  /-- SETTREB (R106). -/
  | setTreb (value : Word)
  /-- GETBASS (R108). -/
  | getBass
  /-- GETMID (R109). -/
  | getMid
  /-- GETTREB (R110). -/
  | getTreb
  /-- RSTF (R155). -/
  | rstf
  /-- PROCM (R170). -/
  | procM (fs : Word) (buf : Option Buffer)
  /-- PROCS (R171). -/
  | procS (fs : Word) (left right : Option Buffer)
deriving DecidableEq, Repr

/-- The operation codes of R79, by name: SETBASS, SETMID and SETTREB share one, and so do the three level getters. -/
inductive Opc
  | setEn | getEn | setLevel | getLevel | rstf | procM | procS
deriving DecidableEq, Repr

/-- The command formats (R72 to R77). -/
inductive Format
  | c0 | c1 | cb | cv | pm | ps
deriving DecidableEq, Repr

/-- `SETLVL band, value` (R91). -/
def Instr.setLvl (b : Band) (value : Word) : Instr :=
  match b with
  | .bass => .setBass value
  | .mid => .setMid value
  | .treble => .setTreb value

/-- `GETLVL band` (R91). -/
def Instr.getLvl (b : Band) : Instr :=
  match b with
  | .bass => .getBass
  | .mid => .getMid
  | .treble => .getTreb

end Sys2Proof
end

