-- ==== Sys2Proof/WellFormed.lean ====
section
/-! DEFINITION. Which commands a packet can carry: every operand fits its field by its type, except that a buffer may
hold no more samples than its length word can count (`MAX_LEN`, R14, R78). -/

namespace Sys2Proof

/-- The buffer's length fits the length word: 0 ≤ len ≤ `MAX_LEN` (R14). -/
def bufferFits (b : Buffer) : Bool := decide (b.length ≤ Config.maxLen)

/-- The same of a buffer operand; an absent one always fits. -/
def operandFits : Option Buffer → Bool
  | none => true
  | some b => bufferFits b

/-- The commands that have an encoding (R72 to R78). -/
def Instr.wellFormed : Instr → Bool
  | .setEn _ => true
  | .getEn => true
  | .setBass _ => true
  | .setMid _ => true
  | .setTreb _ => true
  | .getBass => true
  | .getMid => true
  | .getTreb => true
  | .rstf => true
  | .procM _ buf => operandFits buf
  | .procS _ left right => operandFits left && operandFits right

end Sys2Proof
end

