-- ==== Sys2Proof/Decode.lean ====
section
/-! DEFINITION. The command encoding of spec/30_encoding.md: the header's fields (R71), the opcode map (R79), the total
decoder with its order of checks (R86), the encoder written from the same formats (R72 to R77), the serialisation of a
packet as bytes (R52), and the reading of a word of spec/opcode_table.json as a packet. -/

namespace Sys2Proof

/-- The sub-causes of IllegalCommand (R83): why a packet is not one of the eleven commands on its port. -/
inductive IllegalCause
  /-- `opc` is not in R79 (R84). -/
  | badOpc
  /-- A reserved bit is 1, or a field that must be 0 is not, or `band` = 3 where a band is wanted (R85). -/
  | badField
  /-- A known command on the other port (R88). -/
  | wrongPort
  /-- The packet is empty, or its word count is not its format's (R86, R89). -/
  | badLength
deriving DecidableEq, Repr

/-- What decoding a packet gives: a command with its operands, or the illegal command's echoed `opc` and cause (R86). -/
inductive Decoded
  | cmd (i : Instr)
  | illegal (opc : BitVec 8) (cause : IllegalCause)
deriving DecidableEq, Repr

/-! ### The header word (R71) -/

/-- `opc`, bits 31:24. -/
def opcField (h : Word) : BitVec 8 := h.extractLsb' 24 8

/-- `band`, bits 17:16. -/
def bandField (h : Word) : BitVec 2 := h.extractLsb' 16 2

/-- `f1`, bit 1: `nbr` in format PS. -/
def flag1 (h : Word) : Bool := h.getLsbD 1

/-- `f0`, bit 0: `en` in format C1, `nb` in PM, `nbl` in PS. -/
def flag0 (h : Word) : Bool := h.getLsbD 0

/-- Bits 23:18 and 15:2 are 0. -/
def reservedClear (h : Word) : Bool := h.extractLsb' 18 6 == 0#6 && h.extractLsb' 2 14 == 0#14

/-- The header with the given fields and every reserved bit 0. -/
def header (opc : BitVec 8) (band : BitVec 2) (f1 f0 : Bool) : Word :=
  opc ++ 0#6 ++ band ++ 0#14 ++ BitVec.ofBool f1 ++ BitVec.ofBool f0

/-! ### The opcode map (R79) -/

/-- The value of `opc` for each operation. -/
def Opc.bits : Opc → BitVec 8
  | .setEn => 0x01#8
  | .getEn => 0x02#8
  | .setLevel => 0x10#8
  | .getLevel => 0x11#8
  | .rstf => 0x20#8
  | .procM => 0x40#8
  | .procS => 0x41#8

/-- The operation an `opc` value names; every value not listed is reserved (R84). -/
def opcOf (b : BitVec 8) : Option Opc :=
  if b = 0x01#8 then some .setEn
  else if b = 0x02#8 then some .getEn
  else if b = 0x10#8 then some .setLevel
  else if b = 0x11#8 then some .getLevel
  else if b = 0x20#8 then some .rstf
  else if b = 0x40#8 then some .procM
  else if b = 0x41#8 then some .procS
  else none

/-- The format of each operation's packets. -/
def Opc.format : Opc → Format
  | .setEn => .c1
  | .getEn => .c0
  | .setLevel => .cv
  | .getLevel => .cb
  | .rstf => .c0
  | .procM => .pm
  | .procS => .ps

/-- The port each operation is accepted on (R88). -/
def Opc.port : Opc → Agent
  | .setEn | .getEn | .setLevel | .getLevel | .rstf => .control
  | .procM | .procS => .processing

/-- The number of a band (R8). -/
def Band.bits : Band → BitVec 2
  | .bass => 0#2
  | .mid => 1#2
  | .treble => 2#2

/-- The band a `band` field names; 3 is reserved (R71). -/
def bandOf (b : BitVec 2) : Option Band :=
  if b = 0#2 then some .bass
  else if b = 1#2 then some .mid
  else if b = 2#2 then some .treble
  else none

/-- The operation each command belongs to. -/
def Instr.opc : Instr → Opc
  | .setEn _ => .setEn
  | .getEn => .getEn
  | .setBass _ => .setLevel
  | .setMid _ => .setLevel
  | .setTreb _ => .setLevel
  | .getBass => .getLevel
  | .getMid => .getLevel
  | .getTreb => .getLevel
  | .rstf => .rstf
  | .procM _ _ => .procM
  | .procS _ _ _ => .procS

/-- The port a command is accepted on (R88). -/
def Instr.port (i : Instr) : Agent := i.opc.port

/-! ### Decoding (R86) -/

/-- The reserved-field check of R85, for a header whose `opc` is known. -/
def fieldsOk (fmt : Format) (h : Word) : Bool :=
  reservedClear h &&
  match fmt with
  | .c0 => bandField h == 0#2 && !flag1 h && !flag0 h
  | .c1 => bandField h == 0#2 && !flag1 h
  | .cb => bandField h != 3#2 && !flag1 h && !flag0 h
  | .cv => bandField h != 3#2 && !flag1 h && !flag0 h
  | .pm => bandField h == 0#2 && !flag1 h
  | .ps => bandField h == 0#2

/-- The words a buffer operand adds to its packet: none where its reference is absent, else its length word, at index
`i`, and as many samples as that says; no answer where the length word lies beyond the end of the packet (R86). -/
def bufferWords (pkt : Packet) (absent : Bool) (i : Nat) : Option Nat :=
  if absent then some 0 else pkt[i]?.map (fun w => 1 + w.toNat)

/-- Where format PS puts `nR`: after `nL`, or in its place where `nbl` = 1 (R77). -/
def rightLengthIndex (h : Word) : Nat := if flag0 h then 2 else 3

/-- The total length, in words, that the packet's format gives it (R72 to R77). -/
def totalLength (fmt : Format) (h : Word) (pkt : Packet) : Option Nat :=
  match fmt with
  | .c0 => some 1
  | .c1 => some 1
  | .cb => some 1
  | .cv => some 2
  | .pm => (bufferWords pkt (flag0 h) 2).map (2 + ·)
  | .ps =>
    match bufferWords pkt (flag0 h) 2, bufferWords pkt (flag1 h) (rightLengthIndex h) with
    | some l, some r => some (2 + l + r)
    | _, _ => none

/-- Word `i` of a packet that has one. -/
def packetWord (pkt : Packet) (i : Nat) : Word := pkt.getD i 0#32

/-- The sample words of a PROCS packet: what follows the header, `fs` and the length words (R77). -/
def stereoSamples (h : Word) (pkt : Packet) : Buffer :=
  pkt.drop (2 + (if flag0 h then 0 else 1) + (if flag1 h then 0 else 1))

/-- How many of them are the left buffer's. -/
def leftCount (h : Word) (pkt : Packet) : Nat := if flag0 h then 0 else (packetWord pkt 2).toNat

/-- A level command for the band of the header; the field check has already turned band 3 away (R85). -/
def levelCommand (h : Word) (k : Band → Instr) : Decoded :=
  match bandOf (bandField h) with
  | some b => .cmd (k b)
  | none => .illegal (opcField h) .badField

/-- The operands of a packet that has passed every check (R78). -/
def assemble (o : Opc) (h : Word) (pkt : Packet) : Decoded :=
  match o with
  | .setEn => .cmd (.setEn (flag0 h))
  | .getEn => .cmd .getEn
  | .setLevel => levelCommand h (fun b => .setLvl b (packetWord pkt 1))
  | .getLevel => levelCommand h .getLvl
  | .rstf => .cmd .rstf
  | .procM => .cmd (.procM (packetWord pkt 1) (if flag0 h then none else some (pkt.drop 3)))
  | .procS =>
    .cmd (.procS (packetWord pkt 1)
      (if flag0 h then none else some ((stereoSamples h pkt).take (leftCount h pkt)))
      (if flag1 h then none else some ((stereoSamples h pkt).drop (leftCount h pkt))))

/-- `decode(port, pkt)` of R86: the checks in the spec's order, the first that fails giving the answer. -/
def decode (port : Agent) (pkt : Packet) : Decoded :=
  match pkt with
  | [] => .illegal 0#8 .badLength
  | h :: _ =>
    match opcOf (opcField h) with
    | none => .illegal (opcField h) .badOpc
    | some o =>
      if o.port ≠ port then .illegal (opcField h) .wrongPort
      else if fieldsOk o.format h = false then .illegal (opcField h) .badField
      else if totalLength o.format h pkt ≠ some pkt.length then .illegal (opcField h) .badLength
      else assemble o h pkt

/-! ### Encoding (R72 to R77) -/

/-- The length word of a present buffer. -/
def lengthWords : Option Buffer → Packet
  | none => []
  | some b => [BitVec.ofNat 32 b.length]

/-- The sample words of a present buffer. -/
def sampleWords : Option Buffer → Packet
  | none => []
  | some b => b

/-- The packet of a command. -/
def encode : Instr → Packet
  | .setEn en => [header Opc.setEn.bits 0#2 false en]
  | .getEn => [header Opc.getEn.bits 0#2 false false]
  | .setBass value => [header Opc.setLevel.bits Band.bass.bits false false, value]
  | .setMid value => [header Opc.setLevel.bits Band.mid.bits false false, value]
  | .setTreb value => [header Opc.setLevel.bits Band.treble.bits false false, value]
  | .getBass => [header Opc.getLevel.bits Band.bass.bits false false]
  | .getMid => [header Opc.getLevel.bits Band.mid.bits false false]
  | .getTreb => [header Opc.getLevel.bits Band.treble.bits false false]
  | .rstf => [header Opc.rstf.bits 0#2 false false]
  | .procM fs buf => [header Opc.procM.bits 0#2 false buf.isNone, fs] ++ lengthWords buf ++ sampleWords buf
  | .procS fs left right =>
    [header Opc.procS.bits 0#2 right.isNone left.isNone, fs] ++ lengthWords left ++ lengthWords right
      ++ sampleWords left ++ sampleWords right

/-! ### Serialisation (R52) -/

/-- The four bytes of a word, least significant first. -/
def wordBytes (w : Word) : List Byte :=
  [w.extractLsb' 0 8, w.extractLsb' 8 8, w.extractLsb' 16 8, w.extractLsb' 24 8]

/-- A packet as bytes. -/
def packetBytes (pkt : Packet) : List Byte := pkt.flatMap wordBytes

/-- The packet that a sequence of bytes serialises; none where the bytes are not whole words. -/
def packetOfBytes : List Byte → Option Packet
  | [] => some []
  | b0 :: b1 :: b2 :: b3 :: rest => (packetOfBytes rest).map ((b3 ++ b2 ++ b1 ++ b0) :: ·)
  | _ => none

/-! ### The words of spec/opcode_table.json -/

/-- The first `n` words of a number whose bit 0 is the least significant bit of the first word. -/
def numberWords (n w : Nat) : Packet := (List.range n).map (fun k => BitVec.ofNat 32 (w >>> (32 * k)))

/-- How many words the packet with header `h` has when the words that follow are those of `pkt` and zeros after them; the
words given where the header is not one of a command. -/
def tableLength (h : Word) (pkt : Packet) : Nat :=
  match opcOf (opcField h) with
  | none => pkt.length
  | some o => (totalLength o.format h (pkt ++ List.replicate 4 0#32)).getD pkt.length

/-- The packet of an instruction whose bits below `nbits` are those of `w` and whose bits above are 0. -/
def tablePacket (nbits w : Nat) : Packet :=
  let given := numberWords ((nbits + 31) / 32) (w % 2 ^ nbits)
  match given with
  | [] => []
  | h :: _ => (given ++ List.replicate (tableLength h given) 0#32).take (tableLength h given)

/-- The port a packet is for: its operation's, and the C-port where it has none. -/
def packetPort : Packet → Agent
  | [] => .control
  | h :: _ => ((opcOf (opcField h)).map Opc.port).getD .control

/-- The instruction the decoder reads from an instruction whose bits are `w`, numbered as spec/opcode_table.json numbers
them, and 0 above `nbits`. -/
def decodeTableWord (nbits w : Nat) : Option Instr :=
  match decode (packetPort (tablePacket nbits w)) (tablePacket nbits w) with
  | .cmd i => some i
  | .illegal _ _ => none

end Sys2Proof
end

