-- ==== Sys2Proof/Machine/Operands.lean ====
section
/-! DEFINITION. How operands are read and registers selected: Clamp (R16), int32 operands (R78), the member of a
per-band or per-channel tuple (R8), buffer access by sample index (R14). No operand addresses memory (R50). -/

namespace Sys2Proof.Machine

/-- `Clamp(v) = max(LEVEL_MIN, min(LEVEL_MAX, v))` (R16). -/
def clamp (v : Int) : Int := max Config.levelMin (min Config.levelMax v)

/-- `sext_32(w)`: an operand word read as int32 (R7, R78). -/
def sext32 (w : Word) : Int := w.toInt

/-- A level as the 7 bits that store it (R22). -/
def levelBits (c : Int) : BitVec 7 := BitVec.ofInt 7 c

/-- A result word holding a level, as int32 (R81). -/
def levelWord (c : Int) : Word := BitVec.ofInt 32 c

/-- `x[b]` (R9). -/
def bandGet {α : Type} (x : PerBand α) (b : Band) : α :=
  match b with
  | .bass => x.bass
  | .mid => x.mid
  | .treble => x.treble

/-- `x[b] <- v` (R9): the other two bands keep theirs. -/
def bandSet {α : Type} (x : PerBand α) (b : Band) (v : α) : PerBand α :=
  match b with
  | .bass => { x with bass := v }
  | .mid => { x with mid := v }
  | .treble => { x with treble := v }

/-- `for b in 0..2: x[b] <- f b`. -/
def bandAll {α : Type} (f : Band → α) : PerBand α := ⟨f .bass, f .mid, f .treble⟩

/-- `x[c]` (R9). -/
def chanGet {α : Type} (x : PerChannel α) (c : Channel) : α :=
  match c with
  | .left => x.left
  | .right => x.right

/-- `x[c] <- v` (R9): the other channel keeps its own. -/
def chanSet {α : Type} (x : PerChannel α) (c : Channel) (v : α) : PerChannel α :=
  match c with
  | .left => { x with left := v }
  | .right => { x with right := v }

/-- `BufRead(buf, i)` (R14), for 0 ≤ i < len(buf). -/
def bufRead (buf : Buffer) (i : Nat) : Word := buf.getD i 0#32

/-- `BufWrite(buf, i, w)` (R14): replaces the word at index i; where the words below i are all that has been written so
far, it is the next one. -/
def bufWrite (buf : Buffer) (i : Nat) (w : Word) : Buffer := buf.take i ++ w :: buf.drop (i + 1)

end Sys2Proof.Machine
end

