-- ==== Sys2Proof/Machine/Flags.lean ====
section
/-! DEFINITION. The block has no condition flags and stores no status (R32, R200). What stands in their place is the
status word, the first word of every response (R80), computed here. -/

namespace Sys2Proof.Machine

/-- The three causes of InvalidArgument (R83, R201, R202, R204). -/
inductive ArgumentCause
  /-- "null/absent buffer reference". -/
  | nullBuffer
  /-- "non-positive sample rate". -/
  | badRate
  /-- "mismatched stereo buffer lengths". -/
  | lenMismatch
deriving DecidableEq, Repr

/-- How a command went (R82). -/
inductive Status
  | ok
  | outOfRangeClamped
  | invalidArgument (cause : ArgumentCause)
  | illegalCommand (cause : IllegalCause)
deriving DecidableEq, Repr

/-- The status code, `S[3:0]` (R82). -/
def statusCode : Status → BitVec 4
  | .ok => 0#4
  | .outOfRangeClamped => 1#4
  | .invalidArgument _ => 2#4
  | .illegalCommand _ => 3#4

/-- The sub-cause code, `S[7:4]`: 0 on success (R80, R83). -/
def subCode : Status → BitVec 4
  | .ok => 0#4
  | .outOfRangeClamped => 0#4
  | .invalidArgument .nullBuffer => 1#4
  | .invalidArgument .badRate => 2#4
  | .invalidArgument .lenMismatch => 3#4
  | .illegalCommand .badOpc => 1#4
  | .illegalCommand .badField => 2#4
  | .illegalCommand .wrongPort => 3#4
  | .illegalCommand .badLength => 4#4

/-- The status word `S`: the echoed `opc`, 16 zero bits, the sub-cause, the status (R80). -/
def statusWord (opc : BitVec 8) (st : Status) : Word := opc ++ 0#16 ++ subCode st ++ statusCode st

/-- The status of a level setter: OutOfRangeClamped exactly when the stored level is not the value sent (R103, R203). -/
def setterStatus (value : Int) : Status := if clamp value = value then .ok else .outOfRangeClamped

end Sys2Proof.Machine
end

