-- ==== Sys2Proof/Machine/Float.lean ====
section
/-! DEFINITION. IEEE 754 binary64 arithmetic and the conversions from and to binary32 (R10, R11, R13), on bit patterns.
Every finite number is taken as a sign and a natural number of the format's smallest units (2^−1074 for binary64,
2^−149 for binary32), the operation is computed exactly on those, and the exact result, a fraction, is rounded once,
to nearest with ties to even, with gradual underflow and overflow to infinity. No flags, no traps (R209). -/

namespace Sys2Proof.Machine

/-- What a floating-point word stands for: a NaN, an infinity, or a finite number of smallest units. -/
inductive FVal
  | nan
  | inf (neg : Bool)
  | fin (neg : Bool) (units : Nat)
deriving DecidableEq, Repr

/-- The number of smallest units in a finite number whose exponent and fraction fields, read as one number, are `bits`,
in a format with `fb` fraction bits. -/
def unitsOf (fb bits : Nat) : Nat :=
  if bits / 2 ^ fb = 0 then bits else (2 ^ fb + bits % 2 ^ fb) * 2 ^ (bits / 2 ^ fb - 1)

/-- The integer nearest to num/den, ties to even. -/
def roundDiv (num den : Nat) : Nat :=
  let q := num / den
  let r := num % den
  if 2 * r < den then q
  else if den < 2 * r then q + 1
  else q + q % 2

/-- Exponent and fraction fields, as one number, of the number nearest to num/den smallest units, ties to even, in a
format with `fb` fraction bits and no upper limit. A significand that rounds up to the next power of two carries into
the exponent field by itself, and a subnormal result is the case of a zero shift. -/
def roundBits (fb num den : Nat) : Nat :=
  let shift := (num / den).log2 - fb
  shift * 2 ^ fb + roundDiv num (den * 2 ^ shift)

/-- The bits of binary64 infinity without its sign. -/
def infBits64 : Nat := 0x7FF0000000000000

/-- The bits of binary32 infinity without its sign. -/
def infBits32 : Nat := 0x7F800000

/-- A binary64 word from its sign and its other 63 bits. -/
def signed64 (neg : Bool) (bits : Nat) : F64 := BitVec.ofNat 64 ((if neg then 2 ^ 63 else 0) + bits)

/-- A binary32 word from its sign and its other 31 bits. -/
def signed32 (neg : Bool) (bits : Nat) : Word := BitVec.ofNat 32 ((if neg then 2 ^ 31 else 0) + bits)

/-- What a binary64 word stands for: sign in bit 63, exponent in 62:52, fraction in 51:0 (R10). -/
def unpack64 (a : F64) : FVal :=
  let bits := a.toNat % 2 ^ 63
  if infBits64 < bits then .nan
  else if bits = infBits64 then .inf a.msb
  else .fin a.msb (unitsOf 52 bits)

/-- What a binary32 word stands for: sign in bit 31, exponent in 30:23, fraction in 22:0 (R52). -/
def unpack32 (w : Word) : FVal :=
  let bits := w.toNat % 2 ^ 31
  if infBits32 < bits then .nan
  else if bits = infBits32 then .inf w.msb
  else .fin w.msb (unitsOf 23 bits)

/-- The quiet binary64 NaN with the sign and payload of `d`: any of them, none other (R11). -/
def quietNan64 (d : NanDraw) : F64 := d.extractLsb 51 51 ++ 0x7FF#11 ++ 1#1 ++ d.extractLsb 50 0

/-- The quiet binary32 NaN with the sign and payload of `d` (R13). -/
def quietNan32 (d : NanDraw32) : Word := d.extractLsb 22 22 ++ 0xFF#8 ++ 1#1 ++ d.extractLsb 21 0

/-- The infinity of the given sign. -/
def inf64 (neg : Bool) : F64 := signed64 neg infBits64

/-- The binary64 nearest to ±(num/den) units of 2^−1074; what rounds above the largest finite number is the infinity of
the same sign (R10, R11). -/
def round64 (neg : Bool) (num den : Nat) : F64 := signed64 neg (min (roundBits 52 num den) infBits64)

/-- The binary32 nearest to ±(num/den) units of 2^−149 (R13). -/
def round32 (neg : Bool) (num den : Nat) : Word := signed32 neg (min (roundBits 23 num den) infBits32)

/-- The exact sum of two finite numbers, rounded; an exact zero from operands of unlike sign is +0.0, as the IEEE rule
for rounding to nearest says (R11, R157). -/
def addFinite (s : Bool) (m : Nat) (t : Bool) (n : Nat) : F64 :=
  if s = t then round64 s (m + n) 1
  else if n < m then round64 s (m - n) 1
  else if m < n then round64 t (n - m) 1
  else 0#64

/-- `fadd(a, b)` (R11); `d` is the open sign and payload of a NaN result. -/
def fadd (d : NanDraw) (a b : F64) : F64 :=
  match unpack64 a with
  | .nan => quietNan64 d
  | .inf s =>
    match unpack64 b with
    | .nan => quietNan64 d
    | .inf t => if s = t then inf64 s else quietNan64 d
    | .fin _ _ => inf64 s
  | .fin s m =>
    match unpack64 b with
    | .nan => quietNan64 d
    | .inf t => inf64 t
    | .fin t n => addFinite s m t n

/-- The same number with the other sign. -/
def fneg (a : F64) : F64 := a ^^^ 0x8000000000000000#64

/-- `fsub(a, b)` (R11): the sum with the subtrahend's sign reversed, rounded once. -/
def fsub (d : NanDraw) (a b : F64) : F64 := fadd d a (fneg b)

/-- `fmul(a, b)` (R11): a product of m and n units is m·n/2^1074 units; zero times infinity is a NaN. -/
def fmul (d : NanDraw) (a b : F64) : F64 :=
  match unpack64 a with
  | .nan => quietNan64 d
  | .inf s =>
    match unpack64 b with
    | .nan => quietNan64 d
    | .inf t => inf64 (s != t)
    | .fin t n => if n = 0 then quietNan64 d else inf64 (s != t)
  | .fin s m =>
    match unpack64 b with
    | .nan => quietNan64 d
    | .inf t => if m = 0 then quietNan64 d else inf64 (s != t)
    | .fin t n => round64 (s != t) (m * n) (2 ^ 1074)

/-- `fdiv(a, b)` (R11): a quotient of m and n units is m·2^1074/n units; 0/0 and ∞/∞ are NaNs, a finite non-zero number
divided by zero is an infinity. -/
def fdiv (d : NanDraw) (a b : F64) : F64 :=
  match unpack64 a with
  | .nan => quietNan64 d
  | .inf s =>
    match unpack64 b with
    | .nan => quietNan64 d
    | .inf _ => quietNan64 d
    | .fin t _ => inf64 (s != t)
  | .fin s m =>
    match unpack64 b with
    | .nan => quietNan64 d
    | .inf t => signed64 (s != t) 0
    | .fin t n =>
      if n = 0 then (if m = 0 then quietNan64 d else inf64 (s != t))
      else round64 (s != t) (m * 2 ^ 1074) n

/-- Newton's iteration for the integer square root, from a guess not below it; `fuel` bounds the steps. -/
def isqrtFrom : Nat → Nat → Nat → Nat
  | 0, _, guess => guess
  | fuel + 1, n, guess =>
    if (guess + n / guess) / 2 < guess then isqrtFrom fuel n ((guess + n / guess) / 2) else guess

/-- The integer part of the square root of `n`. -/
def isqrt (n : Nat) : Nat := if n = 0 then 0 else isqrtFrom (n.log2 + 2) n (2 ^ (n.log2 / 2 + 1))

/-- `fsqrt(a)` (R11): the root of m units is √(m·2^1074) units, which is 0 or at least 2^537, so that its integer part
with one more bit, set where the root is not exact, rounds as the root does. The root of a zero is that zero; of any
other negative number, a NaN. -/
def fsqrt (d : NanDraw) (a : F64) : F64 :=
  match unpack64 a with
  | .nan => quietNan64 d
  | .inf s => if s then quietNan64 d else inf64 false
  | .fin s m =>
    if m = 0 then a
    else if s then quietNan64 d
    else
      let r := isqrt (m * 2 ^ 1074)
      round64 false (2 * r + (if r * r = m * 2 ^ 1074 then 0 else 1)) 2

/-- `i2d(n)` (R11): exact for |n| < 2^53, which is all the spec defines. Beyond, it rounds to nearest, ties to even:
DESIGN CHOICE (log 19), never reached from a level register or an int32 rate. -/
def i2d (n : Int) : F64 := round64 (decide (n < 0)) (n.natAbs * 2 ^ 1074) 1

/-- `f2d(w)` (R13): exact for every number and infinity; a NaN gives a quiet NaN with open bits `d`. -/
def f2d (d : NanDraw) (w : Word) : F64 :=
  match unpack32 w with
  | .nan => quietNan64 d
  | .inf s => inf64 s
  | .fin s m => round64 s (m * 2 ^ 925) 1

/-- `d2f(v)` (R13): rounded to nearest, ties to even, into binary32 with its subnormals and its infinities; a NaN gives
a quiet NaN with open bits `d`. -/
def d2f (d : NanDraw32) (v : F64) : Word :=
  match unpack64 v with
  | .nan => quietNan32 d
  | .inf s => signed32 s infBits32
  | .fin s m => round32 s m (2 ^ 925)

end Sys2Proof.Machine
end

