-- ==== Sys2Proof/Machine/Elementary.lean ====
section
/-! DEFINITION. The default instance of the elementary functions (R12, R124): sine, cosine and power of ten correctly
rounded, "the binary64 nearest (ties to even) to the exact real value". The machine does not run on it: there the
functions are OPEN (`Config.elementary`). It is written out so that a claim or a test can name it, which every derived
number of spec/95_test_vectors.md does. Values are fixed-point integers with `w` fraction bits. -/

namespace Sys2Proof.Machine

/-- Sums 2^w·(p/1 ± p·q/3 + p·q²/5 ± …) with p = 1/k, q = 1/k², `odd` the next denominator: the series of atanh(1/k)
(`alternate` false) and of atan(1/k) (`alternate` true). Stops where a term is 0. -/
def arcSeries : Nat → Bool → Int → Int → Int → Int → Int
  | 0, _, _, _, _, acc => acc
  | fuel + 1, alternate, k2, power, odd, acc =>
    if power = 0 then acc
    else arcSeries fuel alternate k2 (if alternate then -(power / k2) else power / k2) (odd + 2) (acc + power / odd)

/-- atan(1/k) with `w` fraction bits. -/
def fixedAtan (w : Nat) (k : Int) : Int := arcSeries w true (k * k) (2 ^ w / k) 1 0

/-- atanh(1/k) with `w` fraction bits. -/
def fixedAtanh (w : Nat) (k : Int) : Int := arcSeries w false (k * k) (2 ^ w / k) 1 0

/-- pi, by Machin's formula. -/
def fixedPi (w : Nat) : Int := 4 * (4 * fixedAtan w 5 - fixedAtan w 239)

/-- The natural logarithm of 2. -/
def fixedLn2 (w : Nat) : Int := 2 * fixedAtanh w 3

/-- The natural logarithm of 10 = 8 · 5/4. -/
def fixedLn10 (w : Nat) : Int := 3 * fixedLn2 w + 2 * fixedAtanh w 9

/-- Taylor's series Σ term·(x/(i+1))·(x/(i+2))·… taken `stride` factors at a time, until a term is 0: the exponential
(stride 1) and, with the sign turning, sine and cosine (stride 2). -/
def taylor : Nat → Nat → Nat → Int → Int → Int → Int → Int
  | 0, _, _, _, _, _, acc => acc
  | fuel + 1, w, stride, factor, i, term, acc =>
    if term = 0 then acc
    else
      let divisor := if stride = 1 then i + 1 else (i + 1) * (i + 2)
      taylor fuel w stride factor (i + stride) (term * factor / (divisor * 2 ^ w)) (acc + term)

/-- sin r, for |r| ≤ pi/4. -/
def fixedSin (w : Nat) (r : Int) : Int := taylor w w 2 (-(r * r / 2 ^ w)) 1 r 0

/-- cos r, for |r| ≤ pi/4. -/
def fixedCos (w : Nat) (r : Int) : Int := taylor w w 2 (-(r * r / 2 ^ w)) 0 (2 ^ w) 0

/-- e^r, for 0 ≤ r < 1. -/
def fixedExp (w : Nat) (r : Int) : Int := taylor w w 1 r 0 (2 ^ w) 0

/-- The binary64 nearest to v/2^w. -/
def roundFixed (w : Nat) (v : Int) : F64 := round64 (decide (v < 0)) (v.natAbs * 2 ^ 1074) (2 ^ w)

/-- ±m units with `w` fraction bits. -/
def fixedOf (w : Nat) (neg : Bool) (m : Nat) : Int :=
  let v : Int := m * 2 ^ w / 2 ^ 1074
  if neg then -v else v

/-- Fraction bits for an argument of m units: 320, and one more for each bit of its integer part, so that the reduction
by multiples of pi/2 leaves about 318 right ones. -/
def trigPrecision (m : Nat) : Nat := 320 + (m.log2 + 1 - 1074)

/-- sin(a + turn·pi/2) of a finite argument of m units, by reduction to |r| ≤ pi/4. -/
def quarterSin (neg : Bool) (m : Nat) (turn : Int) : F64 :=
  let w := trigPrecision m
  let x := fixedOf w neg m
  let pi := fixedPi w
  let k := (4 * x + pi) / (2 * pi)
  let r := (2 * x - k * pi) / 2
  match ((k + turn) % 4).toNat with
  | 0 => roundFixed w (fixedSin w r)
  | 1 => roundFixed w (fixedCos w r)
  | 2 => roundFixed w (-(fixedSin w r))
  | _ => roundFixed w (-(fixedCos w r))

/-- Below 2^−27 sin a rounds to a and cos a to 1. -/
def tinyAngle (m : Nat) : Bool := decide (m < 2 ^ 1047)

/-- What the default sine and cosine give outside the finite numbers, and all three give for a NaN, where the spec asks
for nothing: the quiet NaN with sign and payload 0. DESIGN CHOICE (log 17), unsafe for a claim that names the default
instance and reads these bits. -/
def outsideDomain : F64 := quietNan64 0#52

/-- The default `fsin` (R12). At a zero the exact value 0 names no sign; the operand itself is given, −0.0 for −0.0:
DESIGN CHOICE (log 17). -/
def sinNearest (a : F64) : F64 :=
  match unpack64 a with
  | .nan => outsideDomain
  | .inf _ => outsideDomain
  | .fin s m => if tinyAngle m then a else quarterSin s m 0

/-- The default `fcos` (R12). -/
def cosNearest (a : F64) : F64 :=
  match unpack64 a with
  | .nan => outsideDomain
  | .inf _ => outsideDomain
  | .fin s m => if tinyAngle m then Config.one64 else quarterSin s m 1

/-- 10^a of a finite argument that is no integer, |a| < 512: 2^n·e^r with n + r/ln 2 = a·ln 10/ln 2. -/
def pow10Fraction (neg : Bool) (m : Nat) : F64 :=
  let w := 448
  let z := fixedOf w neg m * fixedLn10 w / 2 ^ w
  let n := z / fixedLn2 w
  let e := (fixedExp w (z - n * fixedLn2 w)).toNat
  if n < 0 then round64 false (e * 2 ^ 1074) (2 ^ w * 2 ^ n.natAbs)
  else round64 false (e * 2 ^ 1074 * 2 ^ n.natAbs) (2 ^ w)

/-- The default `fpow10` (R12); exact before rounding where the argument is an integer. -/
def pow10Nearest (a : F64) : F64 :=
  match unpack64 a with
  | .nan => outsideDomain
  | .inf s => if s then 0#64 else inf64 false
  | .fin s m =>
    if 2 ^ 1083 ≤ m then (if s then 0#64 else inf64 false)
    else if m < 2 ^ 1018 then Config.one64
    else if m % 2 ^ 1074 = 0 then
      (if s then round64 false (2 ^ 1074) (10 ^ (m / 2 ^ 1074)) else round64 false (10 ^ (m / 2 ^ 1074) * 2 ^ 1074) 1)
    else pow10Fraction s m

/-- The default instance: correctly rounded (R12, decision D11). -/
def nearestElementary : Elementary := ⟨sinNearest, cosNearest, pow10Nearest⟩

/-- The default constants of R6 with the default instance. The sign and payload of a NaN inside Compile stay open, the
machine's own `Config.freeCompileNan` (R11, U9). -/
def defaultParams : Params := Config.defaults nearestElementary Config.freeCompileNan

end Sys2Proof.Machine
end

