-- ==== Sys2Proof/Machine/Compiler.lean ====
section
/-! DEFINITION. The coefficient compiler (spec/41_coefficient_compiler.md), operation by operation in the order written
there. Each operation has a number, its place in the evaluation, which selects the open bits of a NaN it may give. -/

namespace Sys2Proof.Machine

/-- GainDb(level) (R123). -/
def gainDb (P : Params) (d : Nat → NanDraw) (level : Int) : F64 :=
  let x := i2d (level - Config.levelNeutral)
  fdiv (d 1) (fmul (d 0) x P.gainRangeDb) Config.fifty64

/-- The amplitude factor and the cosine and sine of the band's angle, the results of Angle (R125). -/
structure AngleTerms where
  A : F64
  cw : F64
  sw : F64
deriving DecidableEq, Repr

/-- w0 of Angle: ((2·PI64)·F0[b])/fs, in radians per sample (R125). -/
def angularFrequency (P : Params) (d : Nat → NanDraw) (b : Band) (fs : Word) : F64 :=
  fdiv (d 5) (fmul (d 4) (fmul (d 3) Config.two64 Config.pi64) (bandGet P.f0 b)) (i2d (sext32 fs))

/-- Angle(b, g, fs) (R125). -/
def angle (P : Params) (d : Nat → NanDraw) (b : Band) (g : F64) (fs : Word) : AngleTerms :=
  let e := fdiv (d 2) g Config.forty64
  let w0 := angularFrequency P d b fs
  { A := P.elementary.fpow10 e, cw := P.elementary.fcos w0, sw := P.elementary.fsin w0 }

/-- The six coefficients before normalisation (R121). -/
structure RawCoef where
  rb0 : F64
  rb1 : F64
  rb2 : F64
  ra0 : F64
  ra1 : F64
  ra2 : F64
deriving DecidableEq, Repr

/-- Peaking(A, cw, sw), band 1 (R126). -/
def peaking (P : Params) (d : Nat → NanDraw) (x : AngleTerms) : RawCoef :=
  let al := fdiv (d 7) x.sw (fmul (d 6) Config.two64 P.qMid)
  let t1 := fmul (d 8) al x.A
  let t2 := fdiv (d 9) al x.A
  let rb1 := fmul (d 11) Config.minusTwo64 x.cw
  { rb0 := fadd (d 10) Config.one64 t1
    rb1 := rb1
    rb2 := fsub (d 12) Config.one64 t1
    ra0 := fadd (d 13) Config.one64 t2
    ra1 := rb1
    ra2 := fsub (d 14) Config.one64 t2 }

/-- The intermediates both shelves share, the results of ShelfCommon (R127). -/
structure ShelfTerms where
  t : F64
  am : F64
  q : F64
  sm : F64
  sp : F64
deriving DecidableEq, Repr

/-- ShelfCommon(A, cw, sw) (R127). -/
def shelfCommon (P : Params) (d : Nat → NanDraw) (x : AngleTerms) : ShelfTerms :=
  let r := fdiv (d 6) Config.one64 x.A
  let u := fadd (d 7) x.A r
  let v := fsub (d 9) (fdiv (d 8) Config.one64 P.sShelf) Config.one64
  let rad := fadd (d 11) (fmul (d 10) u v) Config.two64
  let al := fmul (d 14) (fdiv (d 12) x.sw Config.two64) (fsqrt (d 13) rad)
  let t := fmul (d 17) (fmul (d 16) Config.two64 (fsqrt (d 15) x.A)) al
  let ap := fadd (d 18) x.A Config.one64
  let am := fsub (d 19) x.A Config.one64
  let p := fmul (d 20) am x.cw
  let q := fmul (d 21) ap x.cw
  { t := t, am := am, q := q, sm := fsub (d 22) ap p, sp := fadd (d 23) ap p }

/-- LowShelf(A, cw, sw), band 0 (R128). -/
def lowShelf (P : Params) (d : Nat → NanDraw) (x : AngleTerms) : RawCoef :=
  let s := shelfCommon P d x
  { rb0 := fmul (d 25) x.A (fadd (d 24) s.sm s.t)
    rb1 := fmul (d 28) (fmul (d 26) Config.two64 x.A) (fsub (d 27) s.am s.q)
    rb2 := fmul (d 30) x.A (fsub (d 29) s.sm s.t)
    ra0 := fadd (d 31) s.sp s.t
    ra1 := fmul (d 33) Config.minusTwo64 (fadd (d 32) s.am s.q)
    ra2 := fsub (d 34) s.sp s.t }

/-- HighShelf(A, cw, sw), band 2 (R129). -/
def highShelf (P : Params) (d : Nat → NanDraw) (x : AngleTerms) : RawCoef :=
  let s := shelfCommon P d x
  { rb0 := fmul (d 25) x.A (fadd (d 24) s.sp s.t)
    rb1 := fmul (d 28) (fmul (d 26) Config.minusTwo64 x.A) (fadd (d 27) s.am s.q)
    rb2 := fmul (d 30) x.A (fsub (d 29) s.sp s.t)
    ra0 := fadd (d 31) s.sm s.t
    ra1 := fmul (d 33) Config.two64 (fsub (d 32) s.am s.q)
    ra2 := fsub (d 34) s.sm s.t }

/-- Normalise(raw): five divisions by ra0, each rounded once (R130). -/
def normalise (d : Nat → NanDraw) (x : RawCoef) : Coef where
  b0 := fdiv (d 35) x.rb0 x.ra0
  b1 := fdiv (d 36) x.rb1 x.ra0
  b2 := fdiv (d 37) x.rb2 x.ra0
  a1 := fdiv (d 38) x.ra1 x.ra0
  a2 := fdiv (d 39) x.ra2 x.ra0

/-- The design equations of each band's kind: low shelf, peaking, high shelf (R122). -/
def design (P : Params) (d : Nat → NanDraw) (b : Band) (x : AngleTerms) : RawCoef :=
  match b with
  | .bass => lowShelf P d x
  | .mid => peaking P d x
  | .treble => highShelf P d x

/-- Compile(b, level, fs) (R121), under parameters `P`. -/
def compileWith (P : Params) (b : Band) (level : Int) (fs : Word) : Coef :=
  let d := P.nan b level fs
  normalise d (design P d b (angle P d b (gainDb P d level) fs))

/-- Compile(b, level, fs) under the machine's parameters. -/
def compile (b : Band) (level : Int) (fs : Word) : Coef := compileWith Config.params b level fs

end Sys2Proof.Machine
end

