-- ==== Sys2Proof/Machine/State.lean ====
section
/-! DEFINITION. The state of the block (R20) as plain data, with the packets on its two ports, and the state after
hardware reset (R36). The fields below the line are the model's own: the spec counts command streams and schedule as
inputs (R17), and a step that is a function of the state holds them as data. -/

namespace Sys2Proof.Machine

/-- `JOB`: the buffer command in flight on the P-port (R30). -/
structure Job where
  /-- Which command is in flight. -/
  kind : JobKind
  /-- Samples per channel, at least 1. -/
  n : Nat
  /-- The input, captured by value at P-begin; the right buffer is empty for mono (R53). -/
  input : PerChannel Buffer
  /-- The output words written so far, those of index 0 first. -/
  output : PerChannel Buffer
  /-- Index of the next sample to process. -/
  idx : Nat
  /-- Channel of the next sample to process; always left for mono. -/
  ch : Channel
deriving DecidableEq, Repr

/-- The state of the block and of its two ports. -/
structure State where
  /-- `EN` (R21): true is Enabled. -/
  en : Bool
  /-- `LVL[b]` (R22). -/
  lvl : PerBand (BitVec 7)
  /-- `FS` (R23), an int32. -/
  fs : Word
  /-- `COEF[b]` (R24). -/
  coef : PerBand Coef
  /-- `HIST[b][c]` (R25). -/
  hist : PerBand (PerChannel Hist)
  /-- `JOB` (R30). -/
  job : Option Job
  /-- Commands waiting on the C-port, the one at the head first (R55, R56). -/
  cIn : List Packet
  /-- Commands waiting on the P-port, the one at the head first (R55, R56). -/
  pIn : List Packet
  /-- Responses given on the C-port, oldest first (R70). -/
  cOut : List Packet
  /-- Responses given on the P-port, oldest first (R70). -/
  pOut : List Packet
  /-- The reset input is asserted: the next step is a hardware reset (R222, R223). -/
  resetInput : Bool
  /-- Which agent goes at the coming choices between two enabled agents; past its end the choice is open (R57). -/
  sched : List Agent
  /-- How many open choices between the agents have been made: where `Config.freeTurn` is read next. -/
  turns : Nat
  /-- Where the open NaN bits of the next P-sample step begin in `Config.freeNan` and `Config.freeNan32`. -/
  draws : Nat
deriving DecidableEq, Repr

/-- Faults: the block has none. "No condition in this core is fatal", no status stops it, and every command in every
state gets a response (R65, R207). No constructor, so nothing raises one and no step can end in one: safe. -/
inductive Fault
deriving DecidableEq, Repr

/-- Refusals. -/
inductive Refusal
  /-- An instruction of the opcode table that has no meaning yet, by its mnemonic: raised by a refused arm of `exec`
  only, of which there is none. Safe: the model stops where the hardware goes on. -/
  | notModelled (mnemonic : String)
deriving DecidableEq, Repr

/-- A history of zeros: four times +0.0 (R36, R154). -/
def zeroHist : Hist := ⟨0#64, 0#64, 0#64, 0#64⟩

/-- The history registers of every band and channel at +0.0. -/
def zeroHistory : PerBand (PerChannel Hist) := bandAll (fun _ => ⟨zeroHist, zeroHist⟩)

/-- The machine right after hardware reset (R36): EN at the open `EN_RESET`, levels 50, FS at `FS_RESET`, COEF compiled
for them, every history register +0.0, no job; the ports start empty (R223). -/
def State.reset : State where
  en := Config.enReset
  lvl := ⟨Config.levelReset, Config.levelReset, Config.levelReset⟩
  fs := Config.fsReset
  coef := bandAll (fun b => compile b Config.levelReset.toNat Config.fsReset)
  hist := zeroHistory
  job := none
  cIn := []
  pIn := []
  cOut := []
  pOut := []
  resetInput := false
  sched := []
  turns := 0
  draws := 0

end Sys2Proof.Machine
end

