-- ==== Sys2Proof/Machine/Ops.lean ====
section
/-! DEFINITION. The named operations over the state: taking a command from a port and giving a response, `respond` and
`raise` (R15), the register writes, and hardware reset (R223). The block takes no exceptions and returns from none
(R207): `raise`, which answers with an error status and changes no register, is what it has in their place. -/

namespace Sys2Proof.Machine

/-- A caller presents a complete packet on a port: it waits behind those already there (R55, R89). -/
def State.present (s : State) (port : Agent) (pkt : Packet) : State :=
  match port with
  | .control => { s with cIn := s.cIn ++ [pkt] }
  | .processing => { s with pIn := s.pIn ++ [pkt] }

/-- The port takes the command at its head (R55). -/
def State.accept (s : State) (port : Agent) : State :=
  match port with
  | .control => { s with cIn := s.cIn.tail }
  | .processing => { s with pIn := s.pIn.tail }

/-- The port gives a response (R70). -/
def State.emit (s : State) (port : Agent) (resp : Packet) : State :=
  match port with
  | .control => { s with cOut := s.cOut ++ [resp] }
  | .processing => { s with pOut := s.pOut ++ [resp] }

/-- A response: the status word, then the result words (R80, R81). -/
def response (opc : BitVec 8) (st : Status) (results : List Word) : Packet := statusWord opc st :: results

/-- `respond(status, sub, words...)` ends the command at the head of the port with that response (R15). -/
def State.respond (s : State) (port : Agent) (opc : BitVec 8) (st : Status) (results : List Word) : State :=
  (s.accept port).emit port (response opc st results)

/-- `raise <Kind>(sub)` ends the command at the head of the port at once: the status word alone, and no register
changed (R15, R81). -/
def State.raise (s : State) (port : Agent) (opc : BitVec 8) (st : Status) : State := s.respond port opc st []

/-- `LVL[b]` as an integer (R22). -/
def State.level (s : State) (b : Band) : Int := (bandGet s.lvl b).toNat

/-- `LVL[b] <- c` (R103). -/
def State.writeLevel (s : State) (b : Band) (c : Int) : State := { s with lvl := bandSet s.lvl b (levelBits c) }

/-- UpdateCoefficients(b, k): one indivisible write of the five values (R156). -/
def State.updateCoefficients (s : State) (b : Band) (k : Coef) : State := { s with coef := bandSet s.coef b k }

/-- The history registers of one channel, band by band: what one ApplySample reads and writes (R153). -/
def State.channelHist (s : State) (c : Channel) : PerBand Hist := bandAll (fun b => chanGet (bandGet s.hist b) c)

/-- Writes the history registers of one channel; the other channel keeps its own (R152). -/
def State.writeChannelHist (s : State) (c : Channel) (h : PerBand Hist) : State :=
  { s with hist := bandAll (fun b => chanSet (bandGet s.hist b) c (bandGet h b)) }

/-- Hardware reset (R220, R223): every register takes its reset value and every command, in flight or waiting, is gone
without a response. Responses already given stay given; the schedule to come and the counters of the open values are
not the block's and go on. -/
def State.hardwareReset (s : State) : State :=
  { State.reset with cOut := s.cOut, pOut := s.pOut, sched := s.sched, turns := s.turns, draws := s.draws }

end Sys2Proof.Machine
end

