-- ==== Sys2Proof/Machine/FilterBank.lean ====
section
/-! DEFINITION. The filter bank (spec/42_filter_bank.md): Stage, the cascade ApplySample, ResetHistory, and RSTF. The
arithmetic draws the open bits of its NaNs from `d`, one number per operation (R157). -/

namespace Sys2Proof.Machine

/-- The output of Stage(b, c, x) with coefficients `k` and history `h`: nine rounded operations in this order (R151). -/
def stageOutput (d : Nat → NanDraw) (k : Coef) (h : Hist) (x : F64) : F64 :=
  let acc := fmul (d 0) k.b0 x
  let acc := fadd (d 2) acc (fmul (d 1) k.b1 h.x1)
  let acc := fadd (d 4) acc (fmul (d 3) k.b2 h.x2)
  let acc := fsub (d 6) acc (fmul (d 5) k.a1 h.y1)
  fsub (d 8) acc (fmul (d 7) k.a2 h.y2)

/-- The history after a stage with input `x` and output `y` (R151, R152). -/
def shiftHist (h : Hist) (x y : F64) : Hist := ⟨x, h.x1, y, h.y1⟩

/-- ApplySample on the three coefficient sets and one channel's histories: the filtered sample and the histories after
it, bass into mid into treble (R153). -/
def applySample (d : Nat → NanDraw) (k : PerBand Coef) (h : PerBand Hist) (x : F64) : F64 × PerBand Hist :=
  let v1 := stageOutput d k.bass h.bass x
  let v2 := stageOutput (fun i => d (9 + i)) k.mid h.mid v1
  let v3 := stageOutput (fun i => d (18 + i)) k.treble h.treble v2
  (v3, ⟨shiftHist h.bass x v1, shiftHist h.mid v1 v2, shiftHist h.treble v2 v3⟩)

/-- ResetHistory(): all 24 registers +0.0, nothing else touched (R154). -/
def resetHistory (s : State) : State := { s with hist := zeroHistory }

/-- RSTF (R155). -/
def execRstf (s : State) : Host.Outcome State Fault Refusal :=
  .next ((resetHistory s).respond .control Opc.rstf.bits .ok [])

end Sys2Proof.Machine
end

