-- ==== Sys2Proof/Machine/BufferProcessor.lean ====
section
/-! DEFINITION. The buffer processor (spec/43_buffer_processor.md): the three steps of a buffer command, P-begin (which
is what PROCM and PROCS execute), P-sample and P-end, with SyncRate. -/

namespace Sys2Proof.Machine

/-- The operation code a buffer command echoes. -/
def JobKind.opcBits : JobKind → BitVec 8
  | .mono => Opc.procM.bits
  | .stereo => Opc.procS.bits

/-- The result words of a buffer command: `n` and one output sequence, or `nL`, `nR` and two (R81). -/
def bufferResults (kind : JobKind) (n : Nat) (out : PerChannel Buffer) : List Word :=
  match kind with
  | .mono => BitVec.ofNat 32 n :: out.left
  | .stereo => BitVec.ofNat 32 n :: BitVec.ofNat 32 n :: (out.left ++ out.right)

/-- SyncRate(fs): where the rate differs from `FS`, `FS` takes it and all three bands are recompiled for it (R174). -/
def syncRate (fs : Word) (s : State) : State :=
  if fs = s.fs then s
  else { s with fs := fs, coef := bandAll (fun b => compile b (s.level b) fs) }

/-- The job of an enabled, valid, non-empty command, before its first sample (R173, step 4). -/
def newJob (kind : JobKind) (input : PerChannel Buffer) : Job where
  kind := kind
  n := input.left.length
  input := input
  output := ⟨[], []⟩
  idx := 0
  ch := .left

/-- P-begin's last part: the command is taken and becomes the job in flight (R173). -/
def startJob (kind : JobKind) (input : PerChannel Buffer) (s : State) : State :=
  { s.accept .processing with job := some (newJob kind input) }

/-- P-begin (R173): validation in the spec's order, then the zero-length path, the disabled path, and the start of the
job at the command's sample rate. `input` is none where a buffer reference the command needs is absent. -/
def pBegin (kind : JobKind) (fs : Word) (input : Option (PerChannel Buffer)) (s : State) : State :=
  match input with
  | none => s.raise .processing (JobKind.opcBits kind) (.invalidArgument .nullBuffer)
  | some io =>
    if sext32 fs ≤ 0 then s.raise .processing (JobKind.opcBits kind) (.invalidArgument .badRate)
    else if kind = .stereo ∧ io.left.length ≠ io.right.length then
      s.raise .processing (JobKind.opcBits kind) (.invalidArgument .lenMismatch)
    else if io.left.length = 0 then
      s.respond .processing (JobKind.opcBits kind) .ok (bufferResults kind 0 ⟨[], []⟩)
    else if s.en = false then
      s.respond .processing (JobKind.opcBits kind) .ok (bufferResults kind io.left.length io)
    else startJob kind io (syncRate fs s)

/-- PROCM (R170): the input is channel 0 (R172). While a buffer is in flight P-begin is not enabled: the command stays at
the head of the P-port and nothing changes (R55, R56, R173). -/
def execProcM (fs : Word) (buf : Option Buffer) (s : State) : Host.Outcome State Fault Refusal :=
  match s.job with
  | some _ => .next s
  | none => .next (pBegin .mono fs (buf.map (fun b => ⟨b, []⟩)) s)

/-- The two inputs of PROCS, where both references are present (R171). -/
def stereoInput (left right : Option Buffer) : Option (PerChannel Buffer) :=
  match left, right with
  | some l, some r => some ⟨l, r⟩
  | _, _ => none

/-- PROCS (R171). While a buffer is in flight it waits as PROCM does. -/
def execProcS (fs : Word) (left right : Option Buffer) (s : State) : Host.Outcome State Fault Refusal :=
  match s.job with
  | some _ => .next s
  | none => .next (pBegin .stereo fs (stereoInput left right) s)

/-- The position after a sample: mono to the next index, stereo to the right channel and then to the next index (R30). -/
def Job.advance (j : Job) : Job :=
  match j.kind, j.ch with
  | .mono, _ => { j with idx := j.idx + 1 }
  | .stereo, .left => { j with ch := .right }
  | .stereo, .right => { j with ch := .left, idx := j.idx + 1 }

/-- How many open NaN values one P-sample step draws: one for `f2d`, nine for each stage, one for `d2f`. -/
def drawsPerSample : Nat := 29

/-- The filtered sample of a P-sample step and the channel's histories after it, from draw number `d0` on (R176). -/
def filterWord (d0 : Nat) (k : PerBand Coef) (h : PerBand Hist) (w : Word) : F64 × PerBand Hist :=
  applySample (fun i => Config.freeNan (d0 + 1 + i)) k h (f2d (Config.freeNan d0) w)

/-- The output word of a P-sample step and the channel's histories after it (R176). -/
def processWord (d0 : Nat) (k : PerBand Coef) (h : PerBand Hist) (w : Word) : Word × PerBand Hist :=
  (d2f (Config.freeNan32 (d0 + 28)) (filterWord d0 k h w).1, (filterWord d0 k h w).2)

/-- P-sample (R176): one sample of one channel through the cascade, its output word written at the same index, the
position advanced. -/
def pSample (j : Job) (s : State) : State :=
  let w := bufRead (chanGet j.input j.ch) j.idx
  let r := processWord s.draws s.coef (s.channelHist j.ch) w
  let out := chanSet j.output j.ch (bufWrite (chanGet j.output j.ch) j.idx r.1)
  { s.writeChannelHist j.ch r.2 with
    job := some { j with output := out }.advance
    draws := s.draws + drawsPerSample }

/-- P-end (R177): the output buffers whole, and the P-port is free. -/
def pEnd (j : Job) (s : State) : State :=
  { s.emit .processing (response (JobKind.opcBits j.kind) .ok (bufferResults j.kind j.n j.output)) with job := none }

end Sys2Proof.Machine
end

