-- ==== Sys2Proof/Machine/ParameterStore.lean ====
section
/-! DEFINITION. The parameter store's commands (spec/40_parameter_store.md): SETEN, GETEN, the three level setters over
SetLevel (R103), the three level getters over GetLevel (R107). Each is one C-step. -/

namespace Sys2Proof.Machine

/-- SETEN (R101). -/
def execSetEn (en : Bool) (s : State) : Host.Outcome State Fault Refusal :=
  .next ({ s with en := en }.respond .control Opc.setEn.bits .ok [])

/-- GETEN (R102). -/
def execGetEn (s : State) : Host.Outcome State Fault Refusal :=
  .next (s.respond .control Opc.getEn.bits .ok [(BitVec.ofBool s.en).setWidth 32])

/-- SetLevel(b, value) (R103): clamp, store, recompile the band at the present `FS`, answer with the stored level. -/
def setLevel (b : Band) (value : Word) (s : State) : State :=
  let c := clamp (sext32 value)
  let s1 := (s.writeLevel b c).updateCoefficients b (compile b c s.fs)
  s1.respond .control Opc.setLevel.bits (setterStatus (sext32 value)) [levelWord c]

/-- SETBASS (R104). -/
def execSetBass (value : Word) (s : State) : Host.Outcome State Fault Refusal := .next (setLevel .bass value s)

/-- SETMID (R105). -/
def execSetMid (value : Word) (s : State) : Host.Outcome State Fault Refusal := .next (setLevel .mid value s)

/-- SETTREB (R106). -/
def execSetTreb (value : Word) (s : State) : Host.Outcome State Fault Refusal := .next (setLevel .treble value s)

/-- GetLevel(b) (R107). -/
def getLevel (b : Band) (s : State) : State := s.respond .control Opc.getLevel.bits .ok [levelWord (s.level b)]

/-- GETBASS (R108). -/
def execGetBass (s : State) : Host.Outcome State Fault Refusal := .next (getLevel .bass s)

/-- GETMID (R109). -/
def execGetMid (s : State) : Host.Outcome State Fault Refusal := .next (getLevel .mid s)

/-- GETTREB (R110). -/
def execGetTreb (s : State) : Host.Outcome State Fault Refusal := .next (getLevel .treble s)

end Sys2Proof.Machine
end

