-- ==== Sys2Proof/Machine/Dispatch.lean ====
section
/-! DEFINITION. The façade's dispatch table (R191): one arm per command. -/

namespace Sys2Proof.Machine

def exec (i : Instr) (s : State) : Host.Outcome State Fault Refusal :=
  match i with
  | .setEn en => Sys2Proof.Machine.execSetEn en s
  | .getEn => Sys2Proof.Machine.execGetEn s
  | .setBass value => Sys2Proof.Machine.execSetBass value s
  | .setMid value => Sys2Proof.Machine.execSetMid value s
  | .setTreb value => Sys2Proof.Machine.execSetTreb value s
  | .getBass => Sys2Proof.Machine.execGetBass s
  | .getMid => Sys2Proof.Machine.execGetMid s
  | .getTreb => Sys2Proof.Machine.execGetTreb s
  | .rstf => Sys2Proof.Machine.execRstf s
  | .procM fs buf => Sys2Proof.Machine.execProcM fs buf s
  | .procS fs left right => Sys2Proof.Machine.execProcS fs left right s

end Sys2Proof.Machine
end

