-- ==== Sys2Proof/Machine/Sequencer.lean ====
section
/-! DEFINITION. What the next step is (R56, R57): which agents have an enabled step, which of them goes, and what that
agent's step is: the command decoded from the head of its port, an illegal packet refused, or P-sample or P-end of the
buffer in flight. -/

namespace Sys2Proof.Machine

/-- The control agent has an enabled step: a packet is at the head of the C-port (R56). -/
def State.controlReady (s : State) : Bool := !s.cIn.isEmpty

/-- The processing agent has an enabled step: a buffer is in flight, or a packet is at the head of the P-port (R56). -/
def State.processingReady (s : State) : Bool := s.job.isSome || !s.pIn.isEmpty

/-- The agent that goes next, and the state with that choice used up; none where neither has an enabled step. Where both
have one, either may go (R57): the schedule says which, and past its end the choice is open. -/
def State.pick (s : State) : Option (Agent × State) :=
  match s.controlReady, s.processingReady with
  | false, false => none
  | true, false => some (.control, s)
  | false, true => some (.processing, s)
  | true, true =>
    match s.sched with
    | a :: rest => some (a, { s with sched := rest })
    | [] => some (Config.freeTurn s.turns, { s with turns := s.turns + 1 })

/-- What an agent's step is: a command to execute, or a step of the block that is complete in itself. -/
inductive Action
  | run (i : Instr)
  | done (s : State)
deriving DecidableEq, Repr

/-- An illegal packet at the head of a port is answered with IllegalCommand and nothing changes (R84 to R89, R205). -/
def State.refuseIllegal (s : State) (port : Agent) (opc : BitVec 8) (cause : IllegalCause) : State :=
  s.raise port opc (.illegalCommand cause)

/-- The step that the packet at the head of a port calls for. -/
def State.fetch (s : State) (port : Agent) (queue : List Packet) : Action :=
  match queue with
  | [] => .done s
  | pkt :: _ =>
    match decode port pkt with
    | .cmd i => .run i
    | .illegal opc cause => .done (s.refuseIllegal port opc cause)

/-- The step of the agent that goes (R56): the C-step of the command at the head of the C-port; with a buffer in flight,
P-sample below its length and P-end at it; else the P-begin of the command at the head of the P-port. -/
def State.action (s : State) (a : Agent) : Action :=
  match a with
  | .control => s.fetch .control s.cIn
  | .processing =>
    match s.job with
    | some j => if j.idx < j.n then .done (pSample j s) else .done (pEnd j s)
    | none => s.fetch .processing s.pIn

/-- `pkt` at the head of its port, and its agent the next to go: where the other agent has an enabled step too, the
schedule is given the choice; a command for the P-port finds no buffer in flight; no reset is pending. -/
def State.withCommand (s : State) (port : Agent) (pkt : Packet) : State :=
  match port with
  | .control =>
    { s with
      cIn := pkt :: s.cIn
      resetInput := false
      sched := if s.processingReady then .control :: s.sched else s.sched }
  | .processing =>
    { s with
      pIn := pkt :: s.pIn
      job := none
      resetInput := false
      sched := if s.controlReady then .processing :: s.sched else s.sched }

end Sys2Proof.Machine
end

