-- ==== Sys2Proof/Machine/Step.lean ====
section
/-! DEFINITION. One step of the machine: a hardware reset where the reset input is asserted (R223), else the step of the
agent that goes (R56, R57), else nothing, where no agent has an enabled step. -/

namespace Sys2Proof.Machine

/-- One atomic step (R56). -/
def step (s : State) : Host.Outcome State Fault Refusal :=
  if s.resetInput then .next s.hardwareReset
  else
    match s.pick with
    | none => .next s
    | some (a, s1) =>
      match s1.action a with
      | .run i => exec i s1
      | .done s2 => .next s2

/-- `s` with the instruction of an opcode-table word at the head of its port and next to be executed. -/
def State.withFetchWord (s : State) (nbits w : Nat) : State :=
  s.withCommand (packetPort (tablePacket nbits w)) (tablePacket nbits w)

end Sys2Proof.Machine
end

