-- ==== Sys2Proof/Safety.lean ====
section
/-! DEFINITION. The terms claims are made in: the invariants of R28 to R30, runs, the sequential form of a buffer command
(R183), the numbers floating-point words stand for, and equality up to the open bits of NaNs (R11, U9). -/

namespace Sys2Proof.Machine

/-! ### Invariants -/

/-- The right input or output of a buffer command has `n` words for stereo, none for mono. -/
def rightCount (kind : JobKind) (n : Nat) : Nat :=
  match kind with
  | .mono => 0
  | .stereo => n

/-- What R30 says of a job: `n` at least 1 and at most `MAX_LEN`, `idx` at most `n`, `ch` left for mono, input buffers of
`n` words, and as many output words as the position has passed. -/
structure Job.Valid (j : Job) : Prop where
  n_pos : 1 ≤ j.n
  n_le : j.n ≤ Config.maxLen
  idx_le : j.idx ≤ j.n
  right_stereo : j.ch = .right → j.kind = .stereo ∧ j.idx < j.n
  input_left : j.input.left.length = j.n
  input_right : j.input.right.length = rightCount j.kind j.n
  output_left : j.output.left.length = j.idx + (if j.ch = .right then 1 else 0)
  output_right : j.output.right.length = rightCount j.kind j.idx

/-- The invariants of the block: levels in [0, 100] (R28), coefficients those compiled for the present level and rate
(R29), a positive rate (R23), a valid job (R30). -/
structure State.Valid (s : State) : Prop where
  level_le : ∀ b, (bandGet s.lvl b).toNat ≤ 100
  coef_eq : ∀ b, bandGet s.coef b = compile b (s.level b) s.fs
  fs_pos : 0 < sext32 s.fs
  job_valid : ∀ j, s.job = some j → j.Valid

/-! ### Runs -/

/-- `k` steps. -/
def State.run (s : State) (k : Nat) : Host.Outcome State Fault Refusal := Sys2Proof.core.run k s

/-- The run is over (R66): no command waits and none is in flight. -/
def State.Idle (s : State) : Prop := s.cIn = [] ∧ s.pIn = [] ∧ s.job = none

/-- The steps a job still has before it: one for each sample of each channel and one P-end (R65). -/
def Job.stepsLeft (j : Job) : Nat :=
  match j.kind, j.ch with
  | .mono, _ => (j.n - j.idx) + 1
  | .stereo, .left => 2 * (j.n - j.idx) + 1
  | .stereo, .right => 2 * (j.n - j.idx)

/-- A bound on the steps that the commands waiting and in flight still take: one for a packet of the C-port, and for a
packet of the P-port two and one for each of its words, which are more than its samples (R65). -/
def State.work (s : State) : Nat :=
  s.cIn.length + (s.pIn.map (fun pkt => 2 + pkt.length)).sum + ((s.job.map Job.stepsLeft).getD 0)

/-! ### The sequential form of a buffer command (R183) -/

/-- ProcessMonoSeq: every word through the cascade in order, from draw number `d`; the output words and the histories
after them. -/
def monoSeq (k : PerBand Coef) : Nat → PerBand Hist → Buffer → Buffer × PerBand Hist
  | _, h, [] => ([], h)
  | d, h, w :: ws =>
    let r := processWord d k h w
    let q := monoSeq k (d + drawsPerSample) r.2 ws
    (r.1 :: q.1, q.2)

/-- What a stereo command computes: both outputs and both channels' histories. -/
structure StereoResult where
  outL : Buffer
  outR : Buffer
  histL : PerBand Hist
  histR : PerBand Hist
deriving DecidableEq, Repr

/-- The stereo form: at each index the left word on the left histories, then the right word on the right ones. -/
def stereoSeq (k : PerBand Coef) : Nat → PerBand Hist → PerBand Hist → Buffer → Buffer → StereoResult
  | d, hL, hR, l :: ls, r :: rs =>
    let a := processWord d k hL l
    let b := processWord (d + drawsPerSample) k hR r
    let q := stereoSeq k (d + 2 * drawsPerSample) a.2 b.2 ls rs
    { outL := a.1 :: q.outL, outR := b.1 :: q.outR, histL := q.histL, histR := q.histR }
  | _, hL, hR, _, _ => { outL := [], outR := [], histL := hL, histR := hR }

/-! ### What floating-point words stand for -/

/-- A binary64 NaN. -/
def isNan64 (a : F64) : Prop := unpack64 a = .nan

/-- A binary32 NaN. -/
def isNan32 (w : Word) : Prop := unpack32 w = .nan

/-- A zero of either sign. -/
def isZero64 (a : F64) : Prop := a = 0x0000000000000000#64 ∨ a = 0x8000000000000000#64

/-- A binary32 zero of either sign. -/
def isZero32 (w : Word) : Prop := w = 0x00000000#32 ∨ w = 0x80000000#32

/-- A finite binary64 number. -/
def isFinite64 (a : F64) : Prop := ∃ s m, unpack64 a = .fin s m

/-- Units with their sign. -/
def signedUnits (s : Bool) (m : Nat) : Int := if s then -(m : Int) else m

/-- The number a finite binary64 word stands for, in units of 2^−1074. -/
def units64 (a : F64) : Option Int :=
  match unpack64 a with
  | .fin s m => some (signedUnits s m)
  | .inf _ => none
  | .nan => none

/-- The number a finite binary32 word stands for, in units of 2^−149. -/
def units32 (w : Word) : Option Int :=
  match unpack32 w with
  | .fin s m => some (signedUnits s m)
  | .inf _ => none
  | .nan => none

/-- `r` is num/den units of 2^−1074 rounded to nearest, ties to even (R10): at and beyond the midpoint between the
largest finite number and 2^1024, the infinity of its sign; else a finite number to which none is nearer, and whose
last bit is 0 where another is as near. -/
def RoundsTo64 (num : Int) (den : Nat) (r : F64) : Prop :=
  if (2 ^ 54 - 1) * 2 ^ 2044 * den ≤ num.natAbs then r = inf64 (decide (num < 0))
  else ∃ u, units64 r = some u ∧
    ∀ y v, units64 y = some v → v ≠ u →
      (u * den - num).natAbs < (v * den - num).natAbs ∨
      ((u * den - num).natAbs = (v * den - num).natAbs ∧ r.getLsbD 0 = false)

/-- The same of binary32, in units of 2^−149, the largest finite number being 0x7F7FFFFF (R13). -/
def RoundsTo32 (num : Int) (den : Nat) (r : Word) : Prop :=
  if (2 ^ 25 - 1) * 2 ^ 252 * den ≤ num.natAbs then
    r = if num < 0 then 0xFF800000#32 else 0x7F800000#32
  else ∃ u, units32 r = some u ∧
    ∀ y v, units32 y = some v → v ≠ u →
      (u * den - num).natAbs < (v * den - num).natAbs ∨
      ((u * den - num).natAbs = (v * den - num).natAbs ∧ r.getLsbD 0 = false)

/-! ### Equality up to the bits of NaNs (R11, U9) -/

/-- Equal, or both NaNs. -/
def Same64 (a b : F64) : Prop := a = b ∨ (isNan64 a ∧ isNan64 b)

/-- Equal, or both NaNs. -/
def Same32 (a b : Word) : Prop := a = b ∨ (isNan32 a ∧ isNan32 b)

/-- Word by word. -/
def SameWords (a b : List Word) : Prop := List.Forall₂ Same32 a b

/-- Register by register. -/
def SameHist (g h : Hist) : Prop :=
  Same64 g.x1 h.x1 ∧ Same64 g.x2 h.x2 ∧ Same64 g.y1 h.y1 ∧ Same64 g.y2 h.y2

/-- Band by band. -/
def SameHists (g h : PerBand Hist) : Prop := ∀ b, SameHist (bandGet g b) (bandGet h b)

/-- Two jobs whose output words agree up to NaNs. -/
def SameJob (i j : Job) : Prop :=
  { i with output := j.output } = j ∧ SameWords i.output.left j.output.left ∧ SameWords i.output.right j.output.right

/-- The same of the field `job`. -/
def SameJobs : Option Job → Option Job → Prop
  | none, none => True
  | some i, some j => SameJob i j
  | _, _ => False

/-- Two states that agree in everything but the bits of NaNs in histories, output words and responses of the P-port, and
the place where the next open bits are drawn. -/
structure State.SameButNans (s t : State) : Prop where
  rest : { s with hist := t.hist, job := t.job, pOut := t.pOut, draws := t.draws } = t
  hist : ∀ c, SameHists (s.channelHist c) (t.channelHist c)
  job : SameJobs s.job t.job
  pOut : List.Forall₂ SameWords s.pOut t.pOut

end Sys2Proof.Machine
end

