-- ==== Sys2Proof/Certificates/Slice0/Obligations.lean ====
section
/-! DEFINITION. The statements for the provers, from the numbered rules of spec/. Words, codes and field values are
written out from the rules, not taken from the model's own tables, wherever a rule gives them. -/

open Sys2Proof Sys2Proof.Machine

namespace Sys2Proof.Claims

/-- The operation codes of R79. -/
def knownOpcs : List (BitVec 8) := [0x01#8, 0x02#8, 0x10#8, 0x11#8, 0x20#8, 0x40#8, 0x41#8]

/-- `H[31:24]`. -/
def opcBits (h : Word) : BitVec 8 := h.extractLsb' 24 8

/-- `H[17:16]`. -/
def bandBits (h : Word) : BitVec 2 := h.extractLsb' 16 2

/-- The reserved-field failures of R85: a reserved bit set; `band` not 0 where there is none, or 3 where there is one; `f1`
outside format PS; `f0` outside formats C1, PM and PS. -/
def BadFields (h : Word) : Prop :=
  h.extractLsb' 18 6 ≠ 0#6 ∨ h.extractLsb' 2 14 ≠ 0#14 ∨
  (opcBits h ∈ [0x10#8, 0x11#8] ∧ bandBits h = 3#2) ∨
  (opcBits h ∈ [0x01#8, 0x02#8, 0x20#8, 0x40#8, 0x41#8] ∧ bandBits h ≠ 0#2) ∨
  (opcBits h ≠ 0x41#8 ∧ h.getLsbD 1 = true) ∨
  (opcBits h ∈ [0x02#8, 0x10#8, 0x11#8, 0x20#8] ∧ h.getLsbD 0 = true)

/-- The total length of the packet's format, R72 to R77, where its length words are there. -/
def need (h : Word) (pkt : Packet) : Option Nat :=
  if opcBits h = 0x10#8 then some 2
  else if opcBits h = 0x40#8 then
    (if h.getLsbD 0 then some 2 else pkt[2]?.map (fun n => 3 + n.toNat))
  else if opcBits h = 0x41#8 then
    (match h.getLsbD 0, h.getLsbD 1 with
      | true, true => some 2
      | true, false => pkt[2]?.map (fun nR => 3 + nR.toNat)
      | false, true => pkt[2]?.map (fun nL => 3 + nL.toNat)
      | false, false => pkt[2]?.bind (fun nL => pkt[3]?.map (fun nR => 4 + nL.toNat + nR.toNat)))
  else some 1

/-- A row of R79's table: port, match, mask. -/
structure Row where
  port : Agent
  matchBits : Word
  mask : Word
deriving DecidableEq, Repr

/-- The table of R79. -/
def rows : List Row :=
  [⟨.control, 0x01000000#32, 0xFFFFFFFE#32⟩, ⟨.control, 0x02000000#32, 0xFFFFFFFF#32⟩,
   ⟨.control, 0x10000000#32, 0xFFFFFFFF#32⟩, ⟨.control, 0x10010000#32, 0xFFFFFFFF#32⟩,
   ⟨.control, 0x10020000#32, 0xFFFFFFFF#32⟩, ⟨.control, 0x11000000#32, 0xFFFFFFFF#32⟩,
   ⟨.control, 0x11010000#32, 0xFFFFFFFF#32⟩, ⟨.control, 0x11020000#32, 0xFFFFFFFF#32⟩,
   ⟨.control, 0x20000000#32, 0xFFFFFFFF#32⟩, ⟨.processing, 0x40000000#32, 0xFFFFFFFE#32⟩,
   ⟨.processing, 0x41000000#32, 0xFFFFFFFC#32⟩]

/-- Each command's row: its place in the table. -/
def rowIndex : Instr → Nat
  | .setEn _ => 0
  | .getEn => 1
  | .setBass _ => 2
  | .setMid _ => 3
  | .setTreb _ => 4
  | .getBass => 5
  | .getMid => 6
  | .getTreb => 7
  | .rstf => 8
  | .procM _ _ => 9
  | .procS _ _ _ => 10

/-- A header selects a row (R79). -/
def Selects (h : Word) (r : Row) : Prop := h &&& r.mask = r.matchBits

/-- The packet at the head of agent `a`'s port, the P-port being able to take one only while no buffer is in flight. -/
def AtHead (s : State) (a : Agent) (pkt : Packet) : Prop :=
  match a with
  | .control => ∃ rest, s.cIn = pkt :: rest
  | .processing => s.job = none ∧ ∃ rest, s.pIn = pkt :: rest

/-- The low byte of an IllegalCommand status word (R206). -/
def illegalCode : IllegalCause → BitVec 8
  | .badOpc => 0x13#8
  | .badField => 0x23#8
  | .wrongPort => 0x33#8
  | .badLength => 0x43#8

/-- `max(0, min(100, v))`. -/
def clamped (v : Int) : Int := max 0 (min 100 v)

/-- The status word of a level setter (R82, R203). -/
def setterWord (v : Int) : Word := if v < 0 ∨ 100 < v then 0x10000001#32 else 0x10000000#32

/-- One step that is no hardware reset and serves no setter of band `b`: if such a setter is at the head of the C-port,
it is still there after the step. -/
def StepsWithoutSetter (b : Band) (s t : State) : Prop :=
  s.resetInput = false ∧ step s = .next t ∧
    ∀ pkt rest v, s.cIn = pkt :: rest → decode .control pkt = .cmd (Instr.setLvl b v) → t.cIn = s.cIn

/-- Only the processing agent has steps: no reset, nothing on the C-port, no buffer in flight. -/
structure Quiet (s : State) : Prop where
  reset : s.resetInput = false
  port : s.cIn = []
  job : s.job = none

/-- Two states with the same registers, up to the bits of NaNs in the histories. -/
structure SameRegisters (s t : State) : Prop where
  en : s.en = t.en
  lvl : s.lvl = t.lvl
  fs : s.fs = t.fs
  coef : s.coef = t.coef
  hist : ∀ c, SameHists (s.channelHist c) (t.channelHist c)

end Sys2Proof.Claims

open Sys2Proof.Claims

/-! ### Encoding -/

/-- R79, R92 and V-E1: words written out from the spec's encodings decode to the commands they stand for. -/
def Obligations.SpecWordsDecodeToTheirCommands : Prop :=
  decode .control [0x01000001#32] = .cmd (.setEn true) ∧
  decode .control [0x02000000#32] = .cmd .getEn ∧
  decode .control [0x10000000#32, 0x00000096#32] = .cmd (.setBass 150#32) ∧
  decode .control [0x10010000#32, 0xFFFFFFFB#32] = .cmd (.setMid (BitVec.ofInt 32 (-5))) ∧
  decode .control [0x10020000#32, 0x00000014#32] = .cmd (.setTreb 20#32) ∧
  decode .control [0x11000000#32] = .cmd .getBass ∧
  decode .control [0x11010000#32] = .cmd .getMid ∧
  decode .control [0x11020000#32] = .cmd .getTreb ∧
  decode .control [0x20000000#32] = .cmd .rstf ∧
  decode .processing [0x40000000#32, 0x0000AC44#32, 0x00000002#32, 0x3F000000#32, 0x3E800000#32]
    = .cmd (.procM 44100#32 (some [0x3F000000#32, 0x3E800000#32])) ∧
  decode .processing [0x40000001#32, 0x0000AC44#32] = .cmd (.procM 44100#32 none) ∧
  decode .processing [0x41000000#32, 0x0000BB80#32, 0x00000001#32, 0x00000001#32, 0x3F800000#32, 0xBF800000#32]
    = .cmd (.procS 48000#32 (some [0x3F800000#32]) (some [0xBF800000#32])) ∧
  decode .processing [0x41000002#32, 0x0000BB80#32, 0x00000001#32, 0x3F800000#32]
    = .cmd (.procS 48000#32 (some [0x3F800000#32]) none)

/-- R71 to R78: no bit of an encoding is dropped. -/
def Obligations.DecodeOfEncodeIsTheCommand : Prop :=
  ∀ i : Instr, i.wellFormed = true → decode i.port (encode i) = .cmd i

/-- R71 to R78: a packet that decodes to a command is that command's encoding, arrived on its own port. -/
def Obligations.EncodeOfDecodeIsThePacket : Prop :=
  ∀ (port : Agent) (pkt : Packet) (i : Instr), decode port pkt = .cmd i →
    encode i = pkt ∧ i.port = port ∧ i.wellFormed = true

/-- R86: the checks in their order, the first that fails giving the answer, and a command where none fails. -/
def Obligations.DecoderReportsTheFirstFailingCheck : Prop :=
  ∀ (port : Agent) (h : Word) (rest : Packet),
    decode port [] = .illegal 0#8 .badLength ∧
    (opcBits h ∉ knownOpcs → decode port (h :: rest) = .illegal (opcBits h) .badOpc) ∧
    (opcBits h ∈ knownOpcs → ¬ (opcBits h ∈ [0x40#8, 0x41#8] ↔ port = .processing) →
      decode port (h :: rest) = .illegal (opcBits h) .wrongPort) ∧
    (opcBits h ∈ knownOpcs → (opcBits h ∈ [0x40#8, 0x41#8] ↔ port = .processing) → BadFields h →
      decode port (h :: rest) = .illegal (opcBits h) .badField) ∧
    (opcBits h ∈ knownOpcs → (opcBits h ∈ [0x40#8, 0x41#8] ↔ port = .processing) → ¬ BadFields h →
      need h (h :: rest) ≠ some (rest.length + 1) →
      decode port (h :: rest) = .illegal (opcBits h) .badLength) ∧
    (opcBits h ∈ knownOpcs → (opcBits h ∈ [0x40#8, 0x41#8] ↔ port = .processing) → ¬ BadFields h →
      need h (h :: rest) = some (rest.length + 1) → ∃ i, decode port (h :: rest) = .cmd i)

/-- R79: the rows are disjoint; a packet that is a command has its own row's header; a header that selects a row of its
port gives that row's command, or BAD_LENGTH. -/
def Obligations.HeaderSelectsTheCommandsRow : Prop :=
  (∀ h : Word, rows.Pairwise (fun r q => ¬ (Selects h r ∧ Selects h q))) ∧
  (∀ port h rest i, decode port (h :: rest) = .cmd i →
    ∃ r, rows[rowIndex i]? = some r ∧ r.port = port ∧ Selects h r) ∧
  (∀ (h : Word) (rest : Packet) (k : Nat) (r : Row), rows[k]? = some r → Selects h r →
    (∃ i, rowIndex i = k ∧ decode r.port (h :: rest) = .cmd i) ∨
    decode r.port (h :: rest) = .illegal (opcBits h) .badLength)

/-- R52, the spec's own choice of byte order: a packet is read back from its little-endian bytes. -/
def Obligations.PacketIsReadBackFromItsBytes : Prop :=
  (∀ pkt : Packet, packetOfBytes (packetBytes pkt) = some pkt) ∧
  (∀ w : Word, (wordBytes w).map BitVec.toNat =
    [w.toNat % 256, w.toNat / 256 % 256, w.toNat / 65536 % 256, w.toNat / 16777216])

/-! ### The machine -/

/-- R56, R57, with the model's fields that hold the schedule (log 6): an agent goes exactly if one has an enabled step; one
that alone has one goes; between two, the schedule's head, or the open choice past its end. -/
def Obligations.TheAgentThatGoesHasAnEnabledStep : Prop :=
  ∀ s : State,
    (s.cIn = [] → s.job = none → s.pIn = [] → s.pick = none) ∧
    (s.cIn ≠ [] → s.job = none → s.pIn = [] → s.pick = some (.control, s)) ∧
    (s.cIn = [] → (s.job ≠ none ∨ s.pIn ≠ []) → s.pick = some (.processing, s)) ∧
    (s.cIn ≠ [] → (s.job ≠ none ∨ s.pIn ≠ []) →
      (∀ a rest, s.sched = a :: rest → s.pick = some (a, { s with sched := rest })) ∧
      (s.sched = [] → s.pick = some (Config.freeTurn s.turns, { s with turns := s.turns + 1 })))

/-- R56: where the packet at the head of the port of the agent that goes decodes to a command, the step is that
command's execution. -/
def Obligations.StepRunsTheDecodedCommand : Prop :=
  ∀ (s s1 : State) (a : Agent) (pkt : Packet) (i : Instr),
    s.resetInput = false → s.pick = some (a, s1) → AtHead s1 a pkt → decode a pkt = .cmd i → step s = exec i s1

/-- R65, R207: every command in every state is answered with a next state, and so is every step. -/
def Obligations.EveryCommandAndEveryStepGoesOn : Prop :=
  (∀ i s, ∃ t, exec i s = .next t) ∧ (∀ s, ∃ t, step s = .next t)

/-- The model's choice (log 9), from R193's "state changes only inside the steps": with no enabled step and no reset
nothing changes. -/
def Obligations.IdleBlockDoesNotChange : Prop :=
  ∀ s : State, s.resetInput = false → s.Idle → step s = .next s

/-- R222, R223: hardware reset puts every register at its reset value and discards every command, in flight or waiting,
without a response. What happens to responses already given and to the model's own counters is log 11. -/
def Obligations.HardwareResetDiscardsCommands : Prop :=
  ∀ s : State, s.resetInput = true → ∃ t, step s = .next t ∧
    t.en = State.reset.en ∧ t.lvl = State.reset.lvl ∧ t.fs = State.reset.fs ∧ t.coef = State.reset.coef ∧
    t.hist = State.reset.hist ∧ t.job = none ∧ t.cIn = [] ∧ t.pIn = [] ∧ t.resetInput = false ∧
    t.cOut = s.cOut ∧ t.pOut = s.pOut

/-- R36, whatever `EN_RESET`, `FS_RESET` and the band constants are (logs 1, 2); `FS_RESET` is positive (R6). -/
def Obligations.ResetStateIsTheSpecs : Prop :=
  State.reset.en = Config.enReset ∧ (∀ b, bandGet State.reset.lvl b = 50#7) ∧ State.reset.fs = Config.fsReset ∧ 0 < Config.fsReset.toInt ∧
  (∀ b, bandGet State.reset.coef b = compile b 50 Config.fsReset) ∧
  (∀ b c, chanGet (bandGet State.reset.hist b) c = ⟨0#64, 0#64, 0#64, 0#64⟩) ∧ State.reset.job = none

/-- R205, R206: an illegal packet is answered, on its port, with the status word alone, and nothing else changes. -/
def Obligations.IllegalPacketChangesNothing : Prop :=
  ∀ (s s1 : State) (a : Agent) (pkt : Packet) (opc : BitVec 8) (cause : IllegalCause),
    s.resetInput = false → s.pick = some (a, s1) → AtHead s1 a pkt → decode a pkt = .illegal opc cause →
    step s = .next
      (match a with
        | .control => { s1 with cIn := s1.cIn.tail, cOut := s1.cOut ++ [[opc ++ 0#16 ++ illegalCode cause]] }
        | .processing => { s1 with pIn := s1.pIn.tail, pOut := s1.pOut ++ [[opc ++ 0#16 ++ illegalCode cause]] })

/-! ### The parameter store -/

/-- R101. -/
def Obligations.SetEnWritesEnableOnly : Prop :=
  ∀ (en : Bool) (s : State),
    exec (.setEn en) s = .next { s with en := en, cIn := s.cIn.tail, cOut := s.cOut ++ [[0x01000000#32]] }

/-- R102. -/
def Obligations.GetEnAnswersEnable : Prop :=
  ∀ s : State,
    exec .getEn s = .next { s with
      cIn := s.cIn.tail, cOut := s.cOut ++ [[0x02000000#32, if s.en then 1#32 else 0#32]] }

/-- R103 to R106: a level setter stores the clamped value, recompiles its own band at the present rate, answers with
the stored level, OutOfRangeClamped exactly outside [0, 100], and touches nothing else. -/
def Obligations.LevelSettersClampStoreAndRecompile : Prop :=
  ∀ (v : Word) (s : State),
    exec (.setBass v) s = .next { s with
      lvl := { s.lvl with bass := BitVec.ofInt 7 (clamped v.toInt) }
      coef := { s.coef with bass := compile .bass (clamped v.toInt) s.fs }
      cIn := s.cIn.tail
      cOut := s.cOut ++ [[setterWord v.toInt, BitVec.ofInt 32 (clamped v.toInt)]] } ∧
    exec (.setMid v) s = .next { s with
      lvl := { s.lvl with mid := BitVec.ofInt 7 (clamped v.toInt) }
      coef := { s.coef with mid := compile .mid (clamped v.toInt) s.fs }
      cIn := s.cIn.tail
      cOut := s.cOut ++ [[setterWord v.toInt, BitVec.ofInt 32 (clamped v.toInt)]] } ∧
    exec (.setTreb v) s = .next { s with
      lvl := { s.lvl with treble := BitVec.ofInt 7 (clamped v.toInt) }
      coef := { s.coef with treble := compile .treble (clamped v.toInt) s.fs }
      cIn := s.cIn.tail
      cOut := s.cOut ++ [[setterWord v.toInt, BitVec.ofInt 32 (clamped v.toInt)]] }

/-- R107 to R110. -/
def Obligations.LevelGettersAnswerTheStoredLevel : Prop :=
  ∀ s : State,
    exec .getBass s = .next { s with
      cIn := s.cIn.tail, cOut := s.cOut ++ [[0x11000000#32, s.lvl.bass.setWidth 32]] } ∧
    exec .getMid s = .next { s with
      cIn := s.cIn.tail, cOut := s.cOut ++ [[0x11000000#32, s.lvl.mid.setWidth 32]] } ∧
    exec .getTreb s = .next { s with
      cIn := s.cIn.tail, cOut := s.cOut ++ [[0x11000000#32, s.lvl.treble.setWidth 32]] }

/-- R112: the value set, clamped, is what the getter of the same band answers after any steps at all, of either agent and
in any interleaving, that serve no setter of that band. -/
def Obligations.GetAfterSetAnswersTheClampedValue : Prop :=
  ∀ (b : Band) (v : Word) (s : State), ∃ t, exec (Instr.setLvl b v) s = .next t ∧
    ∀ u, Relation.ReflTransGen (StepsWithoutSetter b) t u →
      ∃ w, exec (Instr.getLvl b) u = .next w ∧
        w.cOut = u.cOut ++ [[0x11000000#32, BitVec.ofInt 32 (clamped v.toInt)]]

/-- R16: Clamp is max and min: 0 below 0, 100 above 100, the value itself between; and so (R111) it is monotone and
idempotent. -/
def Obligations.ClampIsMonotoneAndIdempotent : Prop :=
  ∀ v w : Int, clamp v = max 0 (min 100 v) ∧ (v < 0 → clamp v = 0) ∧ (100 < v → clamp v = 100) ∧
    (0 ≤ v → v ≤ 100 → clamp v = v) ∧ (v ≤ w → clamp v ≤ clamp w) ∧ clamp (clamp v) = clamp v

/-! ### The filter bank -/

/-- R154, R155: RSTF zeroes the 24 history registers and touches nothing else. -/
def Obligations.RstfClearsTheHistoryOnly : Prop :=
  ∀ s : State, ∃ h, exec .rstf s = .next { s with
      hist := h, cIn := s.cIn.tail, cOut := s.cOut ++ [[0x20000000#32]] } ∧
    ∀ b c, chanGet (bandGet h b) c = ⟨0#64, 0#64, 0#64, 0#64⟩

/-- R161: the spec's stage with round numbers, coefficients (0.5, 0.25, 0.125, −0.5, 0.25) and history (1, 2, 3, 4). -/
def Obligations.StageWithRoundNumbers : Prop :=
  ∀ d : Nat → NanDraw,
    stageOutput d ⟨0x3FE0000000000000#64, 0x3FD0000000000000#64, 0x3FC0000000000000#64, 0xBFE0000000000000#64,
        0x3FD0000000000000#64⟩
      ⟨0x3FF0000000000000#64, 0x4000000000000000#64, 0x4008000000000000#64, 0x4010000000000000#64⟩
      0x4020000000000000#64 = 0x4014000000000000#64 ∧
    shiftHist ⟨0x3FF0000000000000#64, 0x4000000000000000#64, 0x4008000000000000#64, 0x4010000000000000#64⟩
      0x4020000000000000#64 0x4014000000000000#64 =
      ⟨0x4020000000000000#64, 0x3FF0000000000000#64, 0x4014000000000000#64, 0x4008000000000000#64⟩

namespace Sys2Proof.Claims

/-- Every register of one channel is a zero. -/
def ZeroHists (h : PerBand Hist) : Prop :=
  ∀ b, isZero64 (bandGet h b).x1 ∧ isZero64 (bandGet h b).x2 ∧ isZero64 (bandGet h b).y1 ∧ isZero64 (bandGet h b).y2

/-- Every coefficient is finite. -/
def FiniteCoefs (k : PerBand Coef) : Prop :=
  ∀ b, isFinite64 (bandGet k b).b0 ∧ isFinite64 (bandGet k b).b1 ∧ isFinite64 (bandGet k b).b2 ∧
    isFinite64 (bandGet k b).a1 ∧ isFinite64 (bandGet k b).a2

end Sys2Proof.Claims

/-- R158: zero history, zero input and finite coefficients give a zero output and leave a zero history; so a buffer of
zeros gives a buffer of zeros, mono or stereo. -/
def Obligations.SilenceInGivesSilenceOut : Prop :=
  ∀ (k : PerBand Coef) (h : PerBand Hist), FiniteCoefs k → ZeroHists h →
    (∀ (d : Nat → NanDraw) (x : F64), isZero64 x →
      isZero64 (applySample d k h x).1 ∧ ZeroHists (applySample d k h x).2) ∧
    (∀ (d : Nat) (ws : Buffer), (∀ w ∈ ws, isZero32 w) →
      (∀ w ∈ (monoSeq k d h ws).1, isZero32 w) ∧ ZeroHists (monoSeq k d h ws).2) ∧
    (∀ (g : PerBand Hist) (d : Nat) (l r : Buffer), ZeroHists g → (∀ w ∈ l ++ r, isZero32 w) →
      (∀ w ∈ (stereoSeq k d h g l r).outL ++ (stereoSeq k d h g l r).outR, isZero32 w) ∧
      ZeroHists (stereoSeq k d h g l r).histL ∧ ZeroHists (stereoSeq k d h g l r).histR)

/-- R157, R234: a NaN input or history value makes a stage's output a NaN; a NaN input, or a NaN in the bass history, makes
the sample's output a NaN and puts one in every stage's y1; from then on every output of the channel is a NaN. -/
def Obligations.NanPoisonsItsChannel : Prop :=
  ∀ (k : PerBand Coef) (h : PerBand Hist),
    (∀ (d : Nat → NanDraw) (b : Band) (x : F64),
      (isNan64 x ∨ isNan64 (bandGet h b).x1 ∨ isNan64 (bandGet h b).x2 ∨ isNan64 (bandGet h b).y1 ∨
        isNan64 (bandGet h b).y2) → isNan64 (stageOutput d (bandGet k b) (bandGet h b) x)) ∧
    (∀ (d : Nat → NanDraw) (x : F64),
      (isNan64 x ∨ isNan64 h.bass.x1 ∨ isNan64 h.bass.x2 ∨ isNan64 h.bass.y1 ∨ isNan64 h.bass.y2) →
      isNan64 (applySample d k h x).1 ∧ ∀ b, isNan64 (bandGet (applySample d k h x).2 b).y1) ∧
    (isNan64 h.bass.y1 → ∀ (d : Nat) (ws : Buffer),
      (∀ w ∈ (monoSeq k d h ws).1, isNan32 w) ∧ isNan64 (monoSeq k d h ws).2.bass.y1)

/-! ### The coefficient compiler -/

/-- R137, V-C1, V-C2, V-C4: Compile(0, 80, 44100), and off neutral too a row of the mid and of the treble band, under the
spec's default constants and the model's computation of the correctly rounded functions (log 17). -/
def Obligations.CompileWorkedExample : Prop :=
  compileWith defaultParams .bass 80 44100#32 =
    ⟨0x3FF01142EBB5F5F6#64, 0xBFFFBC90DA739293#64, 0x3FEF591AF7CE2DE4#64, 0xBFFFBCEAE26884C3#64,
      0x3FEF7AECBF503572#64⟩ ∧
  compileWith defaultParams .mid 100 44100#32 =
    ⟨0x3FF249037BD69B80#64, 0xBFFE287C5BB1C3D5#64, 0x3FE85D007DC14603#64, 0xBFFE287C5BB1C3D5#64,
      0x3FECEF07756E7D03#64⟩ ∧
  compileWith defaultParams .treble 0 44100#32 =
    ⟨0x3FDAF8D0967D8D12#64, 0xBFA925A17AFA913B#64, 0x3FB2C50ED04959E7#64, 0xBFEB8345D498560F#64,
      0x3FD38BEBC4613D80#64⟩ ∧
  pow10Nearest 0x3FC70A3D70A3D70A#64 = 0x3FF8378BFFE86C52#64 ∧
  cosNearest 0x3F8D2DD69613F104#64 = 0x3FEFFF2B26372F96#64 ∧
  sinNearest 0x3F8D2DD69613F104#64 = 0x3F8D2D95E3E0B93E#64

/-- R123 and V-C1 at the spec's default gain range (the g column holds for every instance of the elementary functions):
level 0 is −12.0 dB, 50 is +0.0, 80 is 7.2 rounded, 100 is 12.0. -/
def Obligations.LevelsMapToTheirGains : Prop :=
  ∀ (f : Elementary) (nan : Band → Int → Word → Nat → NanDraw) (d : Nat → NanDraw),
    gainDb (Config.defaults f nan) d 0 = 0xC028000000000000#64 ∧
    gainDb (Config.defaults f nan) d 50 = 0x0000000000000000#64 ∧
    gainDb (Config.defaults f nan) d 80 = 0x401CCCCCCCCCCCCD#64 ∧
    gainDb (Config.defaults f nan) d 100 = 0x4028000000000000#64

/-- R133, for every lawful choice of the elementary functions, at the spec's default constants, and at every positive rate (the
rule's domain and the rates below it): at level 50 `b0` is exactly 1.0, `b2` and `a2` are the same bits, and so are `b1`
and `a1` but for the rule's exception, two zeros of a shelf. -/
def Obligations.NeutralCoefficientsHaveTheirForm : Prop :=
  ∀ (f : Elementary) (nan : Band → Int → Word → Nat → NanDraw) (b : Band) (fs : Word),
    f.Lawful → 0 < fs.toInt →
    (compileWith (Config.defaults f nan) b 50 fs).b0 = 0x3FF0000000000000#64 ∧
    (compileWith (Config.defaults f nan) b 50 fs).b2 = (compileWith (Config.defaults f nan) b 50 fs).a2 ∧
    ((compileWith (Config.defaults f nan) b 50 fs).b1 = (compileWith (Config.defaults f nan) b 50 fs).a1 ∨
      (b ≠ .mid ∧ isZero64 (compileWith (Config.defaults f nan) b 50 fs).b1 ∧
        isZero64 (compileWith (Config.defaults f nan) b 50 fs).a1))

namespace Sys2Proof.Claims

/-- Greater than zero, finite, and at least 2^−1000. -/
def NotTiny (a : F64) : Prop := 0x0170000000000000 ≤ a.toNat ∧ a.toNat < 0x7FF0000000000000

end Sys2Proof.Claims

/-- R133 and R238, for every band constants with which Compile does not overflow at level 50 (a gain range that is +0.0 or
a positive finite number, a slope and a Q that are finite and at least 2^−1000), every lawful choice of the elementary
functions, and every rate in the rule's domain, which R131 says as 0 < w0 < pi: the form of the neutral coefficients. -/
def Obligations.NeutralLawHoldsForEveryBandConstants : Prop :=
  ∀ (P : Params) (b : Band) (fs : Word), P.elementary.Lawful → P.gainRangeDb.toNat < 0x7FF0000000000000 →
    NotTiny P.sShelf → NotTiny P.qMid →
    0 < (angularFrequency P (P.nan b 50 fs) b fs).toNat →
    (angularFrequency P (P.nan b 50 fs) b fs).toNat < Config.pi64.toNat →
    (compileWith P b 50 fs).b0 = 0x3FF0000000000000#64 ∧ (compileWith P b 50 fs).b2 = (compileWith P b 50 fs).a2 ∧
    ((compileWith P b 50 fs).b1 = (compileWith P b 50 fs).a1 ∨
      (b ≠ .mid ∧ isZero64 (compileWith P b 50 fs).b1 ∧ isZero64 (compileWith P b 50 fs).a1))

/-- R126's consequence, under any parameters at all: the peaking section's b1 and a1 are the same bits, or both NaNs. -/
def Obligations.PeakingB1EqualsA1 : Prop :=
  ∀ (P : Params) (level : Int) (fs : Word),
    Same64 (compileWith P .mid level fs).b1 (compileWith P .mid level fs).a1

/-! ### The buffer processor -/

/-- R173 part 1, R201, R202, R204: the validation failures of a buffer command, in their order, each answered with the
status word alone and nothing else changed, whatever `EN` is and however long the buffers are. -/
def Obligations.InvalidBufferCommandsAnswerInOrder : Prop :=
  ∀ (fs : Word) (s : State), s.job = none →
    exec (.procM fs none) s = .next { s with pIn := s.pIn.tail, pOut := s.pOut ++ [[0x40000012#32]] } ∧
    (∀ buf, fs.toInt ≤ 0 →
      exec (.procM fs (some buf)) s = .next { s with pIn := s.pIn.tail, pOut := s.pOut ++ [[0x40000022#32]] }) ∧
    (∀ left right, left = none ∨ right = none →
      exec (.procS fs left right) s = .next { s with pIn := s.pIn.tail, pOut := s.pOut ++ [[0x41000012#32]] }) ∧
    (∀ l r, fs.toInt ≤ 0 →
      exec (.procS fs (some l) (some r)) s
        = .next { s with pIn := s.pIn.tail, pOut := s.pOut ++ [[0x41000022#32]] }) ∧
    (∀ l r, 0 < fs.toInt → l.length ≠ r.length →
      exec (.procS fs (some l) (some r)) s
        = .next { s with pIn := s.pIn.tail, pOut := s.pOut ++ [[0x41000032#32]] })

/-- R182: a valid command of zero length is answered with zero-length output and changes nothing else, in either enable
state and at any rate. -/
def Obligations.ZeroLengthHasNoSideEffects : Prop :=
  ∀ (fs : Word) (s : State), s.job = none → 0 < fs.toInt →
    exec (.procM fs (some [])) s
      = .next { s with pIn := s.pIn.tail, pOut := s.pOut ++ [[0x40000000#32, 0#32]] } ∧
    exec (.procS fs (some []) (some [])) s
      = .next { s with pIn := s.pIn.tail, pOut := s.pOut ++ [[0x41000000#32, 0#32, 0#32]] }

/-- R175: disabled, each output word is the input word, all 32 bits, for every bit pattern, and no register changes. -/
def Obligations.DisabledIsExactPassThrough : Prop :=
  ∀ (fs : Word) (s : State), s.job = none → 0 < fs.toInt → s.en = false →
    (∀ buf, exec (.procM fs (some buf)) s = .next { s with
      pIn := s.pIn.tail, pOut := s.pOut ++ [0x40000000#32 :: BitVec.ofNat 32 buf.length :: buf] }) ∧
    (∀ l r, l.length = r.length → exec (.procS fs (some l) (some r)) s = .next { s with
      pIn := s.pIn.tail
      pOut := s.pOut ++ [0x41000000#32 :: BitVec.ofNat 32 l.length :: BitVec.ofNat 32 r.length :: (l ++ r)] })

/-- R173 part 4, R174: enabled, valid and not empty, a buffer command becomes the job in flight, at sample 0 of the left
channel; where its rate is not `FS`, `FS` takes it and all three bands are recompiled for it at their present levels. -/
def Obligations.EnabledCommandStartsItsJob : Prop :=
  ∀ (fs : Word) (s : State), s.job = none → 0 < fs.toInt → s.en = true →
    (∀ buf, buf ≠ [] → ∃ t, exec (.procM fs (some buf)) s = .next t ∧
      t = { s with
        pIn := s.pIn.tail
        job := some ⟨.mono, buf.length, ⟨buf, []⟩, ⟨[], []⟩, 0, .left⟩
        fs := fs
        coef := if fs = s.fs then s.coef else
          ⟨compile .bass s.lvl.bass.toNat fs, compile .mid s.lvl.mid.toNat fs, compile .treble s.lvl.treble.toNat fs⟩ }) ∧
    (∀ l r, l ≠ [] → l.length = r.length → ∃ t, exec (.procS fs (some l) (some r)) s = .next t ∧
      t = { s with
        pIn := s.pIn.tail
        job := some ⟨.stereo, l.length, ⟨l, r⟩, ⟨[], []⟩, 0, .left⟩
        fs := fs
        coef := if fs = s.fs then s.coef else
          ⟨compile .bass s.lvl.bass.toNat fs, compile .mid s.lvl.mid.toNat fs, compile .treble s.lvl.treble.toNat fs⟩ })

/-- R55, R56 as the model reads them for `exec` alone (log 10): while a buffer is in flight a buffer command waits, with
none of its effect. -/
def Obligations.BufferCommandWaitsForTheJob : Prop :=
  ∀ (s : State) (j : Job), s.job = some j →
    (∀ fs buf, exec (.procM fs buf) s = .next s) ∧ (∀ fs left right, exec (.procS fs left right) s = .next s)

namespace Sys2Proof.Claims

/-- What one P-sample step computes from the word `w`, the coefficients and one channel's histories, with the open NaN
bits from number `d` on: `d2f(ApplySample(c, f2d(w)))` and the histories after it (R176). -/
def sampleResult (d : Nat) (k : PerBand Coef) (h : PerBand Hist) (w : Word) : Word × PerBand Hist :=
  let r := applySample (fun i => Config.freeNan (d + 1 + i)) k h (f2d (Config.freeNan d) w)
  (d2f (Config.freeNan32 (d + 28)) r.1, r.2)

/-- The histories with the left channel's replaced. -/
def setLeft (s : State) (h : PerBand Hist) : PerBand (PerChannel Hist) :=
  ⟨⟨h.bass, s.hist.bass.right⟩, ⟨h.mid, s.hist.mid.right⟩, ⟨h.treble, s.hist.treble.right⟩⟩

/-- The histories with the right channel's replaced. -/
def setRight (s : State) (h : PerBand Hist) : PerBand (PerChannel Hist) :=
  ⟨⟨s.hist.bass.left, h.bass⟩, ⟨s.hist.mid.left, h.mid⟩, ⟨s.hist.treble.left, h.treble⟩⟩

/-- The left channel's histories. -/
def leftHist (s : State) : PerBand Hist := ⟨s.hist.bass.left, s.hist.mid.left, s.hist.treble.left⟩

/-- The right channel's histories. -/
def rightHist (s : State) : PerBand Hist := ⟨s.hist.bass.right, s.hist.mid.right, s.hist.treble.right⟩

end Sys2Proof.Claims

/-- R176, with the invariant of R30: one P-sample step reads the word at the position, filters it on its channel, writes
the output word at the same index (the next one of a valid job), advances the position, and changes nothing else but the
place where the next open bits are drawn. The model's own choices: that counter and the numbers drawn from it (log 4), and
an output that grows word by word (log 12). -/
def Obligations.SampleStepFiltersOneWord : Prop :=
  ∀ (s s1 : State) (j : Job), s.resetInput = false → s.pick = some (.processing, s1) → s1.job = some j →
    j.Valid → j.idx < j.n →
    (j.kind = .mono → ∃ w, j.input.left[j.idx]? = some w ∧
      step s = .next { s1 with
        hist := setLeft s1 (sampleResult s1.draws s1.coef (leftHist s1) w).2
        draws := s1.draws + 29
        job := some { j with
          output := { j.output with
            left := j.output.left ++ [(sampleResult s1.draws s1.coef (leftHist s1) w).1] }
          idx := j.idx + 1 } }) ∧
    (j.kind = .stereo → j.ch = .left → ∃ w, j.input.left[j.idx]? = some w ∧
      step s = .next { s1 with
        hist := setLeft s1 (sampleResult s1.draws s1.coef (leftHist s1) w).2
        draws := s1.draws + 29
        job := some { j with
          output := { j.output with
            left := j.output.left ++ [(sampleResult s1.draws s1.coef (leftHist s1) w).1] }
          ch := .right } }) ∧
    (j.kind = .stereo → j.ch = .right → ∃ w, j.input.right[j.idx]? = some w ∧
      step s = .next { s1 with
        hist := setRight s1 (sampleResult s1.draws s1.coef (rightHist s1) w).2
        draws := s1.draws + 29
        job := some { j with
          output := { j.output with
            right := j.output.right ++ [(sampleResult s1.draws s1.coef (rightHist s1) w).1] }
          idx := j.idx + 1
          ch := .left } })

/-- R177, R180: the P-end step of a valid job answers with output sequences as long as the input sequences and frees the
P-port; nothing else changes. -/
def Obligations.EndStepDeliversWholeOutputs : Prop :=
  ∀ (s s1 : State) (j : Job), s.resetInput = false → s.pick = some (.processing, s1) → s1.job = some j →
    j.Valid → j.idx = j.n →
    j.output.left.length = j.input.left.length ∧ j.output.right.length = j.input.right.length ∧
    (j.kind = .mono → step s = .next { s1 with
      job := none
      pOut := s1.pOut ++ [0x40000000#32 :: BitVec.ofNat 32 j.n :: j.output.left] }) ∧
    (j.kind = .stereo → step s = .next { s1 with
      job := none
      pOut := s1.pOut ++
        [0x41000000#32 :: BitVec.ofNat 32 j.n :: BitVec.ofNat 32 j.n :: (j.output.left ++ j.output.right)] })

/-- R170, R183: with no control step during it, an enabled mono command of n samples takes n + 2 steps, and its effect is
the fold of ApplySample over its words on channel 0 from the state after SyncRate; the right channel's histories stay. The
clause on the counter of the open NaN bits, and so which bits a NaN gets, is the model's own choice (log 4). -/
def Obligations.MonoCommandIsTheFoldOfItsWords : Prop :=
  ∀ (s : State) (fs : Word) (buf : Buffer) (rest : List Packet), Quiet s → s.en = true → 0 < fs.toInt →
    buf ≠ [] → buf.length ≤ 2 ^ 32 - 1 → s.pIn = encode (.procM fs (some buf)) :: rest →
    s.run (buf.length + 2) = .next { syncRate fs s with
      pIn := rest
      hist := setLeft s (monoSeq (syncRate fs s).coef s.draws (leftHist s) buf).2
      pOut := s.pOut ++ [0x40000000#32 :: BitVec.ofNat 32 buf.length ::
        (monoSeq (syncRate fs s).coef s.draws (leftHist s) buf).1]
      draws := s.draws + 29 * buf.length }

/-- R171, R183: the same of a stereo command of n samples per channel, in 2·n + 2 steps, the left word of each index on
channel 0 and then the right word on channel 1. The clause on the counter of the open NaN bits, and so which bits a NaN
gets, is the model's own choice (log 4). -/
def Obligations.StereoCommandIsTheFoldOfItsWords : Prop :=
  ∀ (s : State) (fs : Word) (l r : Buffer) (rest : List Packet), Quiet s → s.en = true → 0 < fs.toInt →
    l ≠ [] → l.length = r.length → l.length ≤ 2 ^ 32 - 1 → s.pIn = encode (.procS fs (some l) (some r)) :: rest →
    ∃ q, q = stereoSeq (syncRate fs s).coef s.draws (leftHist s) (rightHist s) l r ∧
    s.run (2 * l.length + 2) = .next { syncRate fs s with
      pIn := rest
      hist := ⟨⟨q.histL.bass, q.histR.bass⟩, ⟨q.histL.mid, q.histR.mid⟩, ⟨q.histL.treble, q.histR.treble⟩⟩
      pOut := s.pOut ++ [0x41000000#32 :: BitVec.ofNat 32 l.length :: BitVec.ofNat 32 r.length :: (q.outL ++ q.outR)]
      draws := s.draws + 58 * l.length }

/-- R184: a sequence as one mono command, or as two consecutive ones at the same rate, gives the same output words and
the same final registers, up to the bits of NaNs, which are drawn anew in each of the two runs (log 4). -/
def Obligations.SplittingAMonoBufferChangesNothing : Prop :=
  ∀ (s : State) (d : Nat) (fs : Word) (a b : Buffer), Quiet s → s.en = true → 0 < fs.toInt →
    (a ++ b).length ≤ 2 ^ 32 - 1 →
    ∃ k1 t1 k2 t2 whole first second,
      ({ s with pIn := [encode (.procM fs (some (a ++ b)))] }).run k1 = .next t1 ∧ t1.Idle ∧
      ({ s with pIn := [encode (.procM fs (some a)), encode (.procM fs (some b))], draws := d }).run k2 = .next t2 ∧
      t2.Idle ∧
      t1.pOut = s.pOut ++ [0x40000000#32 :: BitVec.ofNat 32 (a ++ b).length :: whole] ∧
      t2.pOut = s.pOut ++
        [0x40000000#32 :: BitVec.ofNat 32 a.length :: first, 0x40000000#32 :: BitVec.ofNat 32 b.length :: second] ∧
      first.length = a.length ∧ second.length = b.length ∧
      SameWords whole (first ++ second) ∧ SameRegisters t1 t2

/-- R184: the same of stereo commands. -/
def Obligations.SplittingAStereoBufferChangesNothing : Prop :=
  ∀ (s : State) (d : Nat) (fs : Word) (a b a' b' : Buffer), Quiet s → s.en = true → 0 < fs.toInt →
    a.length = a'.length → b.length = b'.length → (a ++ b).length ≤ 2 ^ 32 - 1 →
    ∃ k1 t1 k2 t2 wholeL wholeR firstL firstR secondL secondR,
      ({ s with pIn := [encode (.procS fs (some (a ++ b)) (some (a' ++ b')))] }).run k1 = .next t1 ∧ t1.Idle ∧
      ({ s with
          pIn := [encode (.procS fs (some a) (some a')), encode (.procS fs (some b) (some b'))]
          draws := d }).run k2 = .next t2 ∧ t2.Idle ∧
      t1.pOut = s.pOut ++ [0x41000000#32 :: BitVec.ofNat 32 (a ++ b).length :: BitVec.ofNat 32 (a ++ b).length ::
        (wholeL ++ wholeR)] ∧
      t2.pOut = s.pOut ++
        [0x41000000#32 :: BitVec.ofNat 32 a.length :: BitVec.ofNat 32 a.length :: (firstL ++ firstR),
         0x41000000#32 :: BitVec.ofNat 32 b.length :: BitVec.ofNat 32 b.length :: (secondL ++ secondR)] ∧
      firstL.length = a.length ∧ firstR.length = a.length ∧ secondL.length = b.length ∧ secondR.length = b.length ∧
      SameWords wholeL (firstL ++ secondL) ∧ SameWords wholeR (firstR ++ secondR) ∧ SameRegisters t1 t2

/-- R185, up to the bits of NaNs (log 4): of two uninterrupted stereo commands of the same length from two states with the
same levels, rate and coefficients, the left outputs and left histories are the same where the left buffers and left
histories are, whatever the right ones, and the right ones likewise; and the left output is that of a mono command on the
left buffer from the same state. -/
def Obligations.StereoChannelsAreIndependent : Prop :=
  ∀ (s s' : State) (d : Nat) (fs : Word) (l r l' r' : Buffer), Quiet s → Quiet s' → s.en = true → s'.en = true →
    0 < fs.toInt → l ≠ [] → l.length = r.length → l'.length = l.length → r'.length = l.length →
    l.length ≤ 2 ^ 32 - 1 → s'.lvl = s.lvl → s'.fs = s.fs → s'.coef = s.coef →
    ∃ t m t' outL outR outM outL' outR',
      ({ s with pIn := [encode (.procS fs (some l) (some r))] }).run (2 * l.length + 2) = .next t ∧
      ({ s with pIn := [encode (.procM fs (some l))], draws := d }).run (l.length + 2) = .next m ∧
      ({ s' with pIn := [encode (.procS fs (some l') (some r'))] }).run (2 * l.length + 2) = .next t' ∧
      t.pOut = s.pOut ++ [0x41000000#32 :: BitVec.ofNat 32 l.length :: BitVec.ofNat 32 l.length :: (outL ++ outR)] ∧
      m.pOut = s.pOut ++ [0x40000000#32 :: BitVec.ofNat 32 l.length :: outM] ∧
      t'.pOut = s'.pOut ++ [0x41000000#32 :: BitVec.ofNat 32 l.length :: BitVec.ofNat 32 l.length :: (outL' ++ outR')] ∧
      outL.length = l.length ∧ outL'.length = l.length ∧
      (l' = l → leftHist s' = leftHist s → SameWords outL outL' ∧ SameHists (leftHist t) (leftHist t')) ∧
      (r' = r → rightHist s' = rightHist s → SameWords outR outR' ∧ SameHists (rightHist t) (rightHist t')) ∧
      SameWords outL outM ∧ SameHists (leftHist t) (leftHist m)

/-! ### Invariants and whole-machine rules -/

/-- R35, R36 and the model's own reset values: the reset state satisfies the invariants. -/
def Obligations.ResetStateIsValid : Prop := State.reset.Valid

/-- R28, R29, R23, R30: every step keeps levels in [0, 100], coefficients those compiled for level and rate, a positive
rate, and a valid job; from every state that has them, not only from reset. -/
def Obligations.EveryStepKeepsTheInvariants : Prop :=
  ∀ s t : State, s.Valid → step s = .next t → t.Valid

/-- R21, R194: `EN` changes only by SETEN or hardware reset, in the step that serves that SETEN. -/
def Obligations.OnlySetEnChangesEnable : Prop :=
  ∀ s t : State, s.resetInput = false → step s = .next t → t.en ≠ s.en →
    ∃ pkt rest, s.cIn = pkt :: rest ∧ decode .control pkt = .cmd (.setEn t.en) ∧ t.cIn = rest

/-- R22: a level changes only by its own band's setter or hardware reset, in the step that serves that setter. -/
def Obligations.OnlyItsSetterChangesALevel : Prop :=
  ∀ (s t : State) (b : Band), s.resetInput = false → step s = .next t → bandGet t.lvl b ≠ bandGet s.lvl b →
    ∃ pkt rest v, s.cIn = pkt :: rest ∧ decode .control pkt = .cmd (Instr.setLvl b v) ∧ t.cIn = rest

namespace Sys2Proof.Claims

/-- The step from `s` to `t` is the P-begin of an enabled, valid, non-empty buffer command at the rate that `t` holds: it
takes the command from the P-port and sets the job. -/
def BeginsBuffer (s t : State) : Prop :=
  s.job = none ∧ s.en = true ∧ 0 < t.fs.toInt ∧ t.job ≠ none ∧
    ∃ pkt rest, s.pIn = pkt :: rest ∧ t.pIn = rest ∧
      ((∃ buf, buf ≠ [] ∧ decode .processing pkt = .cmd (.procM t.fs (some buf))) ∨
       (∃ l r, l ≠ [] ∧ l.length = r.length ∧ decode .processing pkt = .cmd (.procS t.fs (some l) (some r))))

end Sys2Proof.Claims

/-- R24, R136: a coefficient set changes only in the step that serves its own band's setter, in the P-begin step of an
enabled, valid, non-empty buffer command whose rate differs from `FS`, or by hardware reset. -/
def Obligations.OnlyCompilationChangesCoefficients : Prop :=
  ∀ (s t : State) (b : Band), s.resetInput = false → step s = .next t → bandGet t.coef b ≠ bandGet s.coef b →
    (∃ pkt rest v, s.cIn = pkt :: rest ∧ decode .control pkt = .cmd (Instr.setLvl b v) ∧ t.cIn = rest) ∨
    (t.fs ≠ s.fs ∧ BeginsBuffer s t)

/-- R23, R174: `FS` changes only in the P-begin step of an enabled, valid, non-empty buffer command, which leaves its own
rate there, or by hardware reset. -/
def Obligations.OnlyBufferCommandsChangeTheRate : Prop :=
  ∀ s t : State, s.resetInput = false → step s = .next t → t.fs ≠ s.fs → BeginsBuffer s t

/-- R25, R26, R152, R154: the histories change only in the step that serves RSTF, which leaves them all at +0.0, in a
P-sample step, which leaves the other channel's alone and serves no command, or by hardware reset. -/
def Obligations.OnlySamplesAndRstfChangeTheHistory : Prop :=
  ∀ s t : State, s.resetInput = false → step s = .next t → t.hist ≠ s.hist →
    (∃ pkt rest, s.cIn = pkt :: rest ∧ decode .control pkt = .cmd .rstf ∧ t.cIn = rest ∧
      ∀ b c, chanGet (bandGet t.hist b) c = ⟨0#64, 0#64, 0#64, 0#64⟩) ∨
    (t.cIn = s.cIn ∧ ∃ j, s.job = some j ∧ j.idx < j.n ∧ ∀ c, c ≠ j.ch → t.channelHist c = s.channelHist c)

/-- R59, R30: a control command leaves the job, the P-port and its responses as they are; only the processing agent's steps
touch them. -/
def Obligations.ControlCommandsLeaveTheJob : Prop :=
  ∀ (i : Instr) (s t : State), i.port = .control → exec i s = .next t →
    t.job = s.job ∧ t.pIn = s.pIn ∧ t.pOut = s.pOut ∧ t.fs = s.fs ∧ t.cIn = s.cIn.tail ∧
    ∃ resp, t.cOut = s.cOut ++ [resp]

/-- R70, R55: without hardware reset every step keeps each port's balance of commands and responses, so each command taken
is answered exactly once, on its own port, in order; and no response is ever taken back. -/
def Obligations.OneResponseForEachCommand : Prop :=
  ∀ s t : State, s.resetInput = false → step s = .next t →
    t.cIn.length + t.cOut.length = s.cIn.length + s.cOut.length ∧
    t.pIn.length + t.pOut.length + (if t.job = none then 0 else 1)
      = s.pIn.length + s.pOut.length + (if s.job = none then 0 else 1) ∧
    (∃ new, t.cOut = s.cOut ++ new) ∧ (∃ new, t.pOut = s.pOut ++ new)

/-- R65: with no new command and no reset, whatever the schedule, the block answers everything that waits within a number
of steps that grows with the commands' words alone, and is then idle. -/
def Obligations.EveryCommandIsAnsweredInBoundedSteps : Prop :=
  ∀ s : State, s.Valid → s.resetInput = false →
    ∃ k t, k ≤ s.work ∧ s.run k = .next t ∧ t.Idle ∧
      t.cOut.length = s.cOut.length + s.cIn.length ∧
      t.pOut.length = s.pOut.length + s.pIn.length + (if s.job = none then 0 else 1)

/-- R11, R67, U9: the sign and payload of a NaN are never read: two states that differ only in them, and in where the next
ones are drawn, step to two states that again differ only in them. -/
def Obligations.NanBitsAreNeverRead : Prop :=
  ∀ s t s' t' : State, s.SameButNans t → step s = .next s' → step t = .next t' → s'.SameButNans t'

/-! ### Arithmetic -/

/-- R10, R11: the sum, difference, product and quotient of finite numbers are the exact results rounded to nearest, ties
to even, with gradual underflow and overflow to infinity. -/
def Obligations.ArithmeticRoundsToNearestEven : Prop :=
  ∀ (d : NanDraw) (a b : F64) (m n : Int), units64 a = some m → units64 b = some n →
    RoundsTo64 (m + n) 1 (fadd d a b) ∧ RoundsTo64 (m - n) 1 (fsub d a b) ∧
    RoundsTo64 (m * n) (2 ^ 1074) (fmul d a b) ∧
    (n ≠ 0 → RoundsTo64 (m * 2 ^ 1074 * n.sign) n.natAbs (fdiv d a b))

/-- R10, R11: no finite number is nearer to the square root of a positive finite number than `fsqrt` is: the root lies
between the midpoints on either side. -/
def Obligations.SquareRootRoundsToNearest : Prop :=
  ∀ (d : NanDraw) (a : F64) (m : Int), units64 a = some m → 0 < m →
    ∃ u, units64 (fsqrt d a) = some u ∧ 0 < u ∧
      ∀ y v, units64 y = some v → 0 ≤ v →
        (v < u → (v + u) ^ 2 ≤ 4 * (m * 2 ^ 1074)) ∧ (u < v → 4 * (m * 2 ^ 1074) ≤ (u + v) ^ 2)

/-- R11: the IEEE results that are not numbers: invalid operations and NaN operands give a quiet NaN. -/
def Obligations.InvalidOperationsGiveQuietNans : Prop :=
  ∀ (d : NanDraw) (a : F64) (s t : Bool),
    fadd d (inf64 s) (inf64 (!s)) = quietNan64 d ∧ fsub d (inf64 s) (inf64 s) = quietNan64 d ∧
    fmul d (signed64 s 0) (inf64 t) = quietNan64 d ∧ fmul d (inf64 t) (signed64 s 0) = quietNan64 d ∧
    fdiv d (signed64 s 0) (signed64 t 0) = quietNan64 d ∧ fdiv d (inf64 s) (inf64 t) = quietNan64 d ∧
    (∀ m, units64 a = some m → m < 0 → fsqrt d a = quietNan64 d) ∧ fsqrt d (inf64 true) = quietNan64 d ∧
    (isNan64 a → ∀ b, fadd d a b = quietNan64 d ∧ fadd d b a = quietNan64 d ∧ fsub d a b = quietNan64 d ∧
      fsub d b a = quietNan64 d ∧ fmul d a b = quietNan64 d ∧ fmul d b a = quietNan64 d ∧
      fdiv d a b = quietNan64 d ∧ fdiv d b a = quietNan64 d ∧ fsqrt d a = quietNan64 d) ∧
    isNan64 (quietNan64 d) ∧ (quietNan64 d).getLsbD 51 = true

/-- R11, R157: the IEEE results that are numbers and that the rounding of finite ones does not settle: infinities as
operands, division by zero, the roots of infinity and of the zeros, and the sign of a zero, x − x = +0.0 among them. -/
def Obligations.SpecialValuesFollowTheStandard : Prop :=
  inf64 false = 0x7FF0000000000000#64 ∧ inf64 true = 0xFFF0000000000000#64 ∧
  ∀ (d : NanDraw) (s t : Bool) (a : F64) (m : Int), units64 a = some m →
    (fadd d (inf64 s) (inf64 s) = inf64 s ∧ fsub d (inf64 s) (inf64 (!s)) = inf64 s ∧
      fmul d (inf64 s) (inf64 t) = inf64 (s != t)) ∧
    (fadd d (inf64 s) a = inf64 s ∧ fadd d a (inf64 s) = inf64 s ∧
      fsub d (inf64 s) a = inf64 s ∧ fsub d a (inf64 s) = inf64 (!s)) ∧
    (fdiv d (inf64 s) a = inf64 (s != a.msb) ∧
      isZero64 (fdiv d a (inf64 s)) ∧ (fdiv d a (inf64 s)).msb = (a.msb != s)) ∧
    (m ≠ 0 → fmul d a (inf64 s) = inf64 (a.msb != s) ∧ fmul d (inf64 s) a = inf64 (s != a.msb) ∧
      fdiv d a 0x0000000000000000#64 = inf64 a.msb ∧ fdiv d a 0x8000000000000000#64 = inf64 (!a.msb)) ∧
    (fsqrt d (inf64 false) = inf64 false ∧ fsqrt d 0x0000000000000000#64 = 0x0000000000000000#64 ∧
      fsqrt d 0x8000000000000000#64 = 0x8000000000000000#64) ∧
    (∀ (b : F64) (n : Int), units64 b = some n →
      (m + n = 0 → fadd d a b = if a.msb && b.msb then 0x8000000000000000#64 else 0x0000000000000000#64) ∧
      (m - n = 0 → fsub d a b = if a.msb && !b.msb then 0x8000000000000000#64 else 0x0000000000000000#64) ∧
      (fmul d a b).msb = (a.msb != b.msb) ∧ (n ≠ 0 → (fdiv d a b).msb = (a.msb != b.msb)))

/-- R13: widening is exact, infinities and the signs of zeros kept; narrowing rounds to nearest, ties to even, with
subnormals and infinities; NaNs give quiet NaNs either way. -/
def Obligations.ConversionsBetweenTheFormats : Prop :=
  (∀ (d : NanDraw) (w : Word) (m : Int), units32 w = some m →
    units64 (f2d d w) = some (m * 2 ^ 925) ∧ (f2d d w).msb = w.msb) ∧
  (∀ (d : NanDraw) (s : Bool), f2d d (signed32 s 0x7F800000) = inf64 s) ∧
  (∀ (d : NanDraw) (w : Word), isNan32 w →
    f2d d w = quietNan64 d ∧ isNan64 (f2d d w) ∧ (f2d d w).getLsbD 51 = true) ∧
  (∀ (e : NanDraw32) (v : F64) (m : Int), units64 v = some m →
    RoundsTo32 m (2 ^ 925) (d2f e v) ∧ (d2f e v).msb = v.msb) ∧
  (∀ (e : NanDraw32) (s : Bool), d2f e (inf64 s) = signed32 s 0x7F800000) ∧
  (∀ (e : NanDraw32) (v : F64), isNan64 v →
    d2f e v = quietNan32 e ∧ isNan32 (d2f e v) ∧ (d2f e v).getLsbD 22 = true)

/-- R13, R178: a sample word that is no NaN comes back from the widening and the narrowing unchanged. -/
def Obligations.NarrowingUndoesWidening : Prop :=
  ∀ (d : NanDraw) (e : NanDraw32) (w : Word), ¬ isNan32 w → d2f e (f2d d w) = w

/-- R11: `i2d` is exact below 2^53. -/
def Obligations.IntegersConvertExactly : Prop :=
  ∀ n : Int, n.natAbs < 2 ^ 53 → units64 (i2d n) = some (n * 2 ^ 1074)
end

