-- ==== Sys2Proof/Laws/Decode.lean ====
section
/-! SUPPORT. The header's fields and the opcode map, each read back from where it was put. -/

namespace Sys2Proof

/-- Bit by bit, where the header puts its fields (R71). -/
theorem header_getLsbD (o : BitVec 8) (b : BitVec 2) (f1 f0 : Bool) (i : Nat) :
    (header o b f1 f0).getLsbD i =
      if i = 0 then f0 else if i = 1 then f1 else if i < 16 then false
      else if i < 18 then b.getLsbD (i - 16) else if i < 24 then false else o.getLsbD (i - 24) := by
  simp only [header, BitVec.getLsbD_append, BitVec.getLsbD_ofBool, BitVec.getLsbD_zero]
  by_cases c0 : i = 0
  · simp [c0]
  by_cases c1 : i = 1
  · simp [c1]
  have d0 : ¬ i < 1 := by omega
  have d1 : ¬ i - 1 < 1 := by omega
  by_cases c2 : i < 16
  · have d2 : i - 1 - 1 < 14 := by omega
    simp only [c0, c1, c2, d0, d1, d2, if_true, if_false]
  have d2 : ¬ i - 1 - 1 < 14 := by omega
  by_cases c3 : i < 18
  · have e3 : i - 1 - 1 - 14 = i - 16 := by omega
    simp only [c0, c1, c2, c3, d0, d1, d2, e3, if_true, if_false]
    simp only [show i - 16 < 2 by omega, if_true]
  have d3 : ¬ i - 1 - 1 - 14 < 2 := by omega
  by_cases c4 : i < 24
  · have d4 : i - 1 - 1 - 14 - 2 < 6 := by omega
    simp only [c0, c1, c2, c3, c4, d0, d1, d2, d3, d4, if_true, if_false]
  have d4 : ¬ i - 1 - 1 - 14 - 2 < 6 := by omega
  simp only [c0, c1, c2, c3, c4, d0, d1, d2, d3, d4, if_false]
  rw [show i - 1 - 1 - 14 - 2 - 6 = i - 24 by omega]

@[simp] theorem opcField_header (o : BitVec 8) (b : BitVec 2) (f1 f0 : Bool) : opcField (header o b f1 f0) = o := by
  apply BitVec.eq_of_getLsbD_eq
  intro i hi
  simp only [opcField, BitVec.getLsbD_extractLsb', header_getLsbD]
  simp only [show ¬ 24 + i = 0 by omega, show ¬ 24 + i = 1 by omega, show ¬ 24 + i < 16 by omega,
    show ¬ 24 + i < 18 by omega, show ¬ 24 + i < 24 by omega, show 24 + i - 24 = i by omega, hi, if_false,
    decide_true, Bool.true_and]

@[simp] theorem bandField_header (o : BitVec 8) (b : BitVec 2) (f1 f0 : Bool) : bandField (header o b f1 f0) = b := by
  apply BitVec.eq_of_getLsbD_eq
  intro i hi
  simp only [bandField, BitVec.getLsbD_extractLsb', header_getLsbD]
  simp only [show ¬ 16 + i = 0 by omega, show ¬ 16 + i = 1 by omega, show ¬ 16 + i < 16 by omega,
    show 16 + i < 18 by omega, show 16 + i - 16 = i by omega, hi, if_false, if_true, decide_true, Bool.true_and]

@[simp] theorem flag1_header (o : BitVec 8) (b : BitVec 2) (f1 f0 : Bool) : flag1 (header o b f1 f0) = f1 := by
  simp only [flag1, header_getLsbD]
  rfl

@[simp] theorem flag0_header (o : BitVec 8) (b : BitVec 2) (f1 f0 : Bool) : flag0 (header o b f1 f0) = f0 := by
  simp only [flag0, header_getLsbD]
  rfl

@[simp] theorem reservedClear_header (o : BitVec 8) (b : BitVec 2) (f1 f0 : Bool) :
    reservedClear (header o b f1 f0) = true := by
  have high : (header o b f1 f0).extractLsb' 18 6 = 0#6 := by
    apply BitVec.eq_of_getLsbD_eq
    intro i hi
    simp only [BitVec.getLsbD_extractLsb', header_getLsbD]
    simp [show ¬ 18 + i = 1 by omega, show ¬ 18 + i < 16 by omega, show 18 + i < 24 by omega]
  have low : (header o b f1 f0).extractLsb' 2 14 = 0#14 := by
    apply BitVec.eq_of_getLsbD_eq
    intro i hi
    simp only [BitVec.getLsbD_extractLsb', header_getLsbD]
    simp [show ¬ 2 + i = 1 by omega, show 2 + i < 16 by omega]
  simp [reservedClear, high, low]

@[simp] theorem opcOf_bits (o : Opc) : opcOf o.bits = some o := by cases o <;> rfl

/-- An `opc` value that names an operation is that operation's. -/
theorem bits_of_opcOf {b : BitVec 8} {o : Opc} (h : opcOf b = some o) : b = o.bits := by
  unfold opcOf at h
  repeat (split at h; · cases h; assumption)
  cases h

@[simp] theorem bandOf_bits (b : Band) : bandOf b.bits = some b := by cases b <;> rfl

/-- A `band` value that names a band is that band's. -/
theorem bits_of_bandOf {v : BitVec 2} {b : Band} (h : bandOf v = some b) : v = b.bits := by
  unfold bandOf at h
  repeat (split at h; · cases h; assumption)
  cases h

/-- A header is made of its fields, where the reserved bits are 0. -/
theorem header_of_fields {h : Word} (hr : reservedClear h = true) :
    header (opcField h) (bandField h) (flag1 h) (flag0 h) = h := by
  simp only [reservedClear, Bool.and_eq_true, beq_iff_eq] at hr
  obtain ⟨high, low⟩ := hr
  have zeroHigh : ∀ k, k < 6 → h.getLsbD (18 + k) = false := fun k hk => by
    simpa [BitVec.getLsbD_extractLsb', hk] using congrArg (fun v => v.getLsbD k) high
  have zeroLow : ∀ k, k < 14 → h.getLsbD (2 + k) = false := fun k hk => by
    simpa [BitVec.getLsbD_extractLsb', hk] using congrArg (fun v => v.getLsbD k) low
  apply BitVec.eq_of_getLsbD_eq
  intro i hi
  simp only [header_getLsbD, opcField, bandField, flag1, flag0, BitVec.getLsbD_extractLsb']
  by_cases c0 : i = 0
  · simp only [c0, if_true]
  by_cases c1 : i = 1
  · subst c1; simp only [c0, if_true, if_false]
  by_cases c2 : i < 16
  · have := zeroLow (i - 2) (by omega)
    rw [show 2 + (i - 2) = i by omega] at this
    simp only [c0, c1, c2, this, if_true, if_false]
  by_cases c3 : i < 18
  · simp only [c0, c1, c2, c3, if_true, if_false, show i - 16 < 2 by omega, show 16 + (i - 16) = i by omega,
      decide_true, Bool.true_and]
  by_cases c4 : i < 24
  · have := zeroHigh (i - 18) (by omega)
    rw [show 18 + (i - 18) = i by omega] at this
    simp only [c0, c1, c2, c3, c4, this, if_true, if_false]
  simp only [c0, c1, c2, c3, c4, if_false, show i - 24 < 8 by omega, show 24 + (i - 24) = i by omega,
    decide_true, Bool.true_and]

/-- What a packet that decodes to a command has passed (R86). -/
theorem decode_cmd_cases {port : Agent} {pkt : Packet} {i : Instr} (h : decode port pkt = .cmd i) :
    ∃ hd rest o, pkt = hd :: rest ∧ opcOf (opcField hd) = some o ∧ o.port = port ∧ fieldsOk o.format hd = true ∧
      totalLength o.format hd pkt = some pkt.length ∧ assemble o hd pkt = .cmd i := by
  unfold decode at h
  split at h
  · cases h
  · rename_i hd rest
    split at h
    · cases h
    · rename_i o ho
      by_cases hp : o.port = port
      · by_cases hf : fieldsOk o.format hd = true
        · by_cases hl : totalLength o.format hd (hd :: rest) = some (hd :: rest).length
          · exact ⟨hd, rest, o, rfl, ho, hp, hf, hl, by simpa [hp, hf, hl] using h⟩
          · exact absurd h (by simp only [hp, hf, ne_eq, hl, not_true_eq_false, not_false_eq_true, if_true, if_false, reduceCtorEq, Bool.true_eq_false])
        · simp [hp, hf] at h
      · simp [hp] at h

end Sys2Proof
end

