-- ==== Sys2Proof/Laws/Float.lean ====
section
/-! SUPPORT. The basic facts of the arithmetic: rounding a fraction gives a nearest integer, and a word put together from
a sign and its other bits is taken apart into them. -/

namespace Sys2Proof.Machine

/-- The rounded quotient differs from the fraction by at most one half. -/
theorem roundDiv_nearest {num den : Nat} (hd : 0 < den) :
    2 * num ≤ 2 * (roundDiv num den * den) + den ∧ 2 * (roundDiv num den * den) ≤ 2 * num + den := by
  have hdiv := Nat.div_add_mod num den
  have hlt := Nat.mod_lt num hd
  have hmul : den * (num / den) = num / den * den := Nat.mul_comm _ _
  unfold roundDiv
  dsimp only
  split
  · constructor <;> omega
  · split
    · rw [Nat.add_mul]; constructor <;> omega
    · rcases Nat.mod_two_eq_zero_or_one (num / den) with h | h <;> rw [h]
      · rw [Nat.add_zero]; constructor <;> omega
      · rw [Nat.add_mul]; constructor <;> omega

/-- A tie goes to the even integer. -/
theorem roundDiv_tie {num den : Nat} (h : 2 * (num % den) = den) : roundDiv num den % 2 = 0 := by
  unfold roundDiv
  dsimp only
  split
  · omega
  · split <;> omega

/-- An exact quotient is not changed. -/
@[simp] theorem roundDiv_exact (m : Nat) {den : Nat} (hd : 0 < den) : roundDiv (m * den) den = m := by
  simp [roundDiv, Nat.mul_div_cancel _ hd, hd]

@[simp] theorem roundDiv_one (m : Nat) : roundDiv m 1 = m := by simpa using roundDiv_exact m (den := 1) (by omega)

/-- A number of at most `fb + 1` significand bits in smallest units is its own code. -/
theorem roundBits_small {fb m : Nat} (h : m < 2 ^ (fb + 1)) : roundBits fb m 1 = m := by
  have : m.log2 - fb = 0 := by
    rcases Nat.eq_zero_or_pos m with h0 | h0
    · simp [h0]
    · have := (Nat.log2_lt (by omega)).2 h; omega
  simp [roundBits, this]

/-! ### Words from sign and bits -/

theorem signed64_toNat {s : Bool} {b : Nat} (h : b < 2 ^ 63) :
    (signed64 s b).toNat = (if s then 2 ^ 63 else 0) + b := by
  cases s <;> simp [signed64, BitVec.toNat_ofNat] <;> omega

theorem signed64_bits {s : Bool} {b : Nat} (h : b < 2 ^ 63) : (signed64 s b).toNat % 2 ^ 63 = b := by
  rw [signed64_toNat h]; cases s <;> simp <;> omega

theorem signed64_msb {s : Bool} {b : Nat} (h : b < 2 ^ 63) : (signed64 s b).msb = s := by
  rw [BitVec.msb_eq_decide, signed64_toNat h]
  cases s
  · simp; omega
  · simp

/-- Taking apart what was put together. -/
theorem unpack64_signed64 {s : Bool} {b : Nat} (h : b < 2 ^ 63) :
    unpack64 (signed64 s b) =
      if infBits64 < b then .nan else if b = infBits64 then .inf s else .fin s (unitsOf 52 b) := by
  simp only [unpack64, signed64_bits h, signed64_msb h]

@[simp] theorem unpack64_inf64 (s : Bool) : unpack64 (inf64 s) = .inf s := by
  rw [inf64, unpack64_signed64 (by decide)]; simp

/-- A rounded result is finite or the infinity of its sign, never a NaN. -/
theorem unpack64_round64 (s : Bool) (num den : Nat) :
    unpack64 (round64 s num den) =
      if infBits64 ≤ roundBits 52 num den then .inf s else .fin s (unitsOf 52 (roundBits 52 num den)) := by
  rw [round64, unpack64_signed64 (lt_of_le_of_lt (Nat.min_le_right _ _) (by decide))]
  by_cases h : infBits64 ≤ roundBits 52 num den
  · simp [h]
  · have h1 : ¬ infBits64 < min (roundBits 52 num den) infBits64 := by omega
    have h2 : min (roundBits 52 num den) infBits64 = roundBits 52 num den := by omega
    rw [if_neg h1, h2, if_neg (by omega), if_neg h]

/-- Whatever the open bits, the word is a NaN. -/
@[simp] theorem unpack64_quietNan64 (d : NanDraw) : unpack64 (quietNan64 d) = .nan := by
  have high : ((quietNan64 d).toNat / 2 ^ 51) % 2 ^ 12 = 0xFFF := by
    have e : ((quietNan64 d).extractLsb' 51 12).toNat = 0xFFF := by
      have : (quietNan64 d).extractLsb' 51 12 = 0xFFF#12 := by
        apply BitVec.eq_of_getLsbD_eq
        intro i hi
        simp only [quietNan64, BitVec.getLsbD_extractLsb', BitVec.getLsbD_append, hi, decide_true, Bool.true_and]
        rcases Nat.eq_zero_or_pos i with h0 | h0
        · subst h0; rfl
        · simp only [show ¬ 51 + i < 50 - 0 + 1 by omega, show ¬ 51 + i - (50 - 0 + 1) < 1 by omega,
            show 51 + i - (50 - 0 + 1) - 1 < 11 by omega, if_true, if_false]
          have : i < 12 := hi
          interval_cases i <;> rfl
      rw [this]; rfl
    simpa [BitVec.extractLsb'_toNat, Nat.shiftRight_eq_div_pow] using e
  have hlt := (quietNan64 d).isLt
  unfold unpack64
  dsimp only
  rw [if_pos]
  unfold infBits64
  omega

@[simp] theorem unpack64_zero : unpack64 0#64 = .fin false 0 := by decide

end Sys2Proof.Machine
end

