-- ==== Sys2Proof/Laws/State.lean ====
section
/-! SUPPORT. One lemma per field per update of the state, so that no later proof unfolds a record update. -/

namespace Sys2Proof.Machine

/-! ### Taking a command and giving a response -/

@[simp] theorem accept_en (s : State) (p : Agent) :
    (s.accept p).en = s.en := by cases p <;> rfl

@[simp] theorem accept_lvl (s : State) (p : Agent) :
    (s.accept p).lvl = s.lvl := by cases p <;> rfl

@[simp] theorem accept_fs (s : State) (p : Agent) :
    (s.accept p).fs = s.fs := by cases p <;> rfl

@[simp] theorem accept_coef (s : State) (p : Agent) :
    (s.accept p).coef = s.coef := by cases p <;> rfl

@[simp] theorem accept_hist (s : State) (p : Agent) :
    (s.accept p).hist = s.hist := by cases p <;> rfl

@[simp] theorem accept_job (s : State) (p : Agent) :
    (s.accept p).job = s.job := by cases p <;> rfl

@[simp] theorem accept_cOut (s : State) (p : Agent) :
    (s.accept p).cOut = s.cOut := by cases p <;> rfl

@[simp] theorem accept_pOut (s : State) (p : Agent) :
    (s.accept p).pOut = s.pOut := by cases p <;> rfl

@[simp] theorem accept_resetInput (s : State) (p : Agent) :
    (s.accept p).resetInput = s.resetInput := by cases p <;> rfl

@[simp] theorem accept_sched (s : State) (p : Agent) :
    (s.accept p).sched = s.sched := by cases p <;> rfl

@[simp] theorem accept_turns (s : State) (p : Agent) :
    (s.accept p).turns = s.turns := by cases p <;> rfl

@[simp] theorem accept_draws (s : State) (p : Agent) :
    (s.accept p).draws = s.draws := by cases p <;> rfl

@[simp] theorem accept_control_cIn (s : State) :
    (s.accept .control).cIn = s.cIn.tail := rfl

@[simp] theorem accept_control_pIn (s : State) :
    (s.accept .control).pIn = s.pIn := rfl

@[simp] theorem accept_processing_cIn (s : State) :
    (s.accept .processing).cIn = s.cIn := rfl

@[simp] theorem accept_processing_pIn (s : State) :
    (s.accept .processing).pIn = s.pIn.tail := rfl

@[simp] theorem emit_en (s : State) (p : Agent) (r : Packet) :
    (s.emit p r).en = s.en := by cases p <;> rfl

@[simp] theorem emit_lvl (s : State) (p : Agent) (r : Packet) :
    (s.emit p r).lvl = s.lvl := by cases p <;> rfl

@[simp] theorem emit_fs (s : State) (p : Agent) (r : Packet) :
    (s.emit p r).fs = s.fs := by cases p <;> rfl

@[simp] theorem emit_coef (s : State) (p : Agent) (r : Packet) :
    (s.emit p r).coef = s.coef := by cases p <;> rfl

@[simp] theorem emit_hist (s : State) (p : Agent) (r : Packet) :
    (s.emit p r).hist = s.hist := by cases p <;> rfl

@[simp] theorem emit_job (s : State) (p : Agent) (r : Packet) :
    (s.emit p r).job = s.job := by cases p <;> rfl

@[simp] theorem emit_cIn (s : State) (p : Agent) (r : Packet) :
    (s.emit p r).cIn = s.cIn := by cases p <;> rfl

@[simp] theorem emit_pIn (s : State) (p : Agent) (r : Packet) :
    (s.emit p r).pIn = s.pIn := by cases p <;> rfl

@[simp] theorem emit_resetInput (s : State) (p : Agent) (r : Packet) :
    (s.emit p r).resetInput = s.resetInput := by cases p <;> rfl

@[simp] theorem emit_sched (s : State) (p : Agent) (r : Packet) :
    (s.emit p r).sched = s.sched := by cases p <;> rfl

@[simp] theorem emit_turns (s : State) (p : Agent) (r : Packet) :
    (s.emit p r).turns = s.turns := by cases p <;> rfl

@[simp] theorem emit_draws (s : State) (p : Agent) (r : Packet) :
    (s.emit p r).draws = s.draws := by cases p <;> rfl

@[simp] theorem emit_control_cOut (s : State) (r : Packet) :
    (s.emit .control r).cOut = s.cOut ++ [r] := rfl

@[simp] theorem emit_control_pOut (s : State) (r : Packet) :
    (s.emit .control r).pOut = s.pOut := rfl

@[simp] theorem emit_processing_cOut (s : State) (r : Packet) :
    (s.emit .processing r).cOut = s.cOut := rfl

@[simp] theorem emit_processing_pOut (s : State) (r : Packet) :
    (s.emit .processing r).pOut = s.pOut ++ [r] := rfl

@[simp] theorem respond_en (s : State) (p : Agent) (o : BitVec 8) (st : Status) (ws : List Word) :
    (s.respond p o st ws).en = s.en := by cases p <;> rfl

@[simp] theorem respond_lvl (s : State) (p : Agent) (o : BitVec 8) (st : Status) (ws : List Word) :
    (s.respond p o st ws).lvl = s.lvl := by cases p <;> rfl

@[simp] theorem respond_fs (s : State) (p : Agent) (o : BitVec 8) (st : Status) (ws : List Word) :
    (s.respond p o st ws).fs = s.fs := by cases p <;> rfl

@[simp] theorem respond_coef (s : State) (p : Agent) (o : BitVec 8) (st : Status) (ws : List Word) :
    (s.respond p o st ws).coef = s.coef := by cases p <;> rfl

@[simp] theorem respond_hist (s : State) (p : Agent) (o : BitVec 8) (st : Status) (ws : List Word) :
    (s.respond p o st ws).hist = s.hist := by cases p <;> rfl

@[simp] theorem respond_job (s : State) (p : Agent) (o : BitVec 8) (st : Status) (ws : List Word) :
    (s.respond p o st ws).job = s.job := by cases p <;> rfl

@[simp] theorem respond_resetInput (s : State) (p : Agent) (o : BitVec 8) (st : Status) (ws : List Word) :
    (s.respond p o st ws).resetInput = s.resetInput := by cases p <;> rfl

@[simp] theorem respond_sched (s : State) (p : Agent) (o : BitVec 8) (st : Status) (ws : List Word) :
    (s.respond p o st ws).sched = s.sched := by cases p <;> rfl

@[simp] theorem respond_turns (s : State) (p : Agent) (o : BitVec 8) (st : Status) (ws : List Word) :
    (s.respond p o st ws).turns = s.turns := by cases p <;> rfl

@[simp] theorem respond_draws (s : State) (p : Agent) (o : BitVec 8) (st : Status) (ws : List Word) :
    (s.respond p o st ws).draws = s.draws := by cases p <;> rfl

@[simp] theorem respond_control_cIn (s : State) (o : BitVec 8) (st : Status) (ws : List Word) :
    (s.respond .control o st ws).cIn = s.cIn.tail := rfl

@[simp] theorem respond_control_pIn (s : State) (o : BitVec 8) (st : Status) (ws : List Word) :
    (s.respond .control o st ws).pIn = s.pIn := rfl

@[simp] theorem respond_control_cOut (s : State) (o : BitVec 8) (st : Status) (ws : List Word) :
    (s.respond .control o st ws).cOut = s.cOut ++ [response o st ws] := rfl

@[simp] theorem respond_control_pOut (s : State) (o : BitVec 8) (st : Status) (ws : List Word) :
    (s.respond .control o st ws).pOut = s.pOut := rfl

@[simp] theorem respond_processing_cIn (s : State) (o : BitVec 8) (st : Status) (ws : List Word) :
    (s.respond .processing o st ws).cIn = s.cIn := rfl

@[simp] theorem respond_processing_pIn (s : State) (o : BitVec 8) (st : Status) (ws : List Word) :
    (s.respond .processing o st ws).pIn = s.pIn.tail := rfl

@[simp] theorem respond_processing_cOut (s : State) (o : BitVec 8) (st : Status) (ws : List Word) :
    (s.respond .processing o st ws).cOut = s.cOut := rfl

@[simp] theorem respond_processing_pOut (s : State) (o : BitVec 8) (st : Status) (ws : List Word) :
    (s.respond .processing o st ws).pOut = s.pOut ++ [response o st ws] := rfl

/-- `raise` is `respond` with the status word alone (R15). -/
@[simp] theorem raise_eq (s : State) (p : Agent) (o : BitVec 8) (st : Status) :
    s.raise p o st = s.respond p o st [] := rfl

/-! ### Register writes -/

@[simp] theorem writeLevel_en (s : State) (b : Band) (c : Int) :
    (s.writeLevel b c).en = s.en := rfl

@[simp] theorem writeLevel_lvl (s : State) (b : Band) (c : Int) :
    (s.writeLevel b c).lvl = bandSet s.lvl b (levelBits c) := rfl

@[simp] theorem writeLevel_fs (s : State) (b : Band) (c : Int) :
    (s.writeLevel b c).fs = s.fs := rfl

@[simp] theorem writeLevel_coef (s : State) (b : Band) (c : Int) :
    (s.writeLevel b c).coef = s.coef := rfl

@[simp] theorem writeLevel_hist (s : State) (b : Band) (c : Int) :
    (s.writeLevel b c).hist = s.hist := rfl

@[simp] theorem writeLevel_job (s : State) (b : Band) (c : Int) :
    (s.writeLevel b c).job = s.job := rfl

@[simp] theorem writeLevel_cIn (s : State) (b : Band) (c : Int) :
    (s.writeLevel b c).cIn = s.cIn := rfl

@[simp] theorem writeLevel_pIn (s : State) (b : Band) (c : Int) :
    (s.writeLevel b c).pIn = s.pIn := rfl

@[simp] theorem writeLevel_cOut (s : State) (b : Band) (c : Int) :
    (s.writeLevel b c).cOut = s.cOut := rfl

@[simp] theorem writeLevel_pOut (s : State) (b : Band) (c : Int) :
    (s.writeLevel b c).pOut = s.pOut := rfl

@[simp] theorem writeLevel_resetInput (s : State) (b : Band) (c : Int) :
    (s.writeLevel b c).resetInput = s.resetInput := rfl

@[simp] theorem writeLevel_sched (s : State) (b : Band) (c : Int) :
    (s.writeLevel b c).sched = s.sched := rfl

@[simp] theorem writeLevel_turns (s : State) (b : Band) (c : Int) :
    (s.writeLevel b c).turns = s.turns := rfl

@[simp] theorem writeLevel_draws (s : State) (b : Band) (c : Int) :
    (s.writeLevel b c).draws = s.draws := rfl

@[simp] theorem updateCoefficients_en (s : State) (b : Band) (k : Coef) :
    (s.updateCoefficients b k).en = s.en := rfl

@[simp] theorem updateCoefficients_lvl (s : State) (b : Band) (k : Coef) :
    (s.updateCoefficients b k).lvl = s.lvl := rfl

@[simp] theorem updateCoefficients_fs (s : State) (b : Band) (k : Coef) :
    (s.updateCoefficients b k).fs = s.fs := rfl

@[simp] theorem updateCoefficients_coef (s : State) (b : Band) (k : Coef) :
    (s.updateCoefficients b k).coef = bandSet s.coef b k := rfl

@[simp] theorem updateCoefficients_hist (s : State) (b : Band) (k : Coef) :
    (s.updateCoefficients b k).hist = s.hist := rfl

@[simp] theorem updateCoefficients_job (s : State) (b : Band) (k : Coef) :
    (s.updateCoefficients b k).job = s.job := rfl

@[simp] theorem updateCoefficients_cIn (s : State) (b : Band) (k : Coef) :
    (s.updateCoefficients b k).cIn = s.cIn := rfl

@[simp] theorem updateCoefficients_pIn (s : State) (b : Band) (k : Coef) :
    (s.updateCoefficients b k).pIn = s.pIn := rfl

@[simp] theorem updateCoefficients_cOut (s : State) (b : Band) (k : Coef) :
    (s.updateCoefficients b k).cOut = s.cOut := rfl

@[simp] theorem updateCoefficients_pOut (s : State) (b : Band) (k : Coef) :
    (s.updateCoefficients b k).pOut = s.pOut := rfl

@[simp] theorem updateCoefficients_resetInput (s : State) (b : Band) (k : Coef) :
    (s.updateCoefficients b k).resetInput = s.resetInput := rfl

@[simp] theorem updateCoefficients_sched (s : State) (b : Band) (k : Coef) :
    (s.updateCoefficients b k).sched = s.sched := rfl

@[simp] theorem updateCoefficients_turns (s : State) (b : Band) (k : Coef) :
    (s.updateCoefficients b k).turns = s.turns := rfl

@[simp] theorem updateCoefficients_draws (s : State) (b : Band) (k : Coef) :
    (s.updateCoefficients b k).draws = s.draws := rfl

@[simp] theorem writeChannelHist_en (s : State) (c : Channel) (h : PerBand Hist) :
    (s.writeChannelHist c h).en = s.en := rfl

@[simp] theorem writeChannelHist_lvl (s : State) (c : Channel) (h : PerBand Hist) :
    (s.writeChannelHist c h).lvl = s.lvl := rfl

@[simp] theorem writeChannelHist_fs (s : State) (c : Channel) (h : PerBand Hist) :
    (s.writeChannelHist c h).fs = s.fs := rfl

@[simp] theorem writeChannelHist_coef (s : State) (c : Channel) (h : PerBand Hist) :
    (s.writeChannelHist c h).coef = s.coef := rfl

@[simp] theorem writeChannelHist_hist (s : State) (c : Channel) (h : PerBand Hist) :
    (s.writeChannelHist c h).hist = bandAll (fun b => chanSet (bandGet s.hist b) c (bandGet h b)) := rfl

@[simp] theorem writeChannelHist_job (s : State) (c : Channel) (h : PerBand Hist) :
    (s.writeChannelHist c h).job = s.job := rfl

@[simp] theorem writeChannelHist_cIn (s : State) (c : Channel) (h : PerBand Hist) :
    (s.writeChannelHist c h).cIn = s.cIn := rfl

@[simp] theorem writeChannelHist_pIn (s : State) (c : Channel) (h : PerBand Hist) :
    (s.writeChannelHist c h).pIn = s.pIn := rfl

@[simp] theorem writeChannelHist_cOut (s : State) (c : Channel) (h : PerBand Hist) :
    (s.writeChannelHist c h).cOut = s.cOut := rfl

@[simp] theorem writeChannelHist_pOut (s : State) (c : Channel) (h : PerBand Hist) :
    (s.writeChannelHist c h).pOut = s.pOut := rfl

@[simp] theorem writeChannelHist_resetInput (s : State) (c : Channel) (h : PerBand Hist) :
    (s.writeChannelHist c h).resetInput = s.resetInput := rfl

@[simp] theorem writeChannelHist_sched (s : State) (c : Channel) (h : PerBand Hist) :
    (s.writeChannelHist c h).sched = s.sched := rfl

@[simp] theorem writeChannelHist_turns (s : State) (c : Channel) (h : PerBand Hist) :
    (s.writeChannelHist c h).turns = s.turns := rfl

@[simp] theorem writeChannelHist_draws (s : State) (c : Channel) (h : PerBand Hist) :
    (s.writeChannelHist c h).draws = s.draws := rfl

@[simp] theorem resetHistory_en (s : State) :
    (resetHistory s).en = s.en := rfl

@[simp] theorem resetHistory_lvl (s : State) :
    (resetHistory s).lvl = s.lvl := rfl

@[simp] theorem resetHistory_fs (s : State) :
    (resetHistory s).fs = s.fs := rfl

@[simp] theorem resetHistory_coef (s : State) :
    (resetHistory s).coef = s.coef := rfl

@[simp] theorem resetHistory_hist (s : State) :
    (resetHistory s).hist = zeroHistory := rfl

@[simp] theorem resetHistory_job (s : State) :
    (resetHistory s).job = s.job := rfl

@[simp] theorem resetHistory_cIn (s : State) :
    (resetHistory s).cIn = s.cIn := rfl

@[simp] theorem resetHistory_pIn (s : State) :
    (resetHistory s).pIn = s.pIn := rfl

@[simp] theorem resetHistory_cOut (s : State) :
    (resetHistory s).cOut = s.cOut := rfl

@[simp] theorem resetHistory_pOut (s : State) :
    (resetHistory s).pOut = s.pOut := rfl

@[simp] theorem resetHistory_resetInput (s : State) :
    (resetHistory s).resetInput = s.resetInput := rfl

@[simp] theorem resetHistory_sched (s : State) :
    (resetHistory s).sched = s.sched := rfl

@[simp] theorem resetHistory_turns (s : State) :
    (resetHistory s).turns = s.turns := rfl

@[simp] theorem resetHistory_draws (s : State) :
    (resetHistory s).draws = s.draws := rfl

@[simp] theorem hardwareReset_en (s : State) :
    s.hardwareReset.en = State.reset.en := rfl

@[simp] theorem hardwareReset_lvl (s : State) :
    s.hardwareReset.lvl = State.reset.lvl := rfl

@[simp] theorem hardwareReset_fs (s : State) :
    s.hardwareReset.fs = State.reset.fs := rfl

@[simp] theorem hardwareReset_coef (s : State) :
    s.hardwareReset.coef = State.reset.coef := rfl

@[simp] theorem hardwareReset_hist (s : State) :
    s.hardwareReset.hist = State.reset.hist := rfl

@[simp] theorem hardwareReset_job (s : State) :
    s.hardwareReset.job = State.reset.job := rfl

@[simp] theorem hardwareReset_cIn (s : State) :
    s.hardwareReset.cIn = State.reset.cIn := rfl

@[simp] theorem hardwareReset_pIn (s : State) :
    s.hardwareReset.pIn = State.reset.pIn := rfl

@[simp] theorem hardwareReset_cOut (s : State) :
    s.hardwareReset.cOut = s.cOut := rfl

@[simp] theorem hardwareReset_pOut (s : State) :
    s.hardwareReset.pOut = s.pOut := rfl

@[simp] theorem hardwareReset_resetInput (s : State) :
    s.hardwareReset.resetInput = State.reset.resetInput := rfl

@[simp] theorem hardwareReset_sched (s : State) :
    s.hardwareReset.sched = s.sched := rfl

@[simp] theorem hardwareReset_turns (s : State) :
    s.hardwareReset.turns = s.turns := rfl

@[simp] theorem hardwareReset_draws (s : State) :
    s.hardwareReset.draws = s.draws := rfl

/-! ### The steps of a buffer command -/

@[simp] theorem syncRate_en (fs : Word) (s : State) :
    (syncRate fs s).en = s.en := by unfold syncRate; split <;> rfl

@[simp] theorem syncRate_lvl (fs : Word) (s : State) :
    (syncRate fs s).lvl = s.lvl := by unfold syncRate; split <;> rfl

@[simp] theorem syncRate_hist (fs : Word) (s : State) :
    (syncRate fs s).hist = s.hist := by unfold syncRate; split <;> rfl

@[simp] theorem syncRate_job (fs : Word) (s : State) :
    (syncRate fs s).job = s.job := by unfold syncRate; split <;> rfl

@[simp] theorem syncRate_cIn (fs : Word) (s : State) :
    (syncRate fs s).cIn = s.cIn := by unfold syncRate; split <;> rfl

@[simp] theorem syncRate_pIn (fs : Word) (s : State) :
    (syncRate fs s).pIn = s.pIn := by unfold syncRate; split <;> rfl

@[simp] theorem syncRate_cOut (fs : Word) (s : State) :
    (syncRate fs s).cOut = s.cOut := by unfold syncRate; split <;> rfl

@[simp] theorem syncRate_pOut (fs : Word) (s : State) :
    (syncRate fs s).pOut = s.pOut := by unfold syncRate; split <;> rfl

@[simp] theorem syncRate_resetInput (fs : Word) (s : State) :
    (syncRate fs s).resetInput = s.resetInput := by unfold syncRate; split <;> rfl

@[simp] theorem syncRate_sched (fs : Word) (s : State) :
    (syncRate fs s).sched = s.sched := by unfold syncRate; split <;> rfl

@[simp] theorem syncRate_turns (fs : Word) (s : State) :
    (syncRate fs s).turns = s.turns := by unfold syncRate; split <;> rfl

@[simp] theorem syncRate_draws (fs : Word) (s : State) :
    (syncRate fs s).draws = s.draws := by unfold syncRate; split <;> rfl

@[simp] theorem syncRate_fs (fs : Word) (s : State) :
    (syncRate fs s).fs = fs := by unfold syncRate; split <;> simp_all

@[simp] theorem syncRate_coef_same (s : State) :
    (syncRate s.fs s).coef = s.coef := by simp [syncRate]

theorem syncRate_coef_changed (fs : Word) (s : State) (h : fs ≠ s.fs) :
    (syncRate fs s).coef = bandAll (fun b => compile b (s.level b) fs) := by simp [syncRate, h]

@[simp] theorem startJob_en (k : JobKind) (io : PerChannel Buffer) (s : State) :
    (startJob k io s).en = s.en := rfl

@[simp] theorem startJob_lvl (k : JobKind) (io : PerChannel Buffer) (s : State) :
    (startJob k io s).lvl = s.lvl := rfl

@[simp] theorem startJob_fs (k : JobKind) (io : PerChannel Buffer) (s : State) :
    (startJob k io s).fs = s.fs := rfl

@[simp] theorem startJob_coef (k : JobKind) (io : PerChannel Buffer) (s : State) :
    (startJob k io s).coef = s.coef := rfl

@[simp] theorem startJob_hist (k : JobKind) (io : PerChannel Buffer) (s : State) :
    (startJob k io s).hist = s.hist := rfl

@[simp] theorem startJob_job (k : JobKind) (io : PerChannel Buffer) (s : State) :
    (startJob k io s).job = some (newJob k io) := rfl

@[simp] theorem startJob_cIn (k : JobKind) (io : PerChannel Buffer) (s : State) :
    (startJob k io s).cIn = s.cIn := rfl

@[simp] theorem startJob_pIn (k : JobKind) (io : PerChannel Buffer) (s : State) :
    (startJob k io s).pIn = s.pIn.tail := rfl

@[simp] theorem startJob_cOut (k : JobKind) (io : PerChannel Buffer) (s : State) :
    (startJob k io s).cOut = s.cOut := rfl

@[simp] theorem startJob_pOut (k : JobKind) (io : PerChannel Buffer) (s : State) :
    (startJob k io s).pOut = s.pOut := rfl

@[simp] theorem startJob_resetInput (k : JobKind) (io : PerChannel Buffer) (s : State) :
    (startJob k io s).resetInput = s.resetInput := rfl

@[simp] theorem startJob_sched (k : JobKind) (io : PerChannel Buffer) (s : State) :
    (startJob k io s).sched = s.sched := rfl

@[simp] theorem startJob_turns (k : JobKind) (io : PerChannel Buffer) (s : State) :
    (startJob k io s).turns = s.turns := rfl

@[simp] theorem startJob_draws (k : JobKind) (io : PerChannel Buffer) (s : State) :
    (startJob k io s).draws = s.draws := rfl

@[simp] theorem pSample_en (j : Job) (s : State) :
    (pSample j s).en = s.en := rfl

@[simp] theorem pSample_lvl (j : Job) (s : State) :
    (pSample j s).lvl = s.lvl := rfl

@[simp] theorem pSample_fs (j : Job) (s : State) :
    (pSample j s).fs = s.fs := rfl

@[simp] theorem pSample_coef (j : Job) (s : State) :
    (pSample j s).coef = s.coef := rfl

@[simp] theorem pSample_cIn (j : Job) (s : State) :
    (pSample j s).cIn = s.cIn := rfl

@[simp] theorem pSample_pIn (j : Job) (s : State) :
    (pSample j s).pIn = s.pIn := rfl

@[simp] theorem pSample_cOut (j : Job) (s : State) :
    (pSample j s).cOut = s.cOut := rfl

@[simp] theorem pSample_pOut (j : Job) (s : State) :
    (pSample j s).pOut = s.pOut := rfl

@[simp] theorem pSample_resetInput (j : Job) (s : State) :
    (pSample j s).resetInput = s.resetInput := rfl

@[simp] theorem pSample_sched (j : Job) (s : State) :
    (pSample j s).sched = s.sched := rfl

@[simp] theorem pSample_turns (j : Job) (s : State) :
    (pSample j s).turns = s.turns := rfl

@[simp] theorem pSample_draws (j : Job) (s : State) :
    (pSample j s).draws = s.draws + drawsPerSample := rfl

@[simp] theorem pEnd_en (j : Job) (s : State) :
    (pEnd j s).en = s.en := rfl

@[simp] theorem pEnd_lvl (j : Job) (s : State) :
    (pEnd j s).lvl = s.lvl := rfl

@[simp] theorem pEnd_fs (j : Job) (s : State) :
    (pEnd j s).fs = s.fs := rfl

@[simp] theorem pEnd_coef (j : Job) (s : State) :
    (pEnd j s).coef = s.coef := rfl

@[simp] theorem pEnd_hist (j : Job) (s : State) :
    (pEnd j s).hist = s.hist := rfl

@[simp] theorem pEnd_job (j : Job) (s : State) :
    (pEnd j s).job = none := rfl

@[simp] theorem pEnd_cIn (j : Job) (s : State) :
    (pEnd j s).cIn = s.cIn := rfl

@[simp] theorem pEnd_pIn (j : Job) (s : State) :
    (pEnd j s).pIn = s.pIn := rfl

@[simp] theorem pEnd_cOut (j : Job) (s : State) :
    (pEnd j s).cOut = s.cOut := rfl

@[simp] theorem pEnd_pOut (j : Job) (s : State) :
    (pEnd j s).pOut = s.pOut ++ [response (JobKind.opcBits j.kind) .ok (bufferResults j.kind j.n j.output)] := rfl

@[simp] theorem pEnd_resetInput (j : Job) (s : State) :
    (pEnd j s).resetInput = s.resetInput := rfl

@[simp] theorem pEnd_sched (j : Job) (s : State) :
    (pEnd j s).sched = s.sched := rfl

@[simp] theorem pEnd_turns (j : Job) (s : State) :
    (pEnd j s).turns = s.turns := rfl

@[simp] theorem pEnd_draws (j : Job) (s : State) :
    (pEnd j s).draws = s.draws := rfl

/-! ### Per-band and per-channel tuples -/

@[simp] theorem bandGet_bandSet_same {α : Type} (x : PerBand α) (b : Band) (v : α) :
    bandGet (bandSet x b v) b = v := by cases b <;> rfl

@[simp] theorem bandGet_bandSet_other {α : Type} (x : PerBand α) (b c : Band) (v : α) (h : c ≠ b) :
    bandGet (bandSet x b v) c = bandGet x c := by cases b <;> cases c <;> first | rfl | exact absurd rfl h

@[simp] theorem bandGet_bandAll {α : Type} (f : Band → α) (b : Band) : bandGet (bandAll f) b = f b := by cases b <;> rfl

@[simp] theorem chanGet_chanSet_same {α : Type} (x : PerChannel α) (c : Channel) (v : α) :
    chanGet (chanSet x c v) c = v := by cases c <;> rfl

@[simp] theorem chanGet_chanSet_other {α : Type} (x : PerChannel α) (c e : Channel) (v : α) (h : e ≠ c) :
    chanGet (chanSet x c v) e = chanGet x e := by cases c <;> cases e <;> first | rfl | exact absurd rfl h

@[simp] theorem bandAll_bandGet {α : Type} (x : PerBand α) : bandAll (bandGet x) = x := rfl

end Sys2Proof.Machine
end

