-- ==== Sys2Proof/Laws/Ops.lean ====
section
/-! SUPPORT. What each shared operation and each part of a step can do, said once, for proofs to cite instead of
unfolding. -/

namespace Sys2Proof.Machine

/-! ### Which agent goes -/

/-- `pick` uses up at most the schedule's head or one open choice: every other field stays. -/
theorem pick_frame {s s1 : State} {a : Agent} (h : s.pick = some (a, s1)) :
    s1 = { s with sched := s1.sched, turns := s1.turns } := by
  unfold State.pick at h
  split at h
  · cases h
  · cases h; rfl
  · cases h; rfl
  · split at h <;> cases h <;> rfl

/-- The agent that goes has an enabled step. -/
theorem pick_ready {s s1 : State} {a : Agent} (h : s.pick = some (a, s1)) :
    match a with
    | .control => s.controlReady = true
    | .processing => s.processingReady = true := by
  unfold State.pick at h
  split at h
  · cases h
  · rename_i hc _; cases h; exact hc
  · rename_i _ hp; cases h; exact hp
  · rename_i hc hp
    split at h <;> cases h <;> (split <;> assumption)

@[simp] theorem pick_control_only {s : State} (hc : s.controlReady = true) (hp : s.processingReady = false) :
    s.pick = some (.control, s) := by simp [State.pick, hc, hp]

@[simp] theorem pick_processing_only {s : State} (hc : s.controlReady = false) (hp : s.processingReady = true) :
    s.pick = some (.processing, s) := by simp [State.pick, hc, hp]

/-! ### What an agent's step is -/

/-- A command is executed only where it is the decoded packet at the head of its agent's port, and on the P-port only
while no buffer is in flight. -/
theorem action_run {s : State} {a : Agent} {i : Instr} (h : s.action a = .run i) :
    (a = .control ∧ ∃ pkt rest, s.cIn = pkt :: rest ∧ decode .control pkt = .cmd i) ∨
    (a = .processing ∧ s.job = none ∧ ∃ pkt rest, s.pIn = pkt :: rest ∧ decode .processing pkt = .cmd i) := by
  have fetched : ∀ port queue, s.fetch port queue = .run i → ∃ pkt rest, queue = pkt :: rest ∧ decode port pkt = .cmd i := by
    intro port queue hq
    unfold State.fetch at hq
    split at hq
    · cases hq
    · split at hq
      · rename_i hd; cases hq; exact ⟨_, _, rfl, hd⟩
      · cases hq
  unfold State.action at h
  split at h
  · exact .inl ⟨rfl, fetched _ _ h⟩
  · split at h
    · split at h <;> cases h
    · rename_i hj; exact .inr ⟨rfl, hj, fetched _ _ h⟩

/-- What a step that executes no command does: nothing, for an agent that has none; the refusal of an illegal packet;
P-sample; P-end. -/
theorem action_done {s s2 : State} {a : Agent} (h : s.action a = .done s2) :
    s2 = s ∨ (∃ opc cause, s2 = s.refuseIllegal a opc cause) ∨
    (a = .processing ∧ ∃ j, s.job = some j ∧ j.idx < j.n ∧ s2 = pSample j s) ∨
    (a = .processing ∧ ∃ j, s.job = some j ∧ ¬ j.idx < j.n ∧ s2 = pEnd j s) := by
  have fetched : ∀ port queue, s.fetch port queue = .done s2 → s2 = s ∨ ∃ opc cause, s2 = s.refuseIllegal port opc cause := by
    intro port queue hq
    unfold State.fetch at hq
    split at hq
    · cases hq; exact .inl rfl
    · split at hq
      · cases hq
      · cases hq; exact .inr ⟨_, _, rfl⟩
  unfold State.action at h
  split at h
  · exact (fetched _ _ h).imp_right .inl
  · split at h
    · rename_i j hj
      split at h <;> cases h
      · exact .inr (.inr (.inl ⟨rfl, j, hj, ‹_›, rfl⟩))
      · exact .inr (.inr (.inr ⟨rfl, j, hj, ‹_›, rfl⟩))
    · exact (fetched _ _ h).imp_right .inl

/-- What a step can be: a hardware reset, nothing, the execution of a command, or a step complete in itself. -/
theorem step_cases {s t : State} (h : step s = .next t) :
    (s.resetInput = true ∧ t = s.hardwareReset) ∨
    (s.resetInput = false ∧ s.pick = none ∧ t = s) ∨
    (s.resetInput = false ∧ ∃ a s1 i, s.pick = some (a, s1) ∧ s1.action a = .run i ∧ exec i s1 = .next t) ∨
    (s.resetInput = false ∧ ∃ a s1, s.pick = some (a, s1) ∧ s1.action a = .done t) := by
  unfold step at h
  split at h
  · cases h; exact .inl ⟨‹_›, rfl⟩
  · rename_i hr
    have hr : s.resetInput = false := by simpa using hr
    split at h
    · cases h; exact .inr (.inl ⟨hr, ‹_›, rfl⟩)
    · rename_i a s1 hp
      split at h
      · exact .inr (.inr (.inl ⟨hr, a, s1, _, hp, ‹_›, h⟩))
      · cases h; exact .inr (.inr (.inr ⟨hr, a, s1, hp, ‹_›⟩))

/-! ### The steps of a buffer command -/

/-- What P-begin can do: respond, with an error or a result, and change nothing else; or start the job at the command's
rate, the command being valid, non-empty and the engine enabled. -/
theorem pBegin_cases (kind : JobKind) (fs : Word) (input : Option (PerChannel Buffer)) (s : State) :
    (∃ st ws, pBegin kind fs input s = s.respond .processing (JobKind.opcBits kind) st ws) ∨
    (∃ io, input = some io ∧ 0 < sext32 fs ∧ (kind = .stereo → io.left.length = io.right.length) ∧
      io.left.length ≠ 0 ∧ s.en = true ∧ pBegin kind fs input s = startJob kind io (syncRate fs s)) := by
  cases input with
  | none => exact .inl ⟨_, _, rfl⟩
  | some io =>
    unfold pBegin
    dsimp only
    split
    · exact .inl ⟨_, _, rfl⟩
    · split
      · exact .inl ⟨_, _, rfl⟩
      · split
        · exact .inl ⟨_, _, rfl⟩
        · split
          · exact .inl ⟨_, _, rfl⟩
          · rename_i h1 h2 h3 h4
            exact .inr ⟨io, rfl, by omega, fun hk => by simpa [hk] using h2, h3, by simpa using h4, rfl⟩

/-- A word written at the next index is appended. -/
theorem bufWrite_next (buf : Buffer) (w : Word) : bufWrite buf buf.length w = buf ++ [w] := by simp [bufWrite]

theorem bufWrite_length {buf : Buffer} {i : Nat} (h : i ≤ buf.length) (w : Word) :
    (bufWrite buf i w).length = max buf.length (i + 1) := by
  simp only [bufWrite, List.length_append, List.length_take, List.length_cons, List.length_drop]
  omega

/-- Reading one channel's histories after writing a channel's. -/
theorem channelHist_writeChannelHist (s : State) (c e : Channel) (h : PerBand Hist) :
    (s.writeChannelHist c h).channelHist e = if e = c then h else s.channelHist e := by
  cases c <;> cases e <;> rfl

@[simp] theorem channelHist_resetHistory (s : State) (c : Channel) :
    (resetHistory s).channelHist c = ⟨zeroHist, zeroHist, zeroHist⟩ := by cases c <;> rfl

/-! ### Levels -/

theorem clamp_range (v : Int) : 0 ≤ clamp v ∧ clamp v ≤ 100 := by
  simp only [clamp, Config.levelMin, Config.levelMax]; omega

theorem clamp_eq_self {v : Int} (h0 : 0 ≤ v) (h1 : v ≤ 100) : clamp v = v := by
  simp only [clamp, Config.levelMin, Config.levelMax]; omega

/-- Seven bits hold every clamped level (R22). -/
theorem levelBits_toNat {c : Int} (h0 : 0 ≤ c) (h1 : c ≤ 100) : ((levelBits c).toNat : Int) = c := by
  simp only [levelBits, BitVec.toNat_ofInt]; omega

end Sys2Proof.Machine
end

