-- ==== Sys2Proof/Laws/PerInstr.lean ====
section
/-! SUPPORT. Statements about every command, one lemma per constructor of `Instr`. -/

namespace Sys2Proof.Laws

/-- The encoding of a command begins with a header that names the command's operation and passes the field check of its
format (R71, R79, R85). -/
def EncodedHeader.Statement (i : Instr) : Prop :=
  ∃ h rest, encode i = h :: rest ∧ opcOf (opcField h) = some i.opc ∧ fieldsOk i.opc.format h = true

theorem EncodedHeader.setEn (en : Bool) : EncodedHeader.Statement (.setEn en) :=
  ⟨_, _, rfl, by simp [Instr.opc], by simp [fieldsOk, Instr.opc, Opc.format]⟩

theorem EncodedHeader.getEn : EncodedHeader.Statement .getEn :=
  ⟨_, _, rfl, by simp [Instr.opc], by simp [fieldsOk, Instr.opc, Opc.format]⟩

theorem EncodedHeader.setBass (value : Word) : EncodedHeader.Statement (.setBass value) :=
  ⟨_, _, rfl, by simp [Instr.opc], by simp [fieldsOk, Instr.opc, Opc.format, Band.bits]⟩

theorem EncodedHeader.setMid (value : Word) : EncodedHeader.Statement (.setMid value) :=
  ⟨_, _, rfl, by simp [Instr.opc], by simp [fieldsOk, Instr.opc, Opc.format, Band.bits]⟩

theorem EncodedHeader.setTreb (value : Word) : EncodedHeader.Statement (.setTreb value) :=
  ⟨_, _, rfl, by simp [Instr.opc], by simp [fieldsOk, Instr.opc, Opc.format, Band.bits]⟩

theorem EncodedHeader.getBass : EncodedHeader.Statement .getBass :=
  ⟨_, _, rfl, by simp [Instr.opc], by simp [fieldsOk, Instr.opc, Opc.format, Band.bits]⟩

theorem EncodedHeader.getMid : EncodedHeader.Statement .getMid :=
  ⟨_, _, rfl, by simp [Instr.opc], by simp [fieldsOk, Instr.opc, Opc.format, Band.bits]⟩

theorem EncodedHeader.getTreb : EncodedHeader.Statement .getTreb :=
  ⟨_, _, rfl, by simp [Instr.opc], by simp [fieldsOk, Instr.opc, Opc.format, Band.bits]⟩

theorem EncodedHeader.rstf : EncodedHeader.Statement .rstf :=
  ⟨_, _, rfl, by simp [Instr.opc], by simp [fieldsOk, Instr.opc, Opc.format]⟩

theorem EncodedHeader.procM (fs : Word) (buf : Option Buffer) : EncodedHeader.Statement (.procM fs buf) :=
  ⟨_, _, rfl, by simp [Instr.opc], by simp [fieldsOk, Instr.opc, Opc.format]⟩

theorem EncodedHeader.procS (fs : Word) (left right : Option Buffer) :
    EncodedHeader.Statement (.procS fs left right) :=
  ⟨_, _, rfl, by simp [Instr.opc], by simp [fieldsOk, Instr.opc, Opc.format]⟩

end Sys2Proof.Laws
end

