-- ==== Sys2Proof/Machine/Text.lean ====
section
/-! DEFINITION. The spec's textual form of a command and of a response (R90): the port letter, the mnemonic, the operands;
samples as hexadecimal words. Notation only: nothing else of the model reads it. -/

namespace Sys2Proof.Machine

/-- The hexadecimal digit of a number below 16. -/
def hexDigit (n : Nat) : Char := if n < 10 then Char.ofNat (48 + n) else Char.ofNat (55 + n)

/-- A sample word: `0x` and eight hexadecimal digits. -/
def wordText (w : Word) : String :=
  "0x" ++ String.ofList ((List.range 8).map (fun k => hexDigit (w.toNat / 16 ^ (7 - k) % 16)))

/-- The sample word that a decimal literal ±num/den with suffix `f` means: the binary32 nearest to it, ties to even. -/
def literalWord (neg : Bool) (num den : Nat) : Word := round32 neg (num * 2 ^ 149) den

/-- `<buf>`: `null` or a bracketed list. -/
def bufferText : Option Buffer → String
  | none => "null"
  | some b => "[" ++ ", ".intercalate (b.map wordText) ++ "]"

/-- A level or sample-rate operand: a decimal int32. -/
def intText (w : Word) : String := toString w.toInt

/-- A command as one line of a listing. -/
def instrText : Instr → String
  | .setEn en => "C: SETEN " ++ (if en then "1" else "0")
  | .getEn => "C: GETEN"
  | .setBass v => "C: SETBASS " ++ intText v
  | .setMid v => "C: SETMID " ++ intText v
  | .setTreb v => "C: SETTREB " ++ intText v
  | .getBass => "C: GETBASS"
  | .getMid => "C: GETMID"
  | .getTreb => "C: GETTREB"
  | .rstf => "C: RSTF"
  | .procM fs buf => "P: PROCM fs=" ++ intText fs ++ ", " ++ bufferText buf
  | .procS fs left right => "P: PROCS fs=" ++ intText fs ++ ", " ++ bufferText left ++ ", " ++ bufferText right

/-- A status, with its sub-cause where it has one (R82, R83). -/
def statusText : Status → String
  | .ok => "OK"
  | .outOfRangeClamped => "OutOfRangeClamped"
  | .invalidArgument .nullBuffer => "InvalidArgument(NULL_BUFFER)"
  | .invalidArgument .badRate => "InvalidArgument(BAD_RATE)"
  | .invalidArgument .lenMismatch => "InvalidArgument(LEN_MISMATCH)"
  | .illegalCommand .badOpc => "IllegalCommand(BAD_OPC)"
  | .illegalCommand .badField => "IllegalCommand(BAD_FIELD)"
  | .illegalCommand .wrongPort => "IllegalCommand(WRONG_PORT)"
  | .illegalCommand .badLength => "IllegalCommand(BAD_LENGTH)"

/-- A response as a listing shows it: the status, then the result words. -/
def responseText (st : Status) (results : List Word) : String :=
  "-> " ++ statusText st ++ String.join (results.map (fun w => " " ++ wordText w))

end Sys2Proof.Machine
end

