-- ==== Sys2Proof/Tests/Slice0.lean ====
section
/-! SUPPORT. Small tests, each on one packet, one step or one operation, with what the spec itself expects (the vector is
named before each), and one witness for each obligation with hypotheses: a state and operands that meet all of them. -/

open Sys2Proof Sys2Proof.Machine Sys2Proof.Claims

namespace Sys2Proof.Tests

/-! ### Decoding and encoding -/

/-- V-E1: the words of spec/95_test_vectors.md, one command of every row. -/
def specWords : List (Agent × Packet × Instr) :=
  [(.control, [0x01000000#32], .setEn false),
   (.control, [0x01000001#32], .setEn true),
   (.control, [0x02000000#32], .getEn),
   (.control, [0x10000000#32, 0x00000050#32], .setBass 80#32),
   (.control, [0x10010000#32, 0x00000064#32], .setMid 100#32),
   (.control, [0x10020000#32, 0x00000014#32], .setTreb 20#32),
   (.control, [0x11000000#32], .getBass),
   (.control, [0x11010000#32], .getMid),
   (.control, [0x11020000#32], .getTreb),
   (.control, [0x20000000#32], .rstf),
   (.processing, [0x40000000#32, 0x0000AC44#32, 0x00000002#32, 0x3F000000#32, 0x3E800000#32],
     .procM 44100#32 (some [0x3F000000#32, 0x3E800000#32])),
   (.processing, [0x40000001#32, 0x0000AC44#32], .procM 44100#32 none),
   (.processing, [0x41000000#32, 0x0000BB80#32, 0x00000001#32, 0x00000001#32, 0x3F800000#32, 0xBF800000#32],
     .procS 48000#32 (some [0x3F800000#32]) (some [0xBF800000#32])),
   (.processing, [0x41000002#32, 0x0000BB80#32, 0x00000000#32], .procS 48000#32 (some []) none)]

theorem test_spec_words_decode : specWords.all (fun t => decide (decode t.1 t.2.1 = .cmd t.2.2)) = true := by decide

theorem test_spec_words_encode : specWords.all (fun t => decide (encode t.2.2 = t.2.1)) = true := by decide

/-- V-E2: the packets the decoder refuses, with the low byte of the response each gets. -/
def illegalPackets : List (Agent × Packet × BitVec 8 × IllegalCause) :=
  [(.control, [], 0x00#8, .badLength),
   (.control, [0x03000000#32], 0x03#8, .badOpc),
   (.control, [0x00000000#32], 0x00#8, .badOpc),
   (.processing, [0xFF000000#32], 0xFF#8, .badOpc),
   (.processing, [0x20000000#32], 0x20#8, .wrongPort),
   (.control, [0x40010000#32], 0x40#8, .wrongPort),
   (.control, [0x01000002#32], 0x01#8, .badField),
   (.control, [0x02000001#32], 0x02#8, .badField),
   (.control, [0x10030000#32, 0x00000032#32], 0x10#8, .badField),
   (.control, [0x20010000#32], 0x20#8, .badField),
   (.control, [0x10040000#32, 0x00000032#32], 0x10#8, .badField),
   (.processing, [0x40000004#32, 0x0000AC44#32, 0x00000000#32], 0x40#8, .badField),
   (.control, [0x10000000#32], 0x10#8, .badLength),
   (.control, [0x02000000#32, 0x00000000#32], 0x02#8, .badLength),
   (.processing, [0x40000000#32], 0x40#8, .badLength),
   (.processing, [0x40000000#32, 0x0000AC44#32], 0x40#8, .badLength),
   (.processing, [0x40000001#32, 0x0000AC44#32, 0x00000000#32], 0x40#8, .badLength),
   (.processing, [0x41000000#32, 0x0000BB80#32, 0x00000001#32, 0x00000002#32, 0x3F800000#32, 0xBF800000#32], 0x41#8,
     .badLength)]

theorem test_illegal_packets :
    illegalPackets.all (fun t => decide (decode t.1 t.2.1 = .illegal t.2.2.1 t.2.2.2)) = true := by decide

/-- R52: the header of SETMID, least significant byte first. -/
theorem test_packet_bytes :
    packetBytes [0x10010000#32, 0x00000064#32] = [0x00#8, 0x00#8, 0x01#8, 0x10#8, 0x64#8, 0x00#8, 0x00#8, 0x00#8] := by
  decide

/-- A table word of 64 bits: SETMID 100, its second word in bits 63:32. -/
theorem test_table_word : decodeTableWord 64 0x0000006410010000 = some (.setMid 100#32) := by decide

/-- A table word of 32 bits whose operand words are zeros: PROCM at rate 0 with an empty buffer. -/
theorem test_table_word_zero_operands : decodeTableWord 32 0x40000000 = some (.procM 0#32 (some [])) := by decide

/-- R90. -/
theorem test_text : instrText (.setMid 0xFFFFFFFB#32) = "C: SETMID -5" := by decide +kernel

/-- R90: `0.3f` is the word 0x3E99999A of V-B7. -/
theorem test_literal : literalWord false 3 10 = 0x3E99999A#32 ∧ literalWord true 7 10 = 0xBF333333#32 := by decide +kernel

/-! ### Well-formedness: a buffer longer than its length word can say -/

theorem operandFits_too_long {b : Buffer} (h : b.length = 2 ^ 32) : operandFits (some b) = false := by
  simp [operandFits, bufferFits, Config.maxLen, h]

theorem smoke_procM_too_long : (Instr.procM 44100#32 (some (List.replicate (2 ^ 32) 0#32))).wellFormed = false := by
  simp only [Instr.wellFormed, operandFits_too_long List.length_replicate]

theorem smoke_procS_left_too_long :
    (Instr.procS 44100#32 (some (List.replicate (2 ^ 32) 0#32)) none).wellFormed = false := by
  simp only [Instr.wellFormed, operandFits_too_long List.length_replicate, Bool.false_and]

theorem smoke_procS_right_too_long :
    (Instr.procS 44100#32 none (some (List.replicate (2 ^ 32) 0#32))).wellFormed = false := by
  simp only [Instr.wellFormed, operandFits_too_long List.length_replicate, Bool.and_false]

/-! ### One step each -/

/-- V-C4: the rows of 44100 Hz at levels 80, 50 and 20. -/
def coefs805020 : PerBand Coef :=
  ⟨⟨0x3FF01142EBB5F5F6#64, 0xBFFFBC90DA739293#64, 0x3FEF591AF7CE2DE4#64, 0xBFFFBCEAE26884C3#64, 0x3FEF7AECBF503572#64⟩,
   ⟨0x3FF0000000000000#64, 0xBFFCC9195111671C#64, 0x3FEA290FC59394A5#64, 0xBFFCC9195111671C#64, 0x3FEA290FC59394A5#64⟩,
   ⟨0x3FE309676BA36F66#64, 0xBFC50F814A3D51D9#64, 0x3FBC31A068808E39#64, 0xBFE7399D0F7F0C8B#64, 0x3FD10AB06B467280#64⟩⟩

/-- A block at levels 80, 50, 20 and 44100 Hz with nothing in its history or on its ports. -/
def block (en : Bool) : State where
  en := en
  lvl := ⟨80#7, 50#7, 20#7⟩
  fs := 44100#32
  coef := coefs805020
  hist := zeroHistory
  job := none
  cIn := []
  pIn := []
  cOut := []
  pOut := []
  resetInput := false
  sched := []
  turns := 0
  draws := 0

/-- The state an outcome goes on in, and what is read of it. -/
def answer {α : Type} (o : Host.Outcome State Fault Refusal) (f : State → α) : Option α :=
  match o with
  | .next t => some (f t)
  | .fault _ => none
  | .refused _ => none

/-- One step with a packet waiting on a port. -/
def serve (s : State) (port : Agent) (pkt : Packet) : Host.Outcome State Fault Refusal := step (s.present port pkt)

/-- V-E1. -/
theorem test_setEn : answer (serve (block false) .control [0x01000001#32]) (fun t => (t.en, t.cOut, t.cIn))
    = some (true, [[0x01000000#32]], []) := by decide +kernel

theorem test_getEn : answer (serve (block true) .control [0x02000000#32]) (fun t => t.cOut)
    = some [[0x02000000#32, 0x00000001#32]] := by decide +kernel

/-- V-L1: 150 is stored as 100, with a notice. -/
theorem test_setBass : answer (serve (block true) .control [0x10000000#32, 0x00000096#32]) (fun t => (t.lvl, t.cOut))
    = some (⟨100#7, 50#7, 20#7⟩, [[0x10000001#32, 0x00000064#32]]) := by decide +kernel

/-- V-L1: the least int32 is stored as 0. -/
theorem test_setBass_least : answer (serve (block true) .control [0x10000000#32, 0x80000000#32]) (fun t => (t.lvl, t.cOut))
    = some (⟨0#7, 50#7, 20#7⟩, [[0x10000001#32, 0x00000000#32]]) := by decide +kernel

theorem test_setMid : answer (serve (block true) .control [0x10010000#32, 0xFFFFFFFB#32]) (fun t => (t.lvl, t.cOut))
    = some (⟨80#7, 0#7, 20#7⟩, [[0x10000001#32, 0x00000000#32]]) := by decide +kernel

theorem test_setTreb : answer (serve (block true) .control [0x10020000#32, 0x00000063#32]) (fun t => (t.lvl, t.cOut))
    = some (⟨80#7, 50#7, 99#7⟩, [[0x10000000#32, 0x00000063#32]]) := by decide +kernel

theorem test_getBass : answer (serve (block true) .control [0x11000000#32]) (fun t => t.cOut)
    = some [[0x11000000#32, 0x00000050#32]] := by decide +kernel

theorem test_getMid : answer (serve (block true) .control [0x11010000#32]) (fun t => t.cOut)
    = some [[0x11000000#32, 0x00000032#32]] := by decide +kernel

/-- V-P4. -/
theorem test_getTreb : answer (serve (block true) .control [0x11020000#32]) (fun t => t.cOut)
    = some [[0x11000000#32, 0x00000014#32]] := by decide +kernel

/-- A history with every register different. -/
def fullHistory : PerBand (PerChannel Hist) :=
  ⟨⟨⟨1#64, 2#64, 3#64, 4#64⟩, ⟨5#64, 6#64, 7#64, 8#64⟩⟩, ⟨⟨9#64, 10#64, 11#64, 12#64⟩, ⟨13#64, 14#64, 15#64, 16#64⟩⟩,
   ⟨⟨17#64, 18#64, 19#64, 20#64⟩, ⟨21#64, 22#64, 23#64, 24#64⟩⟩⟩

/-- R155: the history only. -/
theorem test_rstf : answer (serve { block true with hist := fullHistory } .control [0x20000000#32])
      (fun t => (t.hist, t.lvl, t.cOut))
    = some (zeroHistory, ⟨80#7, 50#7, 20#7⟩, [[0x20000000#32]]) := by decide +kernel

/-- V-P2, command 3: disabled, the words come back as they are, and the rate stays. -/
theorem test_procM_disabled :
    answer (serve (block false) .processing
      [0x40000000#32, 0x0000BB80#32, 0x00000003#32, 0x7FC00001#32, 0xFF800000#32, 0x80000000#32])
      (fun t => (t.pOut, t.fs))
    = some ([[0x40000000#32, 0x00000003#32, 0x7FC00001#32, 0xFF800000#32, 0x80000000#32]], 44100#32) := by decide +kernel

/-- R173: enabled, the job starts; at another rate `FS` takes it. -/
theorem test_procM_begins :
    answer (serve (block true) .processing [0x40000000#32, 0x0000BB80#32, 0x00000001#32, 0x3F000000#32])
      (fun t => (t.job, t.fs, t.pIn, t.pOut))
    = some (some ⟨.mono, 1, ⟨[0x3F000000#32], []⟩, ⟨[], []⟩, 0, .left⟩, 48000#32, [], []) := by decide +kernel

/-- V-P2, command 7: two samples left, one right. -/
theorem test_procS_mismatch :
    answer (serve (block false) .processing
      [0x41000000#32, 0x0000BB80#32, 0x00000002#32, 0x00000001#32, 0x3F800000#32, 0x00000000#32, 0x3F800000#32])
      (fun t => t.pOut)
    = some [[0x41000032#32]] := by decide +kernel

/-- V-B3: an absent buffer is found before a bad rate or a bad length. -/
theorem test_procS_absent :
    answer (serve (block true) .processing [0x41000002#32, 0x0000BB80#32, 0x00000000#32]) (fun t => t.pOut)
    = some [[0x41000012#32]] := by decide +kernel

/-- V-E2: an illegal packet is answered and nothing happens. -/
theorem test_illegal : answer (serve (block true) .control [0x40010000#32]) (fun t => (t.cOut, t.cIn, t.pIn))
    = some ([[0x40000033#32]], [], []) := by decide +kernel

/-- The block of V-P3 with its four samples in flight, before the first. -/
def midBuffer : State :=
  { block true with
    job := some ⟨.mono, 4, ⟨[0x3F000000#32, 0x3E800000#32, 0xBE800000#32, 0x00000000#32], []⟩, ⟨[], []⟩, 0, .left⟩ }

/-- V-P3: the first sample, and the history it leaves. -/
theorem test_sample :
    answer (step midBuffer) (fun t => (t.job.map (fun j => (j.output.left, j.idx)), t.hist.bass.left))
    = some (some ([0x3E98EF88#32], 1), ⟨0x3FE0000000000000#64, 0#64, 0x3FE01142EBB5F5F6#64, 0#64⟩) := by decide +kernel

/-- V-P6: with packets on both ports the schedule says which goes. -/
theorem test_schedule :
    answer (step ({ midBuffer with sched := [.control] }.present .control [0x02000000#32]))
      (fun t => (t.cOut, t.job.map (fun j => j.idx), t.sched))
    = some ([[0x02000000#32, 0x00000001#32]], some 0, []) := by decide +kernel

/-- A stereo buffer of one sample whose left word has been done. -/
def midStereo : State :=
  { block true with job := some ⟨.stereo, 1, ⟨[0x3F000000#32], [0x3F000000#32]⟩, ⟨[0x3E98EF88#32], []⟩, 0, .right⟩ }

/-- R176: the right sample goes through the same stages on its own history, and the position goes to the next index. -/
theorem test_sample_right :
    answer (step midStereo) (fun t => (t.job.map (fun j => (j.output.right, j.idx, j.ch)), t.hist.bass.left))
    = some (some ([0x3E98EF88#32], 1, .left), zeroHist) := by decide +kernel

/-- A buffer whose samples are all done. -/
def atEnd : State :=
  { block true with job := some ⟨.stereo, 1, ⟨[0x3F000000#32], [0x3F000000#32]⟩, ⟨[1#32], [2#32]⟩, 1, .left⟩ }

/-- R177: left sequence, then right sequence. -/
theorem test_end : answer (step atEnd) (fun t => (t.job, t.pOut))
    = some (none, [[0x41000000#32, 0x00000001#32, 0x00000001#32, 1#32, 2#32]]) := by decide +kernel

/-- R223. -/
theorem test_hardware_reset :
    answer (step { midBuffer.present .control [0x20000000#32] with resetInput := true })
      (fun t => (t.lvl, t.job, t.cIn, t.cOut))
    = some (⟨50#7, 50#7, 50#7⟩, none, [], []) := by decide +kernel

/-- The step after `withFetchWord` runs the instruction. -/
theorem test_fetch_word : answer (step (State.reset.withFetchWord 64 0x0000009610020000)) (fun t => (t.lvl, t.cOut))
    = some (⟨50#7, 50#7, 100#7⟩, [[0x10000001#32, 0x00000064#32]]) := by decide +kernel

/-! ### Arithmetic -/

/-- V-F3: the impulse through the bass stage at level 100, first and second result. -/
theorem test_stage_impulse :
    let k : Coef := ⟨0x3FF01D2D7048C63E#64, 0xBFFFC4F4D62259DA#64, 0x3FEF52DA3021DA05#64, 0xBFFFC592B8CE4515#64,
      0x3FEF8BF94B5B900A#64⟩
    let y := stageOutput (fun _ => 0#52) k zeroHist 0x3FF0000000000000#64
    y = 0x3FF01D2D7048C63E#64 ∧
      stageOutput (fun _ => 0#52) k (shiftHist zeroHist 0x3FF0000000000000#64 y) 0#64 = 0x3F8D471B9F875300#64 := by
  decide +kernel

/-- V-C3, V-C4: one row of each band. -/
theorem test_compile_mid_100 : compileWith defaultParams .mid 100 48000#32 =
    ⟨0x3FF21BDAA8C6B8DC#64, 0xBFFE52D3B0A14B18#64, 0x3FE8F3EA725486D6#64, 0xBFFE52D3B0A14B18#64, 0x3FED2B9FC3E1F88F#64⟩ := by
  decide +kernel

theorem test_compile_treble_0 : compileWith defaultParams .treble 0 44100#32 =
    ⟨0x3FDAF8D0967D8D12#64, 0xBFA925A17AFA913B#64, 0x3FB2C50ED04959E7#64, 0xBFEB8345D498560F#64, 0x3FD38BEBC4613D80#64⟩ := by
  decide +kernel

theorem test_compile_bass_neutral : compileWith defaultParams .bass 50 44100#32 =
    ⟨0x3FF0000000000000#64, 0xBFFFAD78CFA08C98#64, 0x3FEF5C9713E37CCF#64, 0xBFFFAD78CFA08C98#64, 0x3FEF5C9713E37CCF#64⟩ := by
  decide +kernel

/-- V-B6: twice the largest binary32 number is an infinity; a half of the smallest subnormal is zero. -/
theorem test_narrowing : d2f 0#23 0x47FFFFFFE0000000#64 = 0x7F800000#32 ∧ d2f 0#23 0xC7FFFFFFE0000000#64 = 0xFF800000#32 ∧
    d2f 0#23 0x3690000000000000#64 = 0x00000000#32 := by decide +kernel

/-- V-B5: a subnormal sample is not flushed. -/
theorem test_widening : f2d 0#52 0x00000001#32 = 0x36A0000000000000#64 ∧ f2d 0#52 0x7F800000#32 = 0x7FF0000000000000#64 := by
  decide +kernel

/-! ### Witnesses: hypotheses that something meets, all together -/

theorem witness_DecodeOfEncodeIsTheCommand :
    (Instr.procS 48000#32 (some [1#32, 2#32]) (some [])).wellFormed = true := by decide

theorem witness_EncodeOfDecodeIsThePacket :
    decode .processing [0x41000002#32, 48000#32, 1#32, 7#32] = .cmd (.procS 48000#32 (some [7#32]) none) := by decide

/-- Every clause: an unknown code just above a known one, the other port, a field, a length one short, no failure. -/
theorem witness_DecoderReportsTheFirstFailingCheck :
    opcBits 0x42000000#32 ∉ knownOpcs ∧
    (opcBits 0x41000000#32 ∈ knownOpcs ∧ ¬ (opcBits 0x41000000#32 ∈ [0x40#8, 0x41#8] ↔ Agent.control = .processing)) ∧
    (opcBits 0x10030000#32 ∈ knownOpcs ∧ (opcBits 0x10030000#32 ∈ [0x40#8, 0x41#8] ↔ Agent.control = .processing) ∧
      BadFields 0x10030000#32) ∧
    (opcBits 0x40000000#32 ∈ knownOpcs ∧ (opcBits 0x40000000#32 ∈ [0x40#8, 0x41#8] ↔ Agent.processing = .processing) ∧
      ¬ BadFields 0x40000000#32 ∧
      need 0x40000000#32 [0x40000000#32, 5#32, 1#32] ≠ some ([5#32, 1#32].length + 1) ∧
      need 0x40000000#32 [0x40000000#32, 5#32, 1#32, 9#32] = some ([5#32, 1#32, 9#32].length + 1)) := by
  simp only [BadFields]; decide

theorem witness_HeaderSelectsTheCommandsRow :
    decode .control [0x01000001#32] = .cmd (.setEn true) ∧
    rows[10]? = some ⟨.processing, 0x41000000#32, 0xFFFFFFFC#32⟩ ∧
    Selects 0x41000003#32 ⟨.processing, 0x41000000#32, 0xFFFFFFFC#32⟩ := by
  simp only [Selects]; decide

/-- A packet on each port. -/
def bothPorts : State := (midBuffer.present .control [0x02000000#32]).present .processing [0x40000001#32, 1#32]

theorem witness_TheAgentThatGoesHasAnEnabledStep :
    ((block true).cIn = [] ∧ (block true).job = none ∧ (block true).pIn = []) ∧
    (((block true).present .control []).cIn ≠ [] ∧ ((block true).present .control []).job = none ∧
      ((block true).present .control []).pIn = []) ∧
    (midBuffer.cIn = [] ∧ midBuffer.job ≠ none) ∧
    (((block true).present .processing []).cIn = [] ∧ ((block true).present .processing []).pIn ≠ []) ∧
    (bothPorts.cIn ≠ [] ∧ bothPorts.job ≠ none ∧ bothPorts.sched = []) ∧
    ({ bothPorts with sched := [.processing] }.cIn ≠ [] ∧ { bothPorts with sched := [.processing] }.pIn ≠ [] ∧
      { bothPorts with sched := [.processing] }.sched = .processing :: []) := by decide

/-- Whatever the block and the command, there is such a state: the command at the head of its port and next. -/
theorem witness_StepRunsTheDecodedCommand :
    let s := (block true).withCommand .processing [0x40000001#32, 44100#32]
    s.resetInput = false ∧ s.pick = some (.processing, s) ∧ AtHead s .processing [0x40000001#32, 44100#32] ∧
      decode .processing [0x40000001#32, 44100#32] = .cmd (.procM 44100#32 none) :=
  ⟨rfl, rfl, ⟨rfl, [], rfl⟩, by decide⟩

theorem witness_StepRunsTheDecodedCommand_control :
    let s := { midBuffer with sched := [.control] }.present .control [0x20000000#32]
    s.resetInput = false ∧ s.pick = some (.control, midBuffer.present .control [0x20000000#32]) ∧
      AtHead (midBuffer.present .control [0x20000000#32]) .control [0x20000000#32] ∧
      decode .control [0x20000000#32] = .cmd .rstf :=
  ⟨rfl, rfl, ⟨[], rfl⟩, by decide⟩

theorem witness_IdleBlockDoesNotChange : (block true).resetInput = false ∧ (block true).Idle := ⟨rfl, rfl, rfl, rfl⟩

theorem witness_HardwareResetDiscardsCommands :
    { bothPorts with resetInput := true }.resetInput = true ∧ bothPorts.job ≠ none ∧ bothPorts.cIn ≠ [] := by decide

theorem witness_IllegalPacketChangesNothing :
    let s := (block true).present .control [0x40000000#32]
    let t := (block true).present .processing [0x40000002#32, 1#32]
    (s.resetInput = false ∧ s.pick = some (.control, s) ∧ AtHead s .control [0x40000000#32] ∧
      decode .control [0x40000000#32] = .illegal 0x40#8 .wrongPort) ∧
    (t.resetInput = false ∧ t.pick = some (.processing, t) ∧ AtHead t .processing [0x40000002#32, 1#32] ∧
      decode .processing [0x40000002#32, 1#32] = .illegal 0x40#8 .badField) :=
  ⟨⟨rfl, rfl, ⟨[], rfl⟩, by decide⟩, ⟨rfl, rfl, ⟨rfl, [], rfl⟩, by decide⟩⟩

/-- A reset of the history, waiting behind the setter, is served between. -/
theorem witness_GetAfterSetAnswersTheClampedValue : ∃ t u,
    exec (.setBass 7#32) { block true with cIn := [[0x10000000#32, 7#32], [0x20000000#32]] } = .next t ∧
    Relation.ReflTransGen (StepsWithoutSetter .bass) t u ∧ u.cIn = [] :=
  ⟨_, _, rfl, .single ⟨rfl, rfl, by
    intro pkt rest v h hd
    obtain ⟨rfl, rfl⟩ := List.cons.inj h
    cases hd⟩, rfl⟩

theorem witness_ClampIsMonotoneAndIdempotent : (-1 : Int) < 0 ∧ (100 : Int) < 101 ∧ (0 : Int) ≤ 0 ∧ (0 : Int) ≤ 100 ∧ (-1 : Int) ≤ 101 := by decide

/-- Zeros of either sign in a channel's histories. -/
def zeroChannel : PerBand Hist :=
  bandAll (fun _ => ⟨0x8000000000000000#64, 0#64, 0x8000000000000000#64, 0#64⟩)

theorem witness_SilenceInGivesSilenceOut :
    FiniteCoefs coefs805020 ∧ ZeroHists zeroChannel ∧ isZero64 0x8000000000000000#64 ∧
    ∀ w ∈ [0x00000000#32, 0x80000000#32], isZero32 w := by
  refine ⟨?_, ?_, .inr rfl, ?_⟩
  · intro b
    cases b <;> exact ⟨⟨_, _, rfl⟩, ⟨_, _, rfl⟩, ⟨_, _, rfl⟩, ⟨_, _, rfl⟩, ⟨_, _, rfl⟩⟩
  · intro b
    cases b <;> exact ⟨.inr rfl, .inl rfl, .inr rfl, .inl rfl⟩
  · simp [isZero32]

/-- A NaN. -/
def someNan : F64 := 0x7FF8000000000000#64

theorem witness_NanPoisonsItsChannel :
    isNan64 someNan ∧
    isNan64 (PerBand.mk (Hist.mk 0#64 0#64 someNan 0#64) zeroHist zeroHist).bass.y1 := by
  simp only [isNan64]; decide +kernel

theorem witness_NeutralCoefficientsHaveTheirForm :
    Elementary.Lawful ⟨fun _ => Config.one64, fun _ => Config.one64, fun _ => Config.one64⟩ ∧ 0 < (1#32).toInt :=
  ⟨Elementary.constants_lawful, by decide⟩

/-- Lawful functions, the spec's default constants, a rate at which the treble band's w0 lies below pi. -/
theorem witness_NeutralLawHoldsForEveryBandConstants :
    let P := Config.defaults ⟨fun _ => Config.one64, fun _ => Config.one64, fun _ => Config.one64⟩ (fun _ _ _ _ => 0#52)
    P.elementary.Lawful ∧ P.gainRangeDb.toNat < 0x7FF0000000000000 ∧ NotTiny P.sShelf ∧ NotTiny P.qMid ∧
    0 < (angularFrequency P (P.nan .treble 50 44100#32) .treble 44100#32).toNat ∧
    (angularFrequency P (P.nan .treble 50 44100#32) .treble 44100#32).toNat < Config.pi64.toNat :=
  ⟨Elementary.constants_lawful, by decide +kernel, by unfold NotTiny; decide +kernel, by unfold NotTiny; decide +kernel,
   by decide +kernel, by decide +kernel⟩

theorem witness_NeutralLawHoldsForEveryBandConstants_edge :
    NotTiny 0x0170000000000000#64 ∧ NotTiny 0x7FEFFFFFFFFFFFFF#64 ∧ (0#64).toNat < 0x7FF0000000000000 := by
  unfold NotTiny; decide

/-- Rate 0 is the greatest that is refused. -/
theorem witness_InvalidBufferCommandsAnswerInOrder :
    (block true).job = none ∧ (0#32).toInt ≤ 0 ∧ (none : Option Buffer) = none ∧ 0 < (1#32).toInt ∧
      [1#32].length ≠ ([] : Buffer).length := by decide

theorem witness_ZeroLengthHasNoSideEffects : (block true).job = none ∧ 0 < (1#32).toInt := by decide

theorem witness_DisabledIsExactPassThrough :
    (block false).job = none ∧ 0 < (0x7FFFFFFF#32).toInt ∧ (block false).en = false ∧
      [1#32].length = [2#32].length := by decide

theorem witness_EnabledCommandStartsItsJob :
    (block true).job = none ∧ 0 < (48000#32).toInt ∧ (block true).en = true ∧ [1#32] ≠ [] ∧
      [1#32].length = [2#32].length := by decide

theorem witness_BufferCommandWaitsForTheJob :
    midBuffer.job = some ⟨.mono, 4, ⟨[0x3F000000#32, 0x3E800000#32, 0xBE800000#32, 0x00000000#32], []⟩, ⟨[], []⟩, 0, .left⟩ :=
  rfl

/-- Jobs at the positions where the cases of a step meet. -/
def monoLast : Job := ⟨.mono, 2, ⟨[1#32, 2#32], []⟩, ⟨[3#32], []⟩, 1, .left⟩
def monoEnd : Job := ⟨.mono, 2, ⟨[1#32, 2#32], []⟩, ⟨[3#32, 4#32], []⟩, 2, .left⟩
def stereoLeft : Job := ⟨.stereo, 1, ⟨[1#32], [2#32]⟩, ⟨[], []⟩, 0, .left⟩
def stereoRight : Job := ⟨.stereo, 1, ⟨[1#32], [2#32]⟩, ⟨[3#32], []⟩, 0, .right⟩
def stereoEnd : Job := ⟨.stereo, 1, ⟨[1#32], [2#32]⟩, ⟨[3#32], [4#32]⟩, 1, .left⟩

theorem valid_jobs : monoLast.Valid ∧ monoEnd.Valid ∧ stereoLeft.Valid ∧ stereoRight.Valid ∧ stereoEnd.Valid := by
  refine ⟨?_, ?_, ?_, ?_, ?_⟩ <;> constructor <;> decide

/-- The block with a job in flight. -/
def during (j : Job) : State := { block true with job := some j }

theorem pick_during (j : Job) : (during j).resetInput = false ∧ (during j).pick = some (.processing, during j) ∧
    (during j).job = some j := ⟨rfl, rfl, rfl⟩

theorem witness_SampleStepFiltersOneWord :
    ((during monoLast).pick = some (.processing, during monoLast) ∧ monoLast.Valid ∧ monoLast.idx < monoLast.n ∧
      monoLast.kind = .mono) ∧
    ((during stereoLeft).pick = some (.processing, during stereoLeft) ∧ stereoLeft.Valid ∧
      stereoLeft.idx < stereoLeft.n ∧ stereoLeft.kind = .stereo ∧ stereoLeft.ch = .left) ∧
    ((during stereoRight).pick = some (.processing, during stereoRight) ∧ stereoRight.Valid ∧
      stereoRight.idx < stereoRight.n ∧ stereoRight.kind = .stereo ∧ stereoRight.ch = .right) :=
  ⟨⟨(pick_during _).2.1, valid_jobs.1, by decide, rfl⟩, ⟨(pick_during _).2.1, valid_jobs.2.2.1, by decide, rfl, rfl⟩,
   ⟨(pick_during _).2.1, valid_jobs.2.2.2.1, by decide, rfl, rfl⟩⟩

theorem witness_EndStepDeliversWholeOutputs :
    ((during monoEnd).pick = some (.processing, during monoEnd) ∧ monoEnd.Valid ∧ monoEnd.idx = monoEnd.n ∧
      monoEnd.kind = .mono) ∧
    ((during stereoEnd).pick = some (.processing, during stereoEnd) ∧ stereoEnd.Valid ∧ stereoEnd.idx = stereoEnd.n ∧
      stereoEnd.kind = .stereo) :=
  ⟨⟨(pick_during _).2.1, valid_jobs.2.1, rfl, rfl⟩, ⟨(pick_during _).2.1, valid_jobs.2.2.2.2, rfl, rfl⟩⟩

theorem quiet_block (pkts : List Packet) : Quiet { block true with pIn := pkts } := ⟨rfl, rfl, rfl⟩

theorem witness_MonoCommandIsTheFoldOfItsWords :
    let s := { block true with pIn := [encode (.procM 48000#32 (some [1#32, 2#32]))] }
    Quiet s ∧ s.en = true ∧ 0 < (48000#32).toInt ∧ [1#32, 2#32] ≠ [] ∧ [1#32, 2#32].length ≤ 2 ^ 32 - 1 ∧
      s.pIn = encode (.procM 48000#32 (some [1#32, 2#32])) :: [] :=
  ⟨quiet_block _, rfl, by decide, by decide, by decide, rfl⟩

theorem witness_StereoCommandIsTheFoldOfItsWords :
    let s := { block true with pIn := [encode (.procS 48000#32 (some [1#32]) (some [2#32])), []] }
    Quiet s ∧ s.en = true ∧ 0 < (48000#32).toInt ∧ [1#32] ≠ [] ∧ [1#32].length = [2#32].length ∧
      [1#32].length ≤ 2 ^ 32 - 1 ∧ s.pIn = encode (.procS 48000#32 (some [1#32]) (some [2#32])) :: [[]] :=
  ⟨quiet_block _, rfl, by decide, by decide, rfl, by decide, rfl⟩

theorem witness_SplittingAMonoBufferChangesNothing :
    Quiet (block true) ∧ (block true).en = true ∧ 0 < (44100#32).toInt ∧ ([1#32] ++ [2#32, 3#32]).length ≤ 2 ^ 32 - 1 :=
  ⟨quiet_block _, rfl, by decide, by decide⟩

theorem witness_SplittingAStereoBufferChangesNothing :
    Quiet (block true) ∧ (block true).en = true ∧ 0 < (44100#32).toInt ∧ [1#32].length = [4#32].length ∧
      [2#32, 3#32].length = [5#32, 6#32].length ∧ ([1#32] ++ [2#32, 3#32]).length ≤ 2 ^ 32 - 1 :=
  ⟨quiet_block _, rfl, by decide, rfl, rfl, by decide⟩

/-- The block with something in the left channel's history, and with something in the right channel's. -/
def leftFull : State :=
  { block true with hist := ⟨⟨⟨1#64, 0#64, 0#64, 0#64⟩, zeroHist⟩, ⟨zeroHist, zeroHist⟩, ⟨zeroHist, zeroHist⟩⟩ }
def rightFull : State :=
  { block true with hist := ⟨⟨zeroHist, ⟨1#64, 0#64, 0#64, 0#64⟩⟩, ⟨zeroHist, zeroHist⟩, ⟨zeroHist, zeroHist⟩⟩ }

theorem witness_StereoChannelsAreIndependent :
    (Quiet (block true) ∧ (block true).en = true ∧ 0 < (48000#32).toInt ∧ [1#32] ≠ [] ∧
      [1#32].length = [2#32].length ∧ [3#32].length = [1#32].length ∧ [1#32].length ≤ 2 ^ 32 - 1) ∧
    (Quiet rightFull ∧ rightFull.en = true ∧ rightFull.lvl = (block true).lvl ∧ rightFull.fs = (block true).fs ∧
      rightFull.coef = (block true).coef ∧ leftHist rightFull = leftHist (block true) ∧
      rightHist rightFull ≠ rightHist (block true)) ∧
    (Quiet leftFull ∧ leftFull.en = true ∧ leftFull.lvl = (block true).lvl ∧ leftFull.fs = (block true).fs ∧
      leftFull.coef = (block true).coef ∧ rightHist leftFull = rightHist (block true) ∧
      leftHist leftFull ≠ leftHist (block true)) :=
  ⟨⟨⟨rfl, rfl, rfl⟩, rfl, by decide, by decide, rfl, rfl, by decide⟩,
   ⟨⟨rfl, rfl, rfl⟩, rfl, rfl, rfl, rfl, rfl, by decide⟩, ⟨⟨rfl, rfl, rfl⟩, rfl, rfl, rfl, rfl, rfl, by decide⟩⟩

/-- A valid state: the coefficients those of its levels, a job in flight, commands waiting. -/
def validState : State :=
  { bothPorts with
    job := some stereoRight
    coef := ⟨compile .bass 80 44100#32, compile .mid 50 44100#32, compile .treble 20 44100#32⟩ }

theorem validState_valid : validState.Valid where
  level_le := by intro b; cases b <;> decide
  coef_eq := by intro b; cases b <;> rfl
  fs_pos := by decide
  job_valid := by
    intro j h
    have : j = stereoRight := (Option.some.inj h).symm
    exact this ▸ valid_jobs.2.2.2.1

theorem witness_EveryStepKeepsTheInvariants : ∃ t,
    { validState with cIn := [] }.Valid ∧ step { validState with cIn := [] } = .next t ∧ t ≠ { validState with cIn := [] } :=
  ⟨_, ⟨validState_valid.level_le, validState_valid.coef_eq, validState_valid.fs_pos, validState_valid.job_valid⟩, rfl,
   fun h => Nat.succ_ne_zero _ (congrArg State.draws h)⟩

theorem witness_OnlySetEnChangesEnable : ∃ t,
    ((block false).present .control [0x01000001#32]).resetInput = false ∧
    step ((block false).present .control [0x01000001#32]) = .next t ∧
    t.en ≠ ((block false).present .control [0x01000001#32]).en := ⟨_, rfl, rfl, by decide⟩

theorem witness_OnlyItsSetterChangesALevel : ∃ t,
    ((block true).present .control [0x10010000#32, 3#32]).resetInput = false ∧
    step ((block true).present .control [0x10010000#32, 3#32]) = .next t ∧
    bandGet t.lvl .mid ≠ bandGet ((block true).present .control [0x10010000#32, 3#32]).lvl .mid := ⟨_, rfl, rfl, by decide⟩

/-- No word is its own complement, so these coefficients are none that Compile gives for level 3 at 44100, or for level
80 at 48000. -/
def otherCoefs (k : Coef) : PerBand Coef :=
  ⟨⟨~~~ k.b0, k.b1, k.b2, k.a1, k.a2⟩, k, k⟩

theorem not_complement (w : F64) : w ≠ ~~~ w := by
  intro h
  have := congrArg (fun v => v.getLsbD 0) h
  simp at this

theorem witness_OnlyCompilationChangesCoefficients_setter : ∃ t,
    let s := { (block true).present .control [0x10000000#32, 3#32] with coef := otherCoefs (compile .bass 3 44100#32) }
    s.resetInput = false ∧ step s = .next t ∧ bandGet t.coef .bass ≠ bandGet s.coef .bass :=
  ⟨_, rfl, rfl, fun h => not_complement _ (congrArg Coef.b0 h)⟩

theorem witness_OnlyCompilationChangesCoefficients_rate : ∃ t,
    let s := { (block true).present .processing [0x40000000#32, 48000#32, 1#32, 0#32] with
      coef := otherCoefs (compile .bass 80 48000#32) }
    s.resetInput = false ∧ step s = .next t ∧ bandGet t.coef .bass ≠ bandGet s.coef .bass :=
  ⟨_, rfl, rfl, fun h => not_complement _ (congrArg Coef.b0 h)⟩

theorem witness_OnlyBufferCommandsChangeTheRate : ∃ t,
    let s := (block true).present .processing [0x41000000#32, 48000#32, 1#32, 1#32, 0#32, 0#32]
    s.resetInput = false ∧ step s = .next t ∧ t.fs ≠ s.fs := ⟨_, rfl, rfl, by decide⟩

theorem witness_OnlySamplesAndRstfChangeTheHistory_rstf : ∃ t,
    let s := { (block true).present .control [0x20000000#32] with hist := fullHistory }
    s.resetInput = false ∧ step s = .next t ∧ t.hist ≠ s.hist := ⟨_, rfl, rfl, by decide⟩

theorem witness_OnlySamplesAndRstfChangeTheHistory_sample : ∃ t,
    midBuffer.resetInput = false ∧ step midBuffer = .next t ∧ t.hist ≠ midBuffer.hist :=
  ⟨_, rfl, rfl, fun h => absurd (congrArg (fun x => x.bass.left.x1) h) (by decide +kernel)⟩

theorem witness_ControlCommandsLeaveTheJob : ∃ t,
    (Instr.setTreb 100#32).port = .control ∧ exec (.setTreb 100#32) bothPorts = .next t := ⟨_, rfl, rfl⟩

theorem witness_OneResponseForEachCommand : ∃ t,
    { bothPorts with sched := [.control] }.resetInput = false ∧ step { bothPorts with sched := [.control] } = .next t :=
  ⟨_, rfl, rfl⟩

theorem witness_EveryCommandIsAnsweredInBoundedSteps : validState.Valid ∧ validState.resetInput = false :=
  ⟨validState_valid, rfl⟩

/-- Two states that differ in the payload of a NaN and in where the next open bits are drawn. -/
def nanState (payload : F64) (d : Nat) : State :=
  { midBuffer with
    hist := ⟨⟨⟨payload, 0#64, 0#64, 0#64⟩, zeroHist⟩, ⟨zeroHist, zeroHist⟩, ⟨zeroHist, zeroHist⟩⟩
    draws := d }

theorem witness_NanBitsAreNeverRead : ∃ s' t',
    (nanState 0x7FF8000000000000#64 0).SameButNans (nanState 0xFFF8000000000001#64 5) ∧
    nanState 0x7FF8000000000000#64 0 ≠ nanState 0xFFF8000000000001#64 5 ∧
    step (nanState 0x7FF8000000000000#64 0) = .next s' ∧ step (nanState 0xFFF8000000000001#64 5) = .next t' := by
  refine ⟨_, _, ⟨rfl, ?_, ⟨rfl, .nil, .nil⟩, .nil⟩, by decide, rfl, rfl⟩
  intro c b
  have zero : SameHist zeroHist zeroHist := ⟨.inl rfl, .inl rfl, .inl rfl, .inl rfl⟩
  cases c <;> cases b
  · exact ⟨.inr (by simp only [isNan64]; decide +kernel), .inl rfl, .inl rfl, .inl rfl⟩
  all_goals exact zero

theorem witness_ArithmeticRoundsToNearestEven :
    units64 0x8000000000000001#64 = some (-1) ∧ units64 0x0000000000000003#64 = some 3 ∧ (3 : Int) ≠ 0 := by decide +kernel

theorem witness_SquareRootRoundsToNearest : units64 0x0000000000000001#64 = some 1 ∧ (0 : Int) < 1 := by decide +kernel

theorem witness_InvalidOperationsGiveQuietNans :
    units64 0x8000000000000001#64 = some (-1) ∧ (-1 : Int) < 0 ∧ isNan64 someNan := by
  simp only [isNan64]; decide +kernel

theorem witness_SpecialValuesFollowTheStandard :
    units64 0x0000000000000001#64 = some 1 ∧ (1 : Int) ≠ 0 ∧ units64 0x8000000000000001#64 = some (-1) ∧
    (1 : Int) + -1 = 0 ∧ units64 0x8000000000000000#64 = some 0 ∧ (0 : Int) + 0 = 0 := by decide +kernel

theorem witness_ConversionsBetweenTheFormats :
    units32 0x80000001#32 = some (-1) ∧ isNan32 0x7F800001#32 ∧ units64 0x0000000000000001#64 = some 1 ∧ isNan64 someNan := by
  simp only [isNan32, isNan64]; decide +kernel

theorem witness_NarrowingUndoesWidening : ¬ isNan32 0xFF800000#32 := by simp only [isNan32]; decide +kernel

theorem witness_IntegersConvertExactly : (-(2 ^ 53 - 1) : Int).natAbs < 2 ^ 53 := by decide

end Sys2Proof.Tests
end

section
/-! PROOFS. Rounding in a format with `fb` fraction bits (R10, R13): codes are the exponent and fraction fields read as
one number. `unitsOf` is strictly monotone on codes, and `roundBits` finds the code of the nearest number. -/

namespace Sys2Proof.Proofs

open Sys2Proof Sys2Proof.Machine

/-! ### Codes and their units -/

/-- A code is a shift `k` and a significand `q`, worth `q·2^k`; `q = 2^(fb+1)` is the carry into the next exponent. -/
theorem unitsOf_shift_add {fb k q : Nat} (hk : k = 0 ∨ 2 ^ fb ≤ q) (hq : q ≤ 2 ^ (fb + 1)) :
    unitsOf fb (k * 2 ^ fb + q) = q * 2 ^ k := by
  have hp : 0 < 2 ^ fb := Nat.two_pow_pos fb
  have hdiv : (k * 2 ^ fb + q) / 2 ^ fb = k + q / 2 ^ fb := by
    rw [Nat.add_comm, Nat.add_mul_div_right _ _ hp, Nat.add_comm]
  have hmod : (k * 2 ^ fb + q) % 2 ^ fb = q % 2 ^ fb := Nat.mul_add_mod' ..
  rw [pow_succ] at hq
  simp only [unitsOf, hdiv, hmod]
  obtain hlow | hmid | rfl : q < 2 ^ fb ∨ (2 ^ fb ≤ q ∧ q < 2 ^ fb * 2) ∨ q = 2 ^ fb * 2 := by omega
  · obtain rfl : k = 0 := by omega
    simp [Nat.div_eq_of_lt hlow]
  · have h1 : q / 2 ^ fb = 1 := Nat.div_eq_of_lt_le (by omega) (by omega)
    have h2 : 2 ^ fb + q % 2 ^ fb = q := by
      rw [Nat.mod_eq_sub_mod hmid.1, Nat.mod_eq_of_lt (by omega)]; omega
    simp [h1, h2]
  · simp [Nat.mul_div_cancel_left 2 hp, pow_succ, Nat.mul_assoc, Nat.mul_comm 2]

theorem unitsOf_of_eq {fb b : Nat} (k q : Nat) (hb : b = k * 2 ^ fb + q) (hk : 2 ^ fb ≤ q) (hq : q ≤ 2 ^ (fb + 1)) :
    unitsOf fb b = q * 2 ^ k := hb ▸ unitsOf_shift_add (.inr hk) hq

theorem exists_shift_add (fb b : Nat) :
    ∃ k q, b = k * 2 ^ fb + q ∧ (k = 0 ∨ 2 ^ fb ≤ q) ∧ q < 2 ^ (fb + 1) := by
  have hp : 0 < 2 ^ fb := Nat.two_pow_pos fb
  have hb : b / 2 ^ fb * 2 ^ fb + b % 2 ^ fb = b := Nat.div_add_mod' b _
  have hr : b % 2 ^ fb < 2 ^ fb := Nat.mod_lt b hp
  rw [pow_succ]
  cases hE : b / 2 ^ fb with
  | zero => exact ⟨0, b, by omega, .inl rfl, by rw [hE] at hb; omega⟩
  | succ k =>
    refine ⟨k, 2 ^ fb + b % 2 ^ fb, ?_, .inr (by omega), by omega⟩
    rw [hE, Nat.succ_mul] at hb
    omega

theorem unitsOf_strictMono (fb : Nat) : StrictMono (unitsOf fb) := by
  refine strictMono_nat_of_lt_succ fun b => ?_
  obtain ⟨k, q, rfl, hk, hq⟩ := exists_shift_add fb b
  rw [Nat.add_assoc, unitsOf_shift_add hk hq.le, unitsOf_shift_add (by omega) hq]
  exact Nat.mul_lt_mul_of_pos_right (Nat.lt_succ_self q) (Nat.two_pow_pos k)

/-- A number of the format, of either sign, is a multiple of `2^k` or lies below the numbers of shift `k`. -/
theorem signedUnits_dvd_or_lt (fb k : Nat) (s : Bool) (b : Nat) :
    (2 ^ k : Int) ∣ signedUnits s (unitsOf fb b) ∨ signedUnits s (unitsOf fb b) < 2 ^ fb * 2 ^ k := by
  obtain ⟨j, q, rfl, hj, hq⟩ := exists_shift_add fb b
  rw [unitsOf_shift_add hj hq.le]
  rcases Nat.lt_or_ge j k with hjk | hkj
  · right
    have hlt : q * 2 ^ j < 2 ^ fb * 2 ^ k := calc
      q * 2 ^ j < 2 ^ (fb + 1) * 2 ^ j := Nat.mul_lt_mul_of_pos_right hq (Nat.two_pow_pos j)
      _ = 2 ^ fb * 2 ^ (j + 1) := by ring
      _ ≤ 2 ^ fb * 2 ^ k := Nat.mul_le_mul_left _ (Nat.pow_le_pow_right (by omega) hjk)
    zify at hlt
    have h0 : (0 : Int) ≤ q * 2 ^ j := by positivity
    cases s
    · simpa [signedUnits] using hlt
    · simp only [signedUnits, if_true]; push_cast; linarith
  · left
    have hdvd : (2 ^ k : Int) ∣ ((q * 2 ^ j : Nat) : Int) := by
      push_cast; exact Dvd.dvd.mul_left (pow_dvd_pow 2 hkj) _
    cases s
    · exact hdvd
    · exact (Int.dvd_neg).2 hdvd

theorem neg_signedUnits (s : Bool) (m : Nat) : -signedUnits s m = signedUnits (!s) m := by
  cases s <;> simp [signedUnits]

/-! ### Which of two numbers rounding prefers -/

/-- `u` is nearer to `num/den` than `v`, or as near, with `even` to settle the tie: the clause of `RoundsTo64` and
`RoundsTo32`. -/
def Preferred (num : Int) (den : Nat) (even : Prop) (u v : Int) : Prop :=
  (u * den - num).natAbs < (v * den - num).natAbs ∨ ((u * den - num).natAbs = (v * den - num).natAbs ∧ even)

theorem preferred_neg {num : Int} {den : Nat} {even : Prop} {u v : Int} :
    Preferred (-num) den even (-u) v ↔ Preferred num den even u (-v) := by
  have hu : (-u * den - -num).natAbs = (u * den - num).natAbs := by
    rw [← Int.natAbs_neg]; congr 1; ring
  have hv : (v * den - -num).natAbs = (-v * den - num).natAbs := by
    rw [← Int.natAbs_neg]; congr 1; ring
  simp only [Preferred, hu, hv]

theorem two_mul_mod_of_midpoint {num den a : Nat} (hd : 0 < den) (h : 2 * num = (2 * a + 1) * den) :
    2 * (num % den) = den := by
  have hsplit : 2 * num = 2 * (a * den) + den := by rw [h]; ring
  obtain ⟨r, rfl⟩ : ∃ r, num = a * den + r := ⟨num - a * den, by omega⟩
  rw [Nat.mul_add_mod', Nat.mod_eq_of_lt (by omega)]
  omega

/-- Between integers, rounding a fraction prefers its result. -/
theorem roundDiv_preferred {num den : Nat} (hd : 0 < den) {c : Int} (hc : c ≠ roundDiv num den) :
    Preferred num den (roundDiv num den % 2 = 0) (roundDiv num den) c := by
  obtain ⟨hlo, hhi⟩ := roundDiv_nearest (num := num) hd
  have htie := roundDiv_tie (num := num) (den := den)
  generalize roundDiv num den = q at *
  rcases lt_or_gt_of_ne hc with hlt | hgt
  · have hfar : c * den ≤ q * den - den := by nlinarith
    rcases eq_or_ne (2 * (q * den)) (2 * num + den) with hmid | hmid
    · have heven : q % 2 = 0 := by
        refine htie (two_mul_mod_of_midpoint (a := q - 1) hd ?_)
        cases q with
        | zero => omega
        | succ p => rw [Nat.add_sub_cancel]; linarith
      unfold Preferred; omega
    · left; omega
  · have hfar : q * den + den ≤ c * den := by nlinarith
    rcases eq_or_ne (2 * num) (2 * (q * den) + den) with hmid | hmid
    · have heven : q % 2 = 0 := htie (two_mul_mod_of_midpoint (a := q) hd (by rw [hmid]; ring))
      unfold Preferred; omega
    · left; omega

theorem roundDiv_natAbs_le {num den : Nat} (hd : 0 < den) (c : Int) :
    ((roundDiv num den : Int) * den - num).natAbs ≤ (c * den - num).natAbs := by
  rcases eq_or_ne c (roundDiv num den) with rfl | hne
  · exact le_rfl
  · rcases roundDiv_preferred hd hne with hlt | heq
    · exact hlt.le
    · exact heq.1.le

theorem roundDiv_le {num den c : Nat} (hd : 0 < den) (h : num ≤ c * den) : roundDiv num den ≤ c := by
  have hhi := (roundDiv_nearest (num := num) hd).2
  have hscaled : 2 * roundDiv num den * den ≤ (2 * c + 1) * den := by nlinarith
  have := Nat.le_of_mul_le_mul_right hscaled hd
  omega

theorem le_roundDiv {num den c : Nat} (hd : 0 < den) (h : c * den ≤ num) : c ≤ roundDiv num den := by
  have hlo := (roundDiv_nearest (num := num) hd).1
  have hscaled : 2 * c * den ≤ (2 * roundDiv num den + 1) * den := by nlinarith
  have := Nat.le_of_mul_le_mul_right hscaled hd
  omega

/-! ### The nearest code -/

/-- The shift `roundBits` takes is 0 or the one that leaves `fb + 1` significant bits. -/
theorem roundBits_shift (fb num : Nat) {den : Nat} (hd : 0 < den) :
    ∃ k, roundBits fb num den = k * 2 ^ fb + roundDiv num (den * 2 ^ k) ∧
      (k = 0 ∨ 2 ^ fb * (den * 2 ^ k) ≤ num) ∧ num < 2 ^ (fb + 1) * (den * 2 ^ k) := by
  refine ⟨(num / den).log2 - fb, rfl, ?_, ?_⟩
  · rcases Nat.eq_zero_or_pos ((num / den).log2 - fb) with h0 | h0
    · exact .inl h0
    · right
      have hne : num / den ≠ 0 := fun h => by simp [h] at h0
      calc 2 ^ fb * (den * 2 ^ ((num / den).log2 - fb)) = 2 ^ (fb + ((num / den).log2 - fb)) * den := by ring
        _ = 2 ^ (num / den).log2 * den := by congr 2; omega
        _ ≤ num / den * den := Nat.mul_le_mul_right _ (Nat.log2_self_le hne)
        _ ≤ num := Nat.div_mul_le_self num den
  · calc num < (num / den + 1) * den := (Nat.div_lt_iff_lt_mul hd).1 (Nat.lt_succ_self _)
      _ ≤ 2 ^ ((num / den).log2 + 1) * den := Nat.mul_le_mul_right _ Nat.lt_log2_self
      _ ≤ 2 ^ (fb + 1 + ((num / den).log2 - fb)) * den :=
        Nat.mul_le_mul_right _ (Nat.pow_le_pow_right (by omega) (by omega))
      _ = _ := by ring

theorem unitsOf_roundBits (fb num : Nat) {den : Nat} (hd : 0 < den) :
    ∃ k, roundBits fb num den = k * 2 ^ fb + roundDiv num (den * 2 ^ k) ∧
      unitsOf fb (roundBits fb num den) = roundDiv num (den * 2 ^ k) * 2 ^ k ∧
      (k = 0 ∨ 2 ^ fb * (den * 2 ^ k) ≤ num) := by
  obtain ⟨k, hb, hlo, hhi⟩ := roundBits_shift fb num hd
  have hD : 0 < den * 2 ^ k := Nat.mul_pos hd (Nat.two_pow_pos k)
  refine ⟨k, hb, ?_, hlo⟩
  rw [hb, unitsOf_shift_add (hlo.imp_right (le_roundDiv hD)) (roundDiv_le hD hhi.le)]

/-- No number of the format is nearer to `num/den` than the one `roundBits` gives, and a tie goes to the even code. A
competitor that is a multiple of `2^k` loses as an integer does in `roundDiv`; any other lies below `2^fb·2^k`, itself no
nearer than the result and no larger than `num/den`, and so is strictly further away. -/
theorem roundBits_preferred {fb num den : Nat} (hfb : 0 < fb) (hd : 0 < den) (s : Bool) (b : Nat)
    (hne : signedUnits s (unitsOf fb b) ≠ unitsOf fb (roundBits fb num den)) :
    Preferred num den (roundBits fb num den % 2 = 0) (unitsOf fb (roundBits fb num den))
      (signedUnits s (unitsOf fb b)) := by
  obtain ⟨k, hb, hu, hlo⟩ := unitsOf_roundBits fb num hd
  have hD : 0 < den * 2 ^ k := Nat.mul_pos hd (Nat.two_pow_pos k)
  have hparity : roundBits fb num den % 2 = roundDiv num (den * 2 ^ k) % 2 := by
    have heven : k * 2 ^ fb % 2 = 0 := Nat.mod_eq_zero_of_dvd (Dvd.dvd.mul_left (dvd_pow_self 2 hfb.ne') k)
    omega
  have hscale (c : Int) : c * 2 ^ k * den - num = c * (den * 2 ^ k : Nat) - num := by push_cast; ring
  rw [hu] at hne
  rw [hparity, hu]
  push_cast at hne ⊢
  generalize hv : signedUnits s (unitsOf fb b) = v at *
  by_cases hdvd : (2 ^ k : Int) ∣ v
  · obtain ⟨c, rfl⟩ := hdvd
    rw [mul_comm _ c] at hne ⊢
    simp only [Preferred, hscale]
    exact roundDiv_preferred hD fun h => hne (by rw [h])
  · have hlow : v < 2 ^ fb * 2 ^ k := by
      simpa [hv, hdvd] using signedUnits_dvd_or_lt fb k s b
    have hnum : 2 ^ fb * (den * 2 ^ k) ≤ num := hlo.resolve_left (by rintro rfl; simp at hdvd)
    have hnear := roundDiv_natAbs_le (num := num) hD (2 ^ fb)
    have hfar : v * den < 2 ^ fb * (den * 2 ^ k : Nat) := by
      push_cast; nlinarith
    zify at hnum
    left
    rw [hscale]
    push_cast at *
    omega

/-- The same of fractions of either sign. -/
theorem roundBits_preferred_signed {fb num den : Nat} (hfb : 0 < fb) (hd : 0 < den) (s t : Bool) (b : Nat)
    (hne : signedUnits t (unitsOf fb b) ≠ signedUnits s (unitsOf fb (roundBits fb num den))) :
    Preferred (signedUnits s num) den (roundBits fb num den % 2 = 0)
      (signedUnits s (unitsOf fb (roundBits fb num den))) (signedUnits t (unitsOf fb b)) := by
  cases s
  · exact roundBits_preferred hfb hd t b hne
  · refine preferred_neg.2 ?_
    rw [neg_signedUnits]
    refine roundBits_preferred hfb hd (!t) b fun h => hne ?_
    rw [← neg_signedUnits, neg_eq_iff_eq_neg] at h
    exact h

/-- Rounding passes an odd code exactly at the midpoint between it and the next, where the tie goes to the even one. -/
theorem odd_lt_roundBits_iff {fb num den c : Nat} (hfb : 0 < fb) (hd : 0 < den) (hc : c % 2 = 1) :
    c < roundBits fb num den ↔ (unitsOf fb c + unitsOf fb (c + 1)) * den ≤ 2 * num := by
  have hmono {b b' : Nat} (h : b < b') : unitsOf fb b * den < unitsOf fb b' * den :=
    Nat.mul_lt_mul_of_pos_right (unitsOf_strictMono fb h) hd
  have hpref (b : Nat) (hb : b ≠ roundBits fb num den) :
      Preferred num den (roundBits fb num den % 2 = 0) (unitsOf fb (roundBits fb num den)) (unitsOf fb b) :=
    roundBits_preferred hfb hd false b fun h => hb ((unitsOf_strictMono fb).injective (Int.ofNat_inj.1 h))
  have hgap := hmono (Nat.lt_add_one c)
  rw [Nat.add_mul]
  constructor
  · intro hlt
    have habove : unitsOf fb (c + 1) * den ≤ unitsOf fb (roundBits fb num den) * den :=
      Nat.mul_le_mul_right _ ((unitsOf_strictMono fb).monotone hlt)
    have hnear := hpref c hlt.ne
    unfold Preferred at hnear
    omega
  · intro hmid
    by_contra hle
    have hnear := hpref (c + 1) (by omega)
    unfold Preferred at hnear
    rcases Nat.lt_or_ge (roundBits fb num den) c with hlt | hge
    · have := hmono hlt
      omega
    · obtain heq : roundBits fb num den = c := by omega
      rw [heq] at hnear
      omega

/-- A number of at most `fb + 1` significant bits is not changed by rounding. -/
theorem unitsOf_roundBits_of_lt {fb m : Nat} (j : Nat) (hm : m < 2 ^ (fb + 1)) :
    unitsOf fb (roundBits fb (m * 2 ^ j) 1) = m * 2 ^ j := by
  obtain ⟨k, -, hu, hlo⟩ := unitsOf_roundBits fb (m * 2 ^ j) one_pos
  rw [one_mul] at hu hlo
  have hkj : k ≤ j := by
    rcases hlo with rfl | hlo
    · exact Nat.zero_le j
    · have : 2 ^ (fb + k) < 2 ^ (fb + 1 + j) := calc
        2 ^ (fb + k) ≤ m * 2 ^ j := by rwa [pow_add]
        _ < 2 ^ (fb + 1) * 2 ^ j := Nat.mul_lt_mul_of_pos_right hm (Nat.two_pow_pos j)
        _ = 2 ^ (fb + 1 + j) := (pow_add ..).symm
      have := (Nat.pow_lt_pow_iff_right (by decide)).1 this
      omega
  obtain ⟨i, rfl⟩ := Nat.exists_eq_add_of_le hkj
  have hsplit : m * 2 ^ (k + i) = m * 2 ^ i * 2 ^ k := by ring
  rw [hu, hsplit, roundDiv_exact _ (Nat.two_pow_pos k)]

end Sys2Proof.Proofs
end

section
/-! PROOFS. The two formats' words and the conversions between them (R13), and Clamp (R16, R111). -/

namespace Sys2Proof.Proofs

open Sys2Proof Sys2Proof.Machine

/-! ### binary32 words from sign and bits -/

theorem signed32_toNat {s : Bool} {b : Nat} (h : b < 2 ^ 31) :
    (signed32 s b).toNat = (if s then 2 ^ 31 else 0) + b := by
  cases s <;> simp [signed32, BitVec.toNat_ofNat] <;> omega

theorem signed32_msb {s : Bool} {b : Nat} (h : b < 2 ^ 31) : (signed32 s b).msb = s := by
  rw [BitVec.msb_eq_decide, signed32_toNat h]
  cases s
  · simp; omega
  · simp

/-- Taking apart what was put together. -/
theorem unpack32_signed32 {s : Bool} {b : Nat} (h : b < 2 ^ 31) :
    unpack32 (signed32 s b) =
      if infBits32 < b then .nan else if b = infBits32 then .inf s else .fin s (unitsOf 23 b) := by
  have hbits : (signed32 s b).toNat % 2 ^ 31 = b := by
    rw [signed32_toNat h]; cases s <;> simp <;> omega
  simp only [unpack32, hbits, signed32_msb h]

theorem round32_of_overflow {s : Bool} {num den : Nat} (h : infBits32 ≤ roundBits 23 num den) :
    round32 s num den = signed32 s infBits32 := by
  rw [round32, Nat.min_eq_right h]

theorem round32_of_finite {s : Bool} {num den : Nat} (h : roundBits 23 num den < infBits32) :
    round32 s num den = signed32 s (roundBits 23 num den) := by
  rw [round32, Nat.min_eq_left h.le]

theorem signed32_getLsbD_zero {s : Bool} {b : Nat} (h : b < 2 ^ 31) : (signed32 s b).getLsbD 0 = decide (b % 2 = 1) := by
  rw [BitVec.getLsbD, signed32_toNat h, Nat.testBit_zero]
  cases s
  · simp
  · simp; omega

theorem toNat_append_eq_add {m n : Nat} (x : BitVec m) (y : BitVec n) :
    (x ++ y).toNat = x.toNat * 2 ^ n + y.toNat := by
  rw [BitVec.toNat_append, ← Nat.shiftLeft_add_eq_or_of_lt y.isLt, Nat.shiftLeft_eq]

/-- Whatever the open bits, the word is a NaN. -/
@[simp] theorem unpack32_quietNan32 (e : NanDraw32) : unpack32 (quietNan32 e) = .nan := by
  have hfields : (quietNan32 e).toNat =
      (((e.extractLsb 22 22).toNat * 2 ^ 8 + 0xFF) * 2 ^ 1 + 1) * 2 ^ 22 + (e.extractLsb 21 0).toNat := by
    refine (toNat_append_eq_add ..).trans ?_
    rw [toNat_append_eq_add, toNat_append_eq_add]
    rfl
  have hsign := (e.extractLsb 22 22).isLt
  have hpayload := (e.extractLsb 21 0).isLt
  have hbits : infBits32 < (quietNan32 e).toNat % 2 ^ 31 := by
    rw [hfields, infBits32]
    omega
  simp only [unpack32, if_pos hbits]

theorem quietNan64_quiet (d : NanDraw) : (quietNan64 d).getLsbD 51 = true := by
  simp only [quietNan64, BitVec.getLsbD_append]; rfl

theorem quietNan32_quiet (e : NanDraw32) : (quietNan32 e).getLsbD 22 = true := by
  simp only [quietNan32, BitVec.getLsbD_append]; rfl

/-! ### What a finite word stands for -/

theorem sign_of_unpack64 {v : F64} {s : Bool} {n : Nat} (h : unpack64 v = .fin s n) : s = v.msb := by
  simp only [unpack64] at h
  split_ifs at h
  injection h with hs _
  exact hs.symm

theorem sign_of_unpack32 {w : Word} {s : Bool} {n : Nat} (h : unpack32 w = .fin s n) : s = w.msb := by
  simp only [unpack32] at h
  split_ifs at h
  injection h with hs _
  exact hs.symm

theorem code_of_unpack32 {w : Word} {s : Bool} {n : Nat} (h : unpack32 w = .fin s n) :
    ∃ b, b < infBits32 ∧ n = unitsOf 23 b := by
  simp only [unpack32] at h
  split_ifs at h with hnan hinf
  injection h with _ hn
  exact ⟨_, by omega, hn.symm⟩

theorem units64_eq_some {v : F64} {m : Int} (h : units64 v = some m) :
    ∃ n, unpack64 v = .fin v.msb n ∧ m = signedUnits v.msb n := by
  unfold units64 at h
  split at h
  next s n hv =>
    obtain rfl := sign_of_unpack64 hv
    exact ⟨n, hv, (Option.some.inj h).symm⟩
  all_goals exact nomatch h

theorem units64_of_unpack64 {v : F64} {s : Bool} {n : Nat} (h : unpack64 v = .fin s n) :
    units64 v = some (signedUnits s n) := by
  simp only [units64, h]

theorem units32_of_unpack32 {w : Word} {s : Bool} {n : Nat} (h : unpack32 w = .fin s n) :
    units32 w = some (signedUnits s n) := by
  simp only [units32, h]

theorem units32_eq_some {w : Word} {m : Int} (h : units32 w = some m) :
    ∃ b, b < infBits32 ∧ unpack32 w = .fin w.msb (unitsOf 23 b) ∧ m = signedUnits w.msb (unitsOf 23 b) := by
  unfold units32 at h
  split at h
  next s n hw =>
    obtain ⟨b, hb, rfl⟩ := code_of_unpack32 hw
    obtain rfl := sign_of_unpack32 hw
    exact ⟨b, hb, hw, (Option.some.inj h).symm⟩
  all_goals exact nomatch h

theorem natAbs_signedUnits (s : Bool) (n : Nat) : (signedUnits s n).natAbs = n := by
  cases s <;> simp [signedUnits]

theorem signedUnits_mul (s : Bool) (n k : Nat) : signedUnits s (n * k) = signedUnits s n * k := by
  cases s <;> simp [signedUnits]

/-! ### Widening -/

theorem unitsOf_infBits32 : unitsOf 23 infBits32 = 2 ^ 24 * 2 ^ 253 :=
  unitsOf_of_eq 253 (2 ^ 24) rfl (by decide) (by decide)

theorem unitsOf_infBits64 : unitsOf 52 infBits64 = 2 ^ 53 * 2 ^ 2045 :=
  unitsOf_of_eq 2045 (2 ^ 53) rfl (by decide) (by decide)

/-- Every finite binary32 number is a binary64 number. -/
theorem unpack64_round64_widened (s : Bool) {b : Nat} (hb : b < infBits32) :
    unpack64 (round64 s (unitsOf 23 b * 2 ^ 925) 1) = .fin s (unitsOf 23 b * 2 ^ 925) := by
  have hunits : unitsOf 52 (roundBits 52 (unitsOf 23 b * 2 ^ 925) 1) = unitsOf 23 b * 2 ^ 925 := by
    obtain ⟨k, q, rfl, hk, hq⟩ := exists_shift_add 23 b
    rw [unitsOf_shift_add hk hq.le, Nat.mul_assoc, ← pow_add]
    exact unitsOf_roundBits_of_lt (k + 925) (hq.trans (by decide))
  have hfinite : roundBits 52 (unitsOf 23 b * 2 ^ 925) 1 < infBits64 := by
    refine (unitsOf_strictMono 52).lt_iff_lt.1 ?_
    rw [hunits, unitsOf_infBits64]
    calc unitsOf 23 b * 2 ^ 925 < unitsOf 23 infBits32 * 2 ^ 925 :=
          Nat.mul_lt_mul_of_pos_right (unitsOf_strictMono 23 hb) (by positivity)
      _ = 2 ^ (24 + 253 + 925) := by rw [unitsOf_infBits32, ← pow_add, ← pow_add]
      _ ≤ 2 ^ (53 + 2045) := pow_le_pow_right₀ (by decide) (by decide)
      _ = 2 ^ 53 * 2 ^ 2045 := pow_add ..
  rw [unpack64_round64, if_neg (by omega), hunits]

/-- R13: widening keeps the value and the sign of a finite word. -/
theorem f2d_finite (d : NanDraw) {w : Word} {m : Int} (h : units32 w = some m) :
    units64 (f2d d w) = some (m * 2 ^ 925) ∧ (f2d d w).msb = w.msb := by
  obtain ⟨b, hb, hw, rfl⟩ := units32_eq_some h
  have hwide : unpack64 (f2d d w) = .fin w.msb (unitsOf 23 b * 2 ^ 925) := by
    simp only [f2d, hw]
    exact unpack64_round64_widened w.msb hb
  constructor
  · rw [units64_of_unpack64 hwide, signedUnits_mul, Nat.cast_pow, Nat.cast_ofNat]
  · exact (sign_of_unpack64 hwide).symm

/-! ### Narrowing -/

theorem infBits32_le_roundBits_iff {num den : Nat} (hd : 0 < den) :
    infBits32 ≤ roundBits 23 num den ↔ (2 ^ 25 - 1) * 2 ^ 252 * den ≤ num := by
  have hlargest : unitsOf 23 0x7F7FFFFF = (2 ^ 24 - 1) * 2 ^ 253 :=
    unitsOf_of_eq 253 (2 ^ 24 - 1) rfl (by decide) (by decide)
  have hsum : unitsOf 23 0x7F7FFFFF + unitsOf 23 infBits32 = 2 * ((2 ^ 25 - 1) * 2 ^ 252) := by
    rw [hlargest, unitsOf_infBits32, pow_succ 2 252]; omega
  have hmid := odd_lt_roundBits_iff (fb := 23) (num := num) (c := 0x7F7FFFFF) (by decide) hd (by decide)
  rw [show 0x7F7FFFFF + 1 = infBits32 from rfl, hsum, Nat.mul_assoc 2] at hmid
  exact hmid.trans (Nat.mul_le_mul_left_iff (by decide))

/-- R13: a fraction of either sign is rounded to the nearest binary32, ties to even, or overflows. -/
theorem round32_roundsTo (s : Bool) (n : Nat) {den : Nat} (hd : 0 < den) :
    RoundsTo32 (signedUnits s n) den (round32 s n den) := by
  rw [RoundsTo32, natAbs_signedUnits]
  by_cases hbig : (2 ^ 25 - 1) * 2 ^ 252 * den ≤ n
  · rw [if_pos hbig, round32_of_overflow ((infBits32_le_roundBits_iff hd).2 hbig)]
    have hpos : 0 < n := lt_of_lt_of_le (Nat.mul_pos (by decide) hd) hbig
    cases s
    · rw [if_neg (by simp [signedUnits])]; rfl
    · rw [if_pos (by simp [signedUnits, hpos])]; rfl
  · rw [if_neg hbig]
    have hfin : roundBits 23 n den < infBits32 := by rwa [← not_le, infBits32_le_roundBits_iff hd]
    have hbits : roundBits 23 n den < 2 ^ 31 := hfin.trans (by decide)
    have hunits : units32 (round32 s n den) = some (signedUnits s (unitsOf 23 (roundBits 23 n den))) := by
      refine units32_of_unpack32 ?_
      rw [round32_of_finite hfin, unpack32_signed32 hbits, if_neg hfin.not_gt, if_neg hfin.ne]
    have heven : (round32 s n den).getLsbD 0 = false ↔ roundBits 23 n den % 2 = 0 := by
      rw [round32_of_finite hfin, signed32_getLsbD_zero hbits]
      simp
    refine ⟨_, hunits, fun y v hy hne => ?_⟩
    obtain ⟨b, -, -, rfl⟩ := units32_eq_some hy
    rw [heven]
    exact roundBits_preferred_signed (by decide) hd s _ b hne

/-- Stated for every denominator, so that no proof takes `RoundsTo32` apart at `2 ^ 925`. -/
theorem round32_roundsTo_and_msb (s : Bool) (n : Nat) {den : Nat} (hd : 0 < den) :
    RoundsTo32 (signedUnits s n) den (round32 s n den) ∧ (round32 s n den).msb = s :=
  ⟨round32_roundsTo s n hd, signed32_msb (lt_of_le_of_lt (Nat.min_le_right _ _) (by decide))⟩

/-- R13: narrowing rounds a finite word to the nearest and keeps its sign. -/
theorem d2f_finite (e : NanDraw32) {v : F64} {m : Int} (h : units64 v = some m) :
    RoundsTo32 m (2 ^ 925) (d2f e v) ∧ (d2f e v).msb = v.msb := by
  obtain ⟨n, hv, rfl⟩ := units64_eq_some h
  simp only [d2f, hv]
  exact round32_roundsTo_and_msb v.msb n (by positivity)

/-! ### Infinities and NaNs -/

theorem f2d_inf (d : NanDraw) (s : Bool) : f2d d (signed32 s infBits32) = inf64 s := by
  rw [f2d, unpack32_signed32 (by decide), if_neg (lt_irrefl _), if_pos rfl]

theorem d2f_inf (e : NanDraw32) (s : Bool) : d2f e (inf64 s) = signed32 s infBits32 := by
  rw [d2f, unpack64_inf64]

theorem f2d_nan (d : NanDraw) {w : Word} (h : isNan32 w) : f2d d w = quietNan64 d := by
  rw [f2d, show unpack32 w = .nan from h]

theorem d2f_nan (e : NanDraw32) {v : F64} (h : isNan64 v) : d2f e v = quietNan32 e := by
  rw [d2f, show unpack64 v = .nan from h]

/-- Settles O56: the finite words by `f2d_finite` and `d2f_finite`, then the infinities and the NaNs. -/
theorem conversionsBetweenTheFormats : Obligations.ConversionsBetweenTheFormats := by
  unfold Obligations.ConversionsBetweenTheFormats
  refine ⟨fun d w m => f2d_finite d, f2d_inf, fun d w h => ?_, fun e v m => d2f_finite e, d2f_inf, fun e v h => ?_⟩
  · rw [f2d_nan d h]
    exact ⟨rfl, unpack64_quietNan64 d, quietNan64_quiet d⟩
  · rw [d2f_nan e h]
    exact ⟨rfl, unpack32_quietNan32 e, quietNan32_quiet e⟩

/-! ### Clamp -/

theorem clamp_eq_max_min (v : Int) : clamp v = max 0 (min 100 v) := rfl

theorem clamp_mono {v w : Int} (h : v ≤ w) : clamp v ≤ clamp w :=
  max_le_max_left _ (min_le_min_left _ h)

/-- Idempotent (R111): what is clamped lies in the range, where Clamp changes nothing. -/
theorem clamp_clamp (v : Int) : clamp (clamp v) = clamp v := by
  obtain ⟨hlo, hhi⟩ := clamp_range v
  exact clamp_eq_self hlo hhi

/-- Settles O19, from the equation with max and min and the range of the result. -/
theorem clampIsMonotoneAndIdempotent : Obligations.ClampIsMonotoneAndIdempotent := by
  intro v w
  refine ⟨clamp_eq_max_min v, fun hneg => ?_, fun hbig => ?_, clamp_eq_self, clamp_mono, clamp_clamp v⟩
  · rw [clamp_eq_max_min, min_eq_right (by omega), max_eq_left hneg.le]
  · rw [clamp_eq_max_min, min_eq_left hbig.le]; rfl

end Sys2Proof.Proofs
end

section
/-! PROOFS. The parameter store (R101 to R112): what its commands write, and that a level stays until its own band's
setter is served. -/

namespace Sys2Proof.Proofs

open Sys2Proof Sys2Proof.Machine Sys2Proof.Claims

/-! ### The commands, said once for every band -/

theorem exec_setEn (en : Bool) (s : State) : exec (.setEn en) s = execSetEn en s := rfl

theorem exec_setLvl (b : Band) (v : Word) (s : State) : exec (Instr.setLvl b v) s = .next (setLevel b v s) := by
  cases b <;> rfl

theorem exec_getLvl (b : Band) (s : State) : exec (Instr.getLvl b) s = .next (getLevel b s) := by
  cases b <;> rfl

/-- Settles O14: SETEN's response is the echoed code with an OK status (R101). -/
theorem setEnWritesEnableOnly : Obligations.SetEnWritesEnableOnly := by
  intro en s
  have hword : response Opc.setEn.bits .ok [] = [0x01000000#32] := by decide
  rw [exec_setEn, execSetEn, State.respond, hword]
  rfl

/-! ### Setters -/

theorem clamp_eq_self_iff {v : Int} : clamp v = v ↔ ¬ (v < 0 ∨ 100 < v) := by
  constructor
  · intro hv
    obtain ⟨hlo, hhi⟩ := clamp_range v
    omega
  · intro hv
    exact clamp_eq_self (by omega) (by omega)

/-- OutOfRangeClamped exactly outside the range (R203). -/
theorem statusWord_setterStatus (v : Int) : statusWord Opc.setLevel.bits (setterStatus v) = setterWord v := by
  by_cases hv : v < 0 ∨ 100 < v
  · rw [setterStatus, if_neg (mt clamp_eq_self_iff.1 (not_not_intro hv)), setterWord, if_pos hv]
    decide
  · rw [setterStatus, if_pos (clamp_eq_self_iff.2 hv), setterWord, if_neg hv]
    decide

/-- SetLevel's whole effect (R103), for each band. -/
theorem setLevel_eq (b : Band) (v : Word) (s : State) :
    setLevel b v s = { s with
      lvl := bandSet s.lvl b (BitVec.ofInt 7 (clamped v.toInt))
      coef := bandSet s.coef b (compile b (clamped v.toInt) s.fs)
      cIn := s.cIn.tail
      cOut := s.cOut ++ [[setterWord v.toInt, BitVec.ofInt 32 (clamped v.toInt)]] } := by
  rw [← statusWord_setterStatus]
  rfl

/-- Settles O16: the three setters are SetLevel at their bands. -/
theorem levelSettersClampStoreAndRecompile : Obligations.LevelSettersClampStoreAndRecompile := by
  intro v s
  have hset (b : Band) := (exec_setLvl b v s).trans (congrArg Host.Outcome.next (setLevel_eq b v s))
  exact ⟨hset .bass, hset .mid, hset .treble⟩

/-- Clamped values fit the level register, so a level just set reads back as the clamped value. -/
theorem level_setLevel_same (b : Band) (v : Word) (s : State) : (setLevel b v s).level b = clamped v.toInt := by
  obtain ⟨hlo, hhi⟩ := clamp_range v.toInt
  simp only [State.level, setLevel_eq, bandGet_bandSet_same]
  exact levelBits_toNat hlo hhi

theorem getLevel_cOut (b : Band) (s : State) :
    (getLevel b s).cOut = s.cOut ++ [[0x11000000#32, BitVec.ofInt 32 (s.level b)]] := by
  have hword : statusWord Opc.getLevel.bits .ok = 0x11000000#32 := by decide
  rw [getLevel, respond_control_cOut, response, hword, levelWord]

/-! ### What changes a level -/

theorem pBegin_lvl (kind : JobKind) (fs : Word) (input : Option (PerChannel Buffer)) (s : State) :
    (pBegin kind fs input s).lvl = s.lvl := by
  obtain ⟨st, ws, heq⟩ | ⟨io, -, -, -, -, -, heq⟩ := pBegin_cases kind fs input s
  · rw [heq, respond_lvl]
  · rw [heq, startJob_lvl, syncRate_lvl]

/-- A command that writes a level is a level setter. -/
theorem exec_lvl_cases {i : Instr} {s t : State} (h : exec i s = .next t) :
    t.lvl = s.lvl ∨ ∃ b v, i = Instr.setLvl b v ∧ t = setLevel b v s := by
  cases i with
  | setBass v => cases h; exact .inr ⟨.bass, v, rfl, rfl⟩
  | setMid v => cases h; exact .inr ⟨.mid, v, rfl, rfl⟩
  | setTreb v => cases h; exact .inr ⟨.treble, v, rfl, rfl⟩
  | setEn | getEn | getBass | getMid | getTreb | rstf => cases h; exact .inl rfl
  | procM | procS =>
    simp only [exec, execProcM, execProcS] at h
    split at h <;> cases h
    · exact .inl rfl
    · exact .inl (pBegin_lvl ..)

theorem action_done_lvl {s t : State} {a : Agent} (h : s.action a = .done t) : t.lvl = s.lvl := by
  obtain rfl | ⟨opc, cause, rfl⟩ | ⟨-, j, -, -, rfl⟩ | ⟨-, j, -, -, rfl⟩ := action_done h
  · rfl
  · rw [State.refuseIllegal, raise_eq, respond_lvl]
  · exact pSample_lvl j s
  · exact pEnd_lvl j s

theorem opc_of_assemble {o : Opc} {hd : Word} {pkt : Packet} {i : Instr} (h : assemble o hd pkt = .cmd i) :
    i.opc = o := by
  have hband (k : Band → Instr) (hk : ∀ b, (k b).opc = o) (hl : levelCommand hd k = .cmd i) : i.opc = o := by
    unfold levelCommand at hl
    split at hl <;> cases hl
    exact hk _
  cases o with
  | setLevel => exact hband _ (by intro b; cases b <;> rfl) h
  | getLevel => exact hband _ (by intro b; cases b <;> rfl) h
  | setEn | getEn | rstf | procM | procS => cases h; rfl

/-- A decoded command arrived on its own port (R86). -/
theorem port_of_decode {port : Agent} {pkt : Packet} {i : Instr} (h : decode port pkt = .cmd i) : i.port = port := by
  obtain ⟨hd, rest, o, -, -, hport, -, -, hcmd⟩ := decode_cmd_cases h
  rw [Instr.port, opc_of_assemble hcmd, hport]

theorem setLvl_port (b : Band) (v : Word) : (Instr.setLvl b v).port = .control := by
  cases b <;> rfl

/-- R22: a step either keeps every level, or serves the level setter at the head of the C-port. -/
theorem step_lvl_cases {s t : State} (hr : s.resetInput = false) (h : step s = .next t) :
    t.lvl = s.lvl ∨ ∃ b v pkt rest, s.cIn = pkt :: rest ∧ decode .control pkt = .cmd (Instr.setLvl b v) ∧
      t.cIn = rest ∧ t.lvl = bandSet s.lvl b (BitVec.ofInt 7 (clamped v.toInt)) := by
  obtain ⟨hreset, -⟩ | ⟨-, -, rfl⟩ | ⟨-, a, s1, i, hpick, hrun, hexec⟩ | ⟨-, a, s1, hpick, hdone⟩ := step_cases h
  · simp [hr] at hreset
  · exact .inl rfl
  · have hframe := pick_frame hpick
    have hlvl : s1.lvl = s.lvl := by rw [hframe]
    have hcIn : s1.cIn = s.cIn := by rw [hframe]
    obtain hkeep | ⟨b, v, rfl, rfl⟩ := exec_lvl_cases hexec
    · exact .inl (hkeep.trans hlvl)
    · obtain ⟨-, pkt, rest, hhead, hd⟩ | ⟨-, -, pkt, rest, -, hd⟩ := action_run hrun
      · refine .inr ⟨b, v, pkt, rest, hcIn ▸ hhead, hd, ?_, ?_⟩
        · rw [setLevel_eq, hhead, List.tail_cons]
        · rw [setLevel_eq, hlvl]
      · exact absurd ((setLvl_port b v).symm.trans (port_of_decode hd)) (by decide)
  · rw [action_done_lvl hdone, pick_frame hpick]
    exact .inl rfl

/-! ### A level set stays set -/

/-- The step of a setter takes it from the C-port, which `StepsWithoutSetter` excludes for band `b`; the other setters
leave band `b` alone. -/
theorem stepsWithoutSetter_level {b : Band} {s t : State} (h : StepsWithoutSetter b s t) : t.level b = s.level b := by
  obtain ⟨hr, hstep, hnone⟩ := h
  obtain hkeep | ⟨c, v, pkt, rest, hhead, hd, htail, hlvl⟩ := step_lvl_cases hr hstep
  · rw [State.level, State.level, hkeep]
  · have hother : b ≠ c := by
      rintro rfl
      have hstill := hnone pkt rest v hhead hd
      rw [htail, hhead] at hstill
      exact List.cons_ne_self pkt rest hstill.symm
    rw [State.level, State.level, hlvl, bandGet_bandSet_other _ _ _ _ hother]

theorem stepsWithoutSetter_level_of_reachable {b : Band} {s t : State}
    (h : Relation.ReflTransGen (StepsWithoutSetter b) s t) : t.level b = s.level b := by
  induction h with
  | refl => rfl
  | tail _ hstep ih => exact (stepsWithoutSetter_level hstep).trans ih

/-- Settles O18: the setter leaves the clamped value in the level, the steps between keep it, the getter answers it. -/
theorem getAfterSetAnswersTheClampedValue : Obligations.GetAfterSetAnswersTheClampedValue := by
  intro b v s
  refine ⟨setLevel b v s, exec_setLvl b v s, fun u hu => ⟨getLevel b u, exec_getLvl b u, ?_⟩⟩
  have hlevel : u.level b = clamped v.toInt :=
    (stepsWithoutSetter_level_of_reachable hu).trans (level_setLevel_same b v s)
  rw [getLevel_cOut, hlevel]

end Sys2Proof.Proofs
end

section
/-! PROOFS. The filter bank (R151 to R161): RSTF, the spec's worked stage, and that silence stays silence. -/

namespace Sys2Proof.Proofs

open Sys2Proof Sys2Proof.Machine Sys2Proof.Claims

/-! ### RSTF -/

theorem exec_rstf (s : State) : exec .rstf s = execRstf s := rfl

theorem zeroHistory_register (b : Band) (c : Channel) : chanGet (bandGet zeroHistory b) c = zeroHist := by
  rw [zeroHistory, bandGet_bandAll]
  cases c <;> rfl

/-- Settles O20: RSTF's response is the echoed code with an OK status (R155). -/
theorem rstfClearsTheHistoryOnly : Obligations.RstfClearsTheHistoryOnly := by
  intro s
  refine ⟨zeroHistory, ?_, zeroHistory_register⟩
  have hword : response Opc.rstf.bits .ok [] = [0x20000000#32] := by decide
  rw [exec_rstf, execRstf, State.respond, hword]
  rfl

/-! ### Operations on finite words -/

theorem fmul_of_finite (d : NanDraw) {a b : F64} {s t : Bool} {m n : Nat} (ha : unpack64 a = .fin s m)
    (hb : unpack64 b = .fin t n) : fmul d a b = round64 (s != t) (m * n) (2 ^ 1074) := by
  simp only [fmul, ha, hb]

theorem fadd_of_finite (d : NanDraw) {a b : F64} {s t : Bool} {m n : Nat} (ha : unpack64 a = .fin s m)
    (hb : unpack64 b = .fin t n) : fadd d a b = addFinite s m t n := by
  simp only [fadd, ha, hb]

/-! ### Exact results (R10, R11) -/

theorem roundDiv_mul_right (num k : Nat) {den : Nat} (hd : 0 < den) :
    roundDiv (num * den) (k * den) = roundDiv num k := by
  have hlt : 2 * (num % k * den) < k * den ↔ 2 * (num % k) < k := by
    rw [← Nat.mul_assoc, Nat.mul_lt_mul_right hd]
  have hgt : k * den < 2 * (num % k * den) ↔ k < 2 * (num % k) := by
    rw [← Nat.mul_assoc, Nat.mul_lt_mul_right hd]
  simp only [roundDiv, Nat.mul_div_mul_right _ _ hd, Nat.mul_mod_mul_right, hlt, hgt]

theorem roundBits_mul_right (fb num : Nat) {den : Nat} (hd : 0 < den) :
    roundBits fb (num * den) den = roundBits fb num 1 := by
  have hdiv (k : Nat) : roundDiv (num * den) (den * 2 ^ k) = roundDiv num (1 * 2 ^ k) := by
    rw [Nat.mul_comm den, Nat.one_mul, roundDiv_mul_right num _ hd]
  simp only [roundBits, Nat.mul_div_cancel _ hd, Nat.div_one, hdiv]

/-- Rounding keeps a number that a word holds in at most 53 significant bits. -/
theorem round64_exact {v : F64} {s : Bool} {q k den : Nat} (hd : 0 < den) (hq : q < 2 ^ 53)
    (hv : unpack64 v = .fin s (q * 2 ^ k)) : round64 s (q * 2 ^ k * den) den = v := by
  simp only [unpack64] at hv
  split_ifs at hv with hnan hinf
  injection hv with hsign hunits
  have hbits : roundBits 52 (q * 2 ^ k) 1 = v.toNat % 2 ^ 63 :=
    (unitsOf_strictMono 52).injective ((unitsOf_roundBits_of_lt k hq).trans hunits.symm)
  rw [round64, roundBits_mul_right 52 _ hd, hbits, Nat.min_eq_left (by omega)]
  apply BitVec.eq_of_toNat_eq
  rw [signed64_toNat (Nat.mod_lt _ (by decide)), ← hsign, BitVec.msb_eq_decide]
  have hlt := v.isLt
  by_cases hneg : 2 ^ 63 ≤ v.toNat
  · simp only [hneg, decide_true, if_true]
    omega
  · simp only [hneg, decide_false]
    exact (Nat.zero_add _).trans (Nat.mod_eq_of_lt (by omega))

theorem unpack64_fneg {a : F64} {s : Bool} {m : Nat} (h : unpack64 a = .fin s m) :
    unpack64 (fneg a) = .fin (!s) m := by
  have hbits : (fneg a).toNat % 2 ^ 63 = a.toNat % 2 ^ 63 := by
    rw [fneg, BitVec.toNat_xor, Nat.xor_mod_two_pow]
    exact Nat.xor_zero _
  have hsign : (fneg a).msb = !a.msb := by
    rw [fneg, BitVec.msb_xor]
    exact Bool.xor_true _
  simp only [unpack64] at h ⊢
  rw [hbits, hsign]
  split_ifs at h ⊢
  injection h with hs hm
  rw [hs, hm]

/-! ### The worked stage -/

/-- `v` is ±n/64, with `n` in the 53 bits of a significand: every number of R161's example, and every intermediate, is
one of these. -/
def IsSixtyFourths (v : F64) (s : Bool) (n : Nat) : Prop := n < 2 ^ 53 ∧ unpack64 v = .fin s (n * 2 ^ 1068)

/-- From the exponent field, `k + 1`, and the significand, `n · 2^j`. -/
theorem isSixtyFourths_of_fields {v : F64} {s : Bool} {n : Nat} (k j : Nat)
    (h : v = signed64 s (k * 2 ^ 52 + n * 2 ^ j) ∧ 2 ^ 52 ≤ n * 2 ^ j ∧ n * 2 ^ j < 2 ^ 53 ∧ j + k = 1068) :
    IsSixtyFourths v s n := by
  obtain ⟨hv, hlo, hhi, hkj⟩ := h
  have hfinite : k * 2 ^ 52 + n * 2 ^ j < infBits64 := by unfold infBits64; omega
  have hunits := unitsOf_shift_add (k := k) (.inr hlo) hhi.le
  refine ⟨(Nat.le_mul_of_pos_right n (Nat.two_pow_pos j)).trans_lt hhi, ?_⟩
  rw [hv, unpack64_signed64 (hfinite.trans (by decide)), if_neg hfinite.not_gt, if_neg hfinite.ne, hunits,
    Nat.mul_assoc, ← pow_add, hkj]

section SixtyFourths

variable (d : NanDraw) {a b c : F64} {s t : Bool} {m n r : Nat} (ha : IsSixtyFourths a s m)
include ha

theorem fmul_sixtyFourths (hb : IsSixtyFourths b t n) (hc : IsSixtyFourths c (s != t) r) (h : m * n = r * 2 ^ 6) :
    fmul d a b = c := by
  have hprod : m * 2 ^ 1068 * (n * 2 ^ 1068) = r * 2 ^ 1068 * 2 ^ 1074 := by
    rw [Nat.mul_mul_mul_comm, h, Nat.mul_assoc, Nat.mul_assoc, Nat.mul_left_comm (2 ^ 6), ← pow_add 2 6]
  rw [fmul_of_finite d ha.2 hb.2, hprod]
  exact round64_exact (by positivity) hc.1 hc.2

theorem fadd_sixtyFourths (hb : IsSixtyFourths b s n) (hc : IsSixtyFourths c s r) (h : m + n = r) :
    fadd d a b = c := by
  rw [fadd_of_finite d ha.2 hb.2, addFinite, if_pos rfl, ← Nat.add_mul, h, ← Nat.mul_one (r * 2 ^ 1068)]
  exact round64_exact one_pos hc.1 hc.2

theorem fsub_sixtyFourths_unlike (hb : IsSixtyFourths b (!s) n) (hc : IsSixtyFourths c s r) (h : m + n = r) :
    fsub d a b = c := by
  have hneg := unpack64_fneg hb.2
  rw [Bool.not_not] at hneg
  exact fadd_sixtyFourths d ha ⟨hb.1, hneg⟩ hc h

theorem fsub_sixtyFourths_like (hb : IsSixtyFourths b s n) (hc : IsSixtyFourths c s r) (hlt : n < m)
    (h : m = n + r) : fsub d a b = c := by
  have hdiff : m * 2 ^ 1068 - n * 2 ^ 1068 = r * 2 ^ 1068 * 1 := by
    rw [← Nat.sub_mul, h, Nat.add_sub_cancel_left, Nat.mul_one]
  have hscaled : n * 2 ^ 1068 < m * 2 ^ 1068 := Nat.mul_lt_mul_of_pos_right hlt (by positivity)
  rw [fsub, fadd_of_finite d ha.2 (unpack64_fneg hb.2), addFinite, if_neg (by simp), if_pos hscaled, hdiff]
  exact round64_exact one_pos hc.1 hc.2

end SixtyFourths

/-- Settles O21 in whole numbers of 64ths, along the nine operations of R151, each of them exact. -/
theorem stageWithRoundNumbers : Obligations.StageWithRoundNumbers := by
  intro d
  refine ⟨?_, rfl⟩
  have minusHalf : IsSixtyFourths 0xBFE0000000000000#64 true 32 := isSixtyFourths_of_fields 1021 47 (by decide)
  have eighth : IsSixtyFourths 0x3FC0000000000000#64 false 8 := isSixtyFourths_of_fields 1019 49 (by decide)
  have quarter : IsSixtyFourths 0x3FD0000000000000#64 false 16 := isSixtyFourths_of_fields 1020 48 (by decide)
  have half : IsSixtyFourths 0x3FE0000000000000#64 false 32 := isSixtyFourths_of_fields 1021 47 (by decide)
  have one : IsSixtyFourths 0x3FF0000000000000#64 false 64 := isSixtyFourths_of_fields 1022 46 (by decide)
  have two : IsSixtyFourths 0x4000000000000000#64 false 128 := isSixtyFourths_of_fields 1023 45 (by decide)
  have three : IsSixtyFourths 0x4008000000000000#64 false 192 := isSixtyFourths_of_fields 1023 45 (by decide)
  have four : IsSixtyFourths 0x4010000000000000#64 false 256 := isSixtyFourths_of_fields 1024 44 (by decide)
  have eight : IsSixtyFourths 0x4020000000000000#64 false 512 := isSixtyFourths_of_fields 1025 43 (by decide)
  have acc1 : IsSixtyFourths 0x4011000000000000#64 false 272 := isSixtyFourths_of_fields 1024 44 (by decide)
  have acc2 : IsSixtyFourths 0x4012000000000000#64 false 288 := isSixtyFourths_of_fields 1024 44 (by decide)
  have prod3 : IsSixtyFourths 0xBFF8000000000000#64 true 96 := isSixtyFourths_of_fields 1022 46 (by decide)
  have acc3 : IsSixtyFourths 0x4018000000000000#64 false 384 := isSixtyFourths_of_fields 1024 44 (by decide)
  have five : IsSixtyFourths 0x4014000000000000#64 false 320 := isSixtyFourths_of_fields 1024 44 (by decide)
  simp only [stageOutput]
  rw [fmul_sixtyFourths (d 0) half eight four rfl,
    fmul_sixtyFourths (d 1) quarter one quarter rfl, fadd_sixtyFourths (d 2) four quarter acc1 rfl,
    fmul_sixtyFourths (d 3) eighth two quarter rfl, fadd_sixtyFourths (d 4) acc1 quarter acc2 rfl,
    fmul_sixtyFourths (d 5) minusHalf three prod3 rfl, fsub_sixtyFourths_unlike (d 6) acc2 prod3 acc3 rfl,
    fmul_sixtyFourths (d 7) quarter four one rfl, fsub_sixtyFourths_like (d 8) acc3 one five (by decide) rfl]

/-! ### Zeros of either sign -/

theorem unpack64_of_isZero64 {a : F64} (h : isZero64 a) : ∃ s, unpack64 a = .fin s 0 := by
  obtain rfl | rfl := h
  · exact ⟨false, unpack64_zero⟩
  · exact ⟨true, by decide⟩

theorem unpack32_of_isZero32 {w : Word} (h : isZero32 w) : ∃ s, unpack32 w = .fin s 0 := by
  obtain rfl | rfl := h
  · exact ⟨false, by decide⟩
  · exact ⟨true, by decide⟩

theorem roundBits_zero (fb den : Nat) : roundBits fb 0 den = 0 := by
  simp [roundBits, roundDiv]

theorem round64_zero_isZero64 (s : Bool) (den : Nat) : isZero64 (round64 s 0 den) := by
  rw [round64, roundBits_zero, Nat.zero_min]
  cases s
  · exact .inl rfl
  · exact .inr rfl

theorem round32_zero_isZero32 (s : Bool) (den : Nat) : isZero32 (round32 s 0 den) := by
  rw [round32, roundBits_zero, Nat.zero_min]
  cases s
  · exact .inl rfl
  · exact .inr rfl

/-- Where the signs differ the sum is +0.0, where they agree it is that zero. -/
theorem addFinite_zero_isZero64 (s t : Bool) : isZero64 (addFinite s 0 t 0) := by
  by_cases hst : s = t
  · rw [addFinite, if_pos hst]
    exact round64_zero_isZero64 s 1
  · rw [addFinite, if_neg hst, if_neg (lt_irrefl 0), if_neg (lt_irrefl 0)]
    exact .inl rfl

theorem fmul_isZero64 (d : NanDraw) {a b : F64} (ha : isFinite64 a) (hb : isZero64 b) : isZero64 (fmul d a b) := by
  obtain ⟨s, m, ha⟩ := ha
  obtain ⟨t, hb⟩ := unpack64_of_isZero64 hb
  rw [fmul_of_finite d ha hb, Nat.mul_zero]
  exact round64_zero_isZero64 _ _

theorem fadd_isZero64 (d : NanDraw) {a b : F64} (ha : isZero64 a) (hb : isZero64 b) : isZero64 (fadd d a b) := by
  obtain ⟨s, ha⟩ := unpack64_of_isZero64 ha
  obtain ⟨t, hb⟩ := unpack64_of_isZero64 hb
  rw [fadd_of_finite d ha hb]
  exact addFinite_zero_isZero64 s t

theorem fneg_isZero64 {a : F64} (h : isZero64 a) : isZero64 (fneg a) := by
  obtain rfl | rfl := h
  · exact .inr rfl
  · exact .inl rfl

theorem fsub_isZero64 (d : NanDraw) {a b : F64} (ha : isZero64 a) (hb : isZero64 b) : isZero64 (fsub d a b) :=
  fadd_isZero64 d ha (fneg_isZero64 hb)

theorem f2d_isZero64 (d : NanDraw) {w : Word} (h : isZero32 w) : isZero64 (f2d d w) := by
  obtain ⟨s, hw⟩ := unpack32_of_isZero32 h
  simp only [f2d, hw, Nat.zero_mul]
  exact round64_zero_isZero64 s 1

theorem d2f_isZero32 (e : NanDraw32) {v : F64} (h : isZero64 v) : isZero32 (d2f e v) := by
  obtain ⟨s, hv⟩ := unpack64_of_isZero64 h
  simp only [d2f, hv]
  exact round32_zero_isZero32 s _

/-! ### Silence through the cascade -/

/-- The condition of `ZeroHists` on one stage. -/
def ZeroHist (h : Hist) : Prop := isZero64 h.x1 ∧ isZero64 h.x2 ∧ isZero64 h.y1 ∧ isZero64 h.y2

/-- The condition of `FiniteCoefs` on one stage. -/
def FiniteCoef (k : Coef) : Prop :=
  isFinite64 k.b0 ∧ isFinite64 k.b1 ∧ isFinite64 k.b2 ∧ isFinite64 k.a1 ∧ isFinite64 k.a2

theorem zeroHists_iff {h : PerBand Hist} :
    ZeroHists h ↔ ZeroHist h.bass ∧ ZeroHist h.mid ∧ ZeroHist h.treble :=
  ⟨fun hh => ⟨hh .bass, hh .mid, hh .treble⟩, fun ⟨hbass, hmid, htreble⟩ b => by
    cases b
    · exact hbass
    · exact hmid
    · exact htreble⟩

theorem finiteCoefs_band {k : PerBand Coef} (hk : FiniteCoefs k) (b : Band) : FiniteCoef (bandGet k b) := hk b

/-- Every product in the accumulator has a zero factor, the other being finite. -/
theorem stageOutput_isZero64 (d : Nat → NanDraw) {k : Coef} {h : Hist} {x : F64} (hk : FiniteCoef k) (hh : ZeroHist h)
    (hx : isZero64 x) : isZero64 (stageOutput d k h x) := by
  obtain ⟨hb0, hb1, hb2, ha1, ha2⟩ := hk
  obtain ⟨hx1, hx2, hy1, hy2⟩ := hh
  have acc0 := fmul_isZero64 (d 0) hb0 hx
  have acc1 := fadd_isZero64 (d 2) acc0 (fmul_isZero64 (d 1) hb1 hx1)
  have acc2 := fadd_isZero64 (d 4) acc1 (fmul_isZero64 (d 3) hb2 hx2)
  have acc3 := fsub_isZero64 (d 6) acc2 (fmul_isZero64 (d 5) ha1 hy1)
  exact fsub_isZero64 (d 8) acc3 (fmul_isZero64 (d 7) ha2 hy2)

theorem shiftHist_zeroHist {h : Hist} {x y : F64} (hh : ZeroHist h) (hx : isZero64 x) (hy : isZero64 y) :
    ZeroHist (shiftHist h x y) := by
  obtain ⟨hx1, -, hy1, -⟩ := hh
  exact ⟨hx, hx1, hy, hy1⟩

section Silence

variable {k : PerBand Coef} (hk : FiniteCoefs k)
include hk

/-- R158 for one sample: each stage hands a zero to the next. -/
theorem applySample_silent (d : Nat → NanDraw) {h : PerBand Hist} {x : F64} (hh : ZeroHists h) (hx : isZero64 x) :
    isZero64 (applySample d k h x).1 ∧ ZeroHists (applySample d k h x).2 := by
  obtain ⟨hbass, hmid, htreble⟩ := zeroHists_iff.1 hh
  have hv1 := stageOutput_isZero64 d (finiteCoefs_band hk .bass) hbass hx
  have hv2 := stageOutput_isZero64 (fun i => d (9 + i)) (finiteCoefs_band hk .mid) hmid hv1
  have hv3 := stageOutput_isZero64 (fun i => d (18 + i)) (finiteCoefs_band hk .treble) htreble hv2
  exact ⟨hv3, zeroHists_iff.2
    ⟨shiftHist_zeroHist hbass hx hv1, shiftHist_zeroHist hmid hv1 hv2, shiftHist_zeroHist htreble hv2 hv3⟩⟩

theorem processWord_silent (d : Nat) {h : PerBand Hist} {w : Word} (hh : ZeroHists h) (hw : isZero32 w) :
    isZero32 (processWord d k h w).1 ∧ ZeroHists (processWord d k h w).2 := by
  obtain ⟨hout, hhist⟩ := applySample_silent hk _ hh (f2d_isZero64 _ hw)
  exact ⟨d2f_isZero32 _ hout, hhist⟩

theorem monoSeq_silent (d : Nat) {h : PerBand Hist} {ws : Buffer} (hh : ZeroHists h) (hws : ∀ w ∈ ws, isZero32 w) :
    (∀ w ∈ (monoSeq k d h ws).1, isZero32 w) ∧ ZeroHists (monoSeq k d h ws).2 := by
  induction ws generalizing d h with
  | nil => exact ⟨List.forall_mem_nil _, hh⟩
  | cons w ws ih =>
    obtain ⟨hw, hws⟩ := List.forall_mem_cons.1 hws
    obtain ⟨hout, hhist⟩ := processWord_silent hk d hh hw
    obtain ⟨houts, hlast⟩ := ih (d + drawsPerSample) hhist hws
    exact ⟨List.forall_mem_cons.2 ⟨hout, houts⟩, hlast⟩

theorem stereoSeq_silent (d : Nat) {hL hR : PerBand Hist} {l r : Buffer} (hhL : ZeroHists hL) (hhR : ZeroHists hR)
    (hl : ∀ w ∈ l, isZero32 w) (hr : ∀ w ∈ r, isZero32 w) :
    ((∀ w ∈ (stereoSeq k d hL hR l r).outL, isZero32 w) ∧ (∀ w ∈ (stereoSeq k d hL hR l r).outR, isZero32 w)) ∧
    ZeroHists (stereoSeq k d hL hR l r).histL ∧ ZeroHists (stereoSeq k d hL hR l r).histR := by
  induction l generalizing d hL hR r with
  | nil => exact ⟨⟨List.forall_mem_nil _, List.forall_mem_nil _⟩, hhL, hhR⟩
  | cons x l ih =>
    cases r with
    | nil => exact ⟨⟨List.forall_mem_nil _, List.forall_mem_nil _⟩, hhL, hhR⟩
    | cons y r =>
      obtain ⟨hx, hl⟩ := List.forall_mem_cons.1 hl
      obtain ⟨hy, hr⟩ := List.forall_mem_cons.1 hr
      obtain ⟨houtL, hhL⟩ := processWord_silent hk d hhL hx
      obtain ⟨houtR, hhR⟩ := processWord_silent hk (d + drawsPerSample) hhR hy
      obtain ⟨⟨houtsL, houtsR⟩, hlast⟩ := ih (d + 2 * drawsPerSample) hhL hhR hl hr
      exact ⟨⟨List.forall_mem_cons.2 ⟨houtL, houtsL⟩, List.forall_mem_cons.2 ⟨houtR, houtsR⟩⟩, hlast⟩

end Silence

/-- Settles O22: one sample by the cascade, the buffers by induction over their words. -/
theorem silenceInGivesSilenceOut : Obligations.SilenceInGivesSilenceOut := by
  intro k h hk hh
  refine ⟨fun d x => applySample_silent hk d hh, fun d ws => monoSeq_silent hk d hh, fun g d l r hg hws => ?_⟩
  obtain ⟨hl, hr⟩ := List.forall_mem_append.1 hws
  obtain ⟨houts, hhists⟩ := stereoSeq_silent hk d hh hg hl hr
  exact ⟨List.forall_mem_append.2 houts, hhists⟩

end Sys2Proof.Proofs
end

section
/-! PROOFS. The buffer processor (R170 to R185): the response of a buffer command, P-begin of a valid command, and P-end. -/

namespace Sys2Proof.Proofs

open Sys2Proof Sys2Proof.Machine Sys2Proof.Claims

/-! ### Responses -/

/-- R81, mono: the status word, the length, the samples. -/
theorem response_mono (n : Nat) (out : PerChannel Buffer) :
    response (JobKind.opcBits .mono) .ok (bufferResults .mono n out) =
      0x40000000#32 :: BitVec.ofNat 32 n :: out.left := by
  have hword : statusWord (JobKind.opcBits .mono) .ok = 0x40000000#32 := by decide
  rw [response, hword, bufferResults]

/-- R81, stereo: the status word, both lengths, the left samples, the right samples. -/
theorem response_stereo (n : Nat) (out : PerChannel Buffer) :
    response (JobKind.opcBits .stereo) .ok (bufferResults .stereo n out) =
      0x41000000#32 :: BitVec.ofNat 32 n :: BitVec.ofNat 32 n :: (out.left ++ out.right) := by
  have hword : statusWord (JobKind.opcBits .stereo) .ok = 0x41000000#32 := by decide
  rw [response, hword, bufferResults]

/-! ### P-begin -/

/-- With no buffer in flight PROCM is P-begin on one channel (R170). -/
theorem exec_procM {s : State} (hj : s.job = none) (fs : Word) (buf : Option Buffer) :
    exec (.procM fs buf) s = .next (pBegin .mono fs (buf.map (⟨·, []⟩)) s) := by
  rw [exec, execProcM, hj]

/-- With no buffer in flight PROCS is P-begin on two channels (R171). -/
theorem exec_procS {s : State} (hj : s.job = none) (fs : Word) (left right : Option Buffer) :
    exec (.procS fs left right) s = .next (pBegin .stereo fs (stereoInput left right) s) := by
  rw [exec, execProcS, hj]

/-- R173 past its validation: the zero-length path, the disabled path, the start of the job. -/
theorem pBegin_of_valid {kind : JobKind} {fs : Word} {io : PerChannel Buffer} (s : State) (hfs : 0 < sext32 fs)
    (hlen : kind = .stereo → io.left.length = io.right.length) :
    pBegin kind fs (some io) s =
      if io.left.length = 0 then s.respond .processing (JobKind.opcBits kind) .ok (bufferResults kind 0 ⟨[], []⟩)
      else if s.en = false then
        s.respond .processing (JobKind.opcBits kind) .ok (bufferResults kind io.left.length io)
      else startJob kind io (syncRate fs s) := by
  have hmatch : ¬ (kind = .stereo ∧ io.left.length ≠ io.right.length) := fun ⟨hstereo, hne⟩ => hne (hlen hstereo)
  rw [pBegin, if_neg (not_le.2 hfs), if_neg hmatch]

/-- The results of a zero-length command are those of passing its empty input through. -/
theorem bufferResults_of_empty {kind : JobKind} {io : PerChannel Buffer} (hleft : io.left.length = 0)
    (hlen : kind = .stereo → io.left.length = io.right.length) :
    bufferResults kind 0 ⟨[], []⟩ = bufferResults kind io.left.length io := by
  have hl : io.left = [] := List.eq_nil_of_length_eq_zero hleft
  cases kind with
  | mono => rw [bufferResults, bufferResults, hl, List.length_nil]
  | stereo =>
    have hr : io.right = [] := List.eq_nil_of_length_eq_zero ((hlen rfl).symm.trans hleft)
    rw [bufferResults, bufferResults, hl, hr, List.length_nil]

/-- R175: disabled, a valid command of any length is answered at once with its own input. -/
theorem pBegin_of_disabled {kind : JobKind} {fs : Word} {io : PerChannel Buffer} {s : State} (hen : s.en = false)
    (hfs : 0 < sext32 fs) (hlen : kind = .stereo → io.left.length = io.right.length) :
    pBegin kind fs (some io) s =
      s.respond .processing (JobKind.opcBits kind) .ok (bufferResults kind io.left.length io) := by
  rw [pBegin_of_valid s hfs hlen, if_pos hen]
  split
  case isTrue hempty => rw [bufferResults_of_empty hempty hlen]
  case isFalse => rfl

/-- Settles O31: P-begin of a disabled engine, for one channel and for two. -/
theorem disabledIsExactPassThrough : Obligations.DisabledIsExactPassThrough := by
  intro fs s hj hfs hen
  refine ⟨fun buf => ?_, fun l r hlr => ?_⟩
  · rw [exec_procM hj, Option.map_some, pBegin_of_disabled (kind := .mono) hen hfs nofun, State.respond, response_mono]
    rfl
  · rw [exec_procS hj, stereoInput, pBegin_of_disabled hen hfs (fun _ => hlr), State.respond, response_stereo, ← hlr]
    rfl

/-! ### P-end -/

/-- At the end of a valid job every output word has been written (R177). -/
theorem output_length_of_end {j : Job} (hv : j.Valid) (hend : j.idx = j.n) :
    j.output.left.length = j.input.left.length ∧ j.output.right.length = j.input.right.length := by
  have hch : j.ch ≠ .right := fun hright => (hv.right_stereo hright).2.ne hend
  constructor
  · rw [hv.output_left, if_neg hch, hv.input_left, hend, Nat.add_zero]
  · rw [hv.output_right, hv.input_right, hend]

/-- R56: the processing agent's step with a buffer in flight, P-sample below its length and P-end at it. -/
theorem step_of_job {s s1 : State} {j : Job} (hr : s.resetInput = false) (hpick : s.pick = some (.processing, s1))
    (hj : s1.job = some j) : step s = .next (if j.idx < j.n then pSample j s1 else pEnd j s1) := by
  have haction : s1.action .processing = .done (if j.idx < j.n then pSample j s1 else pEnd j s1) := by
    rw [apply_ite Action.done, State.action, hj]
  simp [step, hr, hpick, haction]

theorem step_of_job_end {s s1 : State} {j : Job} (hr : s.resetInput = false)
    (hpick : s.pick = some (.processing, s1)) (hj : s1.job = some j) (hend : j.idx = j.n) :
    step s = .next (pEnd j s1) := by
  rw [step_of_job hr hpick hj, if_neg hend.not_lt]

/-- Settles O35: the counts of a valid job at its end, and P-end's response for either kind. -/
theorem endStepDeliversWholeOutputs : Obligations.EndStepDeliversWholeOutputs := by
  intro s s1 j hr hpick hj hv hend
  obtain ⟨hleft, hright⟩ := output_length_of_end hv hend
  refine ⟨hleft, hright, fun hkind => ?_, fun hkind => ?_⟩
  · rw [step_of_job_end hr hpick hj hend, pEnd, hkind, response_mono]
    rfl
  · rw [step_of_job_end hr hpick hj hend, pEnd, hkind, response_stereo]
    rfl

end Sys2Proof.Proofs
end

section
set_option deprecated.oldSectionVars true
theorem stallx : True := by
  sleep 15000
  trivial
end

section
/-! PROOFS. The command encoding (R71 to R92): encoder and decoder undo each other, the decoder's checks in their order,
the rows of the opcode map, the byte form. -/

namespace Sys2Proof.Proofs

-- The proofs of this section are elaborated one after another: the check compiles the whole text in one process of
-- bounded memory.
set_option deprecated.oldSectionVars true
set_option linter.all false

open Sys2Proof Sys2Proof.Machine Sys2Proof.Claims

/-! ### Headers that pass the field check -/

/-- Past the header's checks only the length is left to fail (R86). -/
theorem decode_of_header {o : Opc} {h : Word} (ho : opcOf (opcField h) = some o) (hf : fieldsOk o.format h = true)
    (rest : Packet) :
    decode o.port (h :: rest) =
      if totalLength o.format h (h :: rest) = some (rest.length + 1) then assemble o h (h :: rest)
      else .illegal (opcField h) .badLength := by
  simp [decode, ho, hf, ite_not]

theorem decode_of_length {o : Opc} {h : Word} {rest : Packet} (ho : opcOf (opcField h) = some o)
    (hf : fieldsOk o.format h = true) (hl : totalLength o.format h (h :: rest) = some (rest.length + 1)) :
    decode o.port (h :: rest) = assemble o h (h :: rest) := by
  rw [decode_of_header ho hf, if_pos hl]

/-- The header's checks of an encoding do not depend on its operation code. -/
theorem decode_of_encoded {o : Opc} {b : BitVec 2} {f1 f0 : Bool} {rest : Packet}
    (hf : fieldsOk o.format (header 0#8 b f1 f0) = true)
    (hl : totalLength o.format (header o.bits b f1 f0) (header o.bits b f1 f0 :: rest) = some (rest.length + 1)) :
    decode o.port (header o.bits b f1 f0 :: rest) =
      assemble o (header o.bits b f1 f0) (header o.bits b f1 f0 :: rest) := by
  have hopc : opcOf (opcField (header o.bits b f1 f0)) = some o := by rw [opcField_header, opcOf_bits]
  rw [fieldsOk.eq_def, reservedClear_header, bandField_header, flag1_header, flag0_header] at hf
  refine decode_of_length hopc ?_ hl
  rw [fieldsOk.eq_def, reservedClear_header, bandField_header, flag1_header, flag0_header]
  exact hf

/-! ### Word counts -/

theorem totalLength_pm (h : Word) (pkt : Packet) :
    totalLength .pm h pkt = (bufferWords pkt (flag0 h) 2).map (2 + ·) := by
  simp [totalLength]

theorem totalLength_ps (h : Word) (pkt : Packet) : totalLength .ps h pkt =
    (bufferWords pkt (flag0 h) 2).bind fun l => (bufferWords pkt (flag1 h) (rightLengthIndex h)).map (2 + l + ·) := by
  unfold totalLength
  generalize bufferWords pkt (flag0 h) 2 = l
  generalize bufferWords pkt (flag1 h) (rightLengthIndex h) = r
  cases l <;> cases r <;> rfl

/-! ### Decoding an encoding -/

theorem bufferFits_toNat {b : Buffer} (h : bufferFits b = true) : (BitVec.ofNat 32 b.length).toNat = b.length := by
  have hlen : b.length ≤ 2 ^ 32 - 1 := of_decide_eq_true h
  rw [BitVec.toNat_ofNat]
  exact Nat.mod_eq_of_lt (Nat.lt_of_le_of_lt hlen (by decide))

/-- A buffer's length word accounts for the words it adds. -/
theorem bufferWords_of_operand {buf : Option Buffer} {pkt : Packet} {i : Nat} (hfit : operandFits buf = true)
    (hi : ∀ b, buf = some b → pkt[i]? = some (BitVec.ofNat 32 b.length)) :
    bufferWords pkt buf.isNone i = some ((lengthWords buf).length + (sampleWords buf).length) := by
  cases buf with
  | none => rfl
  | some b =>
    have hlen : (1 + ·) (BitVec.ofNat 32 b.length).toNat = 1 + b.length := congrArg (1 + ·) (bufferFits_toNat hfit)
    exact (congrArg (Option.map _) (hi b rfl)).trans (congrArg some hlen)

theorem decode_encode_procM (fs : Word) {buf : Option Buffer} (hfit : operandFits buf = true) :
    decode .processing (encode (.procM fs buf)) = .cmd (.procM fs buf) := by
  have hfields : ∀ f0 : Bool, fieldsOk .pm (header 0#8 0#2 false f0) = true := by decide
  refine (decode_of_encoded (o := .procM) (hfields _) ?_).trans ?_
  · rw [Opc.format, totalLength_pm, flag0_header, bufferWords_of_operand hfit (by rintro b rfl; rfl), ← List.length_append]
    exact congrArg some (Nat.add_comm _ _)
  · rw [assemble, flag0_header]
    cases buf <;> rfl

theorem decode_encode_procS (fs : Word) {left right : Option Buffer} (hl : operandFits left = true)
    (hr : operandFits right = true) :
    decode .processing (encode (.procS fs left right)) = .cmd (.procS fs left right) := by
  have hfields : ∀ f1 f0 : Bool, fieldsOk .ps (header 0#8 0#2 f1 f0) = true := by decide
  refine (decode_of_encoded (o := .procS) (hfields _ _) ?_).trans ?_
  · rw [Opc.format, totalLength_ps, rightLengthIndex, flag0_header, flag1_header,
      bufferWords_of_operand hl (by rintro b rfl; rfl),
      Option.bind_some, bufferWords_of_operand hr (by rintro b rfl; cases left <;> rfl), Option.map_some]
    have happ (a b : Packet) : (a.append b).length = a.length + b.length := List.length_append
    rw [happ, happ, happ, happ, List.length_singleton]
    exact congrArg some (by omega)
  · rw [assemble, stereoSamples, leftCount, flag0_header, flag1_header]
    cases left with
    | none => cases right <;> rfl
    | some l =>
      have hlen : l.length = (BitVec.ofNat 32 l.length).toNat := (bufferFits_toNat hl).symm
      cases right with
      | none =>
        have htake : (l ++ []).take (BitVec.ofNat 32 l.length).toNat = l := List.take_left' hlen
        exact congrArg (fun b => Decoded.cmd (.procS fs (some b) none)) htake
      | some r =>
        have htake : (l ++ r).take (BitVec.ofNat 32 l.length).toNat = l := List.take_left' hlen
        have hdrop : (l ++ r).drop (BitVec.ofNat 32 l.length).toNat = r := List.drop_left' hlen
        exact congrArg₂ (fun b c => Decoded.cmd (.procS fs (some b) (some c))) htake hdrop

/-- A command whose packet is a header alone, or a header and a value. -/
theorem decode_encode_control {i : Instr} (hp : i.port = .control) : decode .control (encode i) = .cmd i := by
  cases i with
  | setEn en =>
    have hfields : ∀ f0 : Bool, fieldsOk .c1 (header 0#8 0#2 false f0) = true := by decide
    refine (decode_of_encoded (o := .setEn) (hfields en) rfl).trans ?_
    rw [assemble, flag0_header]
  | getEn => exact decode_of_encoded (o := .getEn) (by decide) rfl
  | rstf => exact decode_of_encoded (o := .rstf) (by decide) rfl
  | setBass v | setMid v | setTreb v =>
    refine (decode_of_encoded (o := .setLevel) (by decide) rfl).trans ?_
    rw [assemble, levelCommand, bandField_header]
    rfl
  | getBass | getMid | getTreb =>
    refine (decode_of_encoded (o := .getLevel) (by decide) rfl).trans ?_
    rw [assemble, levelCommand, bandField_header]
    rfl
  | procM | procS => cases hp

/-- Settles O2, by the ports: short packets on the C-port, buffers on the P-port. -/
theorem decodeOfEncodeIsTheCommand : Obligations.DecodeOfEncodeIsTheCommand := by
  intro i hwf
  cases i with
  | procM fs buf => exact decode_encode_procM fs hwf
  | procS fs left right =>
    obtain ⟨hl, hr⟩ := Bool.and_eq_true_iff.1 hwf
    exact decode_encode_procS fs hl hr
  | setEn | getEn | setBass | setMid | setTreb | getBass | getMid | getTreb | rstf => exact decode_encode_control rfl

/-! ### Encoding a decoded command -/

theorem header_of_opcOf {o : Opc} {h : Word} (ho : opcOf (opcField h) = some o) (hr : reservedClear h = true) :
    header o.bits (bandField h) (flag1 h) (flag0 h) = h := by
  rw [← bits_of_opcOf ho, header_of_fields hr]

/-- The length word of a buffer that has as many samples as it says. -/
theorem ofNat_length_of_eq {b : Buffer} {w : Word} (h : b.length = w.toNat) :
    BitVec.ofNat 32 b.length = w ∧ bufferFits b = true := by
  have hlt := w.isLt
  refine ⟨by rw [h, BitVec.ofNat_toNat, BitVec.setWidth_eq], decide_eq_true ?_⟩
  rw [h, Config.maxLen]
  omega

theorem eq_nil_of_one_word {rest : Packet} (h : some 1 = some (rest.length + 1)) : rest = [] :=
  List.eq_nil_of_length_eq_zero (by simpa using h.symm)

/-- A present buffer (R76, R77): its length word stands at the head of `tail`, and that many words follow, and others. -/
theorem exists_samples {pkt tail : Packet} {i c m : Nat} (h : bufferWords pkt false i = some c) (hi : pkt[i]? = tail[0]?)
    (hlen : tail.length = c + m) : ∃ w samples, tail = w :: samples ∧ samples.length = w.toNat + m := by
  obtain ⟨w, hw, rfl⟩ := Option.map_eq_some_iff.1 h
  rw [hi] at hw
  cases tail with
  | nil => cases hw
  | cons v samples =>
    cases hw
    exact ⟨_, samples, rfl, Nat.add_left_cancel ((Nat.add_comm 1 _).trans (hlen.trans (Nat.add_assoc ..)))⟩

theorem encode_procM_some {fs w : Word} {b : Buffer} (h : b.length = w.toNat) :
    encode (.procM fs (some b)) = header Opc.procM.bits 0#2 false false :: fs :: w :: b := by
  rw [← (ofNat_length_of_eq h).1]; rfl

theorem encode_procS_left {fs w : Word} {l : Buffer} (h : l.length = w.toNat) :
    encode (.procS fs (some l) none) = header Opc.procS.bits 0#2 true false :: fs :: w :: l := by
  rw [← (ofNat_length_of_eq h).1]
  exact congrArg (fun b => _ :: fs :: _ :: b) (List.append_nil l)

theorem encode_procS_right {fs w : Word} {r : Buffer} (h : r.length = w.toNat) :
    encode (.procS fs none (some r)) = header Opc.procS.bits 0#2 false true :: fs :: w :: r := by
  rw [← (ofNat_length_of_eq h).1]; rfl

theorem encode_procS_both {fs wL wR : Word} {l r : Buffer} (hl : l.length = wL.toNat) (hr : r.length = wR.toNat) :
    encode (.procS fs (some l) (some r)) = header Opc.procS.bits 0#2 false false :: fs :: wL :: wR :: (l ++ r) := by
  rw [← (ofNat_length_of_eq hl).1, ← (ofNat_length_of_eq hr).1]; rfl

/-- A packet of `2 + c` words, its header taken away: one word, `fs`, and `c` words. -/
theorem exists_cons_of_length {rest : Packet} {c : Nat} (h : 2 + c = rest.length + 1) :
    ∃ w tail, rest = w :: tail ∧ tail.length = c := by
  have hlen : rest.length = c + 1 := Nat.succ.inj (h.symm.trans (Nat.add_comm 2 c))
  obtain ⟨w, tail, rfl⟩ := List.exists_cons_of_length_eq_add_one hlen
  exact ⟨w, tail, rfl, Nat.succ.inj hlen⟩

section Assembled

variable {h : Word} {rest : Packet} {i : Instr}

/-- The format PM (R76): fs, and the length word with its samples where the buffer is present. -/
theorem encode_of_assemble_procM (ho : opcOf (opcField h) = some .procM) (hf : fieldsOk .pm h = true)
    (hl : totalLength .pm h (h :: rest) = some (rest.length + 1)) (ha : assemble .procM h (h :: rest) = .cmd i) :
    encode i = h :: rest ∧ i.wellFormed = true := by
  simp only [fieldsOk, Bool.and_eq_true, beq_iff_eq, Bool.not_eq_true'] at hf
  obtain ⟨hr, hband, hf1⟩ := hf
  have hh := header_of_opcOf ho hr
  rw [totalLength_pm] at hl
  obtain ⟨c, hc, hsum⟩ := Option.map_eq_some_iff.1 hl
  obtain ⟨fs, tail, rfl, hlen⟩ := exists_cons_of_length hsum
  rw [hband, hf1] at hh
  rw [← Decoded.cmd.inj ha]
  generalize flag0 h = f0 at *
  cases f0
  · obtain ⟨w, samples, rfl, hsamples⟩ := exists_samples (m := 0) hc rfl hlen
    exact ⟨(encode_procM_some hsamples).trans (congrArg (· :: _) hh), (ofNat_length_of_eq hsamples).2⟩
  · cases hc
    obtain rfl := List.eq_nil_of_length_eq_zero hlen
    exact ⟨congrArg (· :: _) hh, rfl⟩

/-- The format PS (R77): fs, the length words of the buffers present, and their samples, left before right. -/
theorem encode_of_assemble_procS (ho : opcOf (opcField h) = some .procS) (hf : fieldsOk .ps h = true)
    (hl : totalLength .ps h (h :: rest) = some (rest.length + 1)) (ha : assemble .procS h (h :: rest) = .cmd i) :
    encode i = h :: rest ∧ i.wellFormed = true := by
  simp only [fieldsOk, Bool.and_eq_true, beq_iff_eq] at hf
  obtain ⟨hr, hband⟩ := hf
  have hh := header_of_opcOf ho hr
  rw [totalLength_ps, Option.bind_eq_some_iff] at hl
  obtain ⟨l, hL, hl⟩ := hl
  obtain ⟨r, hR, hsum⟩ := Option.map_eq_some_iff.1 hl
  obtain ⟨fs, tail, rfl, hlen⟩ := exists_cons_of_length ((Nat.add_assoc ..).symm.trans hsum)
  rw [hband] at hh
  rw [rightLengthIndex] at hR
  rw [← Decoded.cmd.inj ha, stereoSamples, leftCount]
  clear ha hl hsum
  generalize flag0 h = f0 at *
  generalize flag1 h = f1 at *
  cases f0 <;> cases f1
  · obtain ⟨wL, tail, rfl, htail⟩ := exists_samples hL rfl hlen
    obtain ⟨wR, samples, rfl, hsamples⟩ := exists_samples hR rfl (htail.trans (Nat.add_comm ..))
    have hleft : (samples.take wL.toNat).length = wL.toNat := by rw [List.length_take, hsamples]; omega
    have hright : (samples.drop wL.toNat).length = wR.toNat := by rw [List.length_drop, hsamples, Nat.add_sub_cancel]
    refine ⟨(encode_procS_both hleft hright).trans ?_,
      Bool.and_eq_true_iff.2 ⟨(ofNat_length_of_eq hleft).2, (ofNat_length_of_eq hright).2⟩⟩
    rw [hh, List.take_append_drop]; rfl
  · cases hR
    obtain ⟨w, samples, rfl, hsamples⟩ := exists_samples hL rfl hlen
    have htake : samples.take w.toNat = samples := List.take_of_length_le hsamples.le
    rw [← hh]
    exact ⟨(encode_procS_left (htake.symm ▸ hsamples)).trans (congrArg (_ :: fs :: w :: ·) htake),
      Bool.and_eq_true_iff.2 ⟨(ofNat_length_of_eq (htake.symm ▸ hsamples)).2, rfl⟩⟩
  · cases hL
    obtain ⟨w, samples, rfl, hsamples⟩ := exists_samples (m := 0) hR rfl (hlen.trans (Nat.zero_add r))
    exact ⟨(encode_procS_right hsamples).trans (congrArg (· :: _) hh), (ofNat_length_of_eq hsamples).2⟩
  · cases hL
    cases hR
    obtain rfl := List.eq_nil_of_length_eq_zero hlen
    exact ⟨congrArg (· :: _) hh, rfl⟩

/-- The formats CV and CB (R74, R75): the band field names the band, and the words behind the header stay. -/
theorem encode_of_levelCommand {o : Opc} (ho : opcOf (opcField h) = some o) (hr : reservedClear h = true)
    (hf1 : flag1 h = false) (hf0 : flag0 h = false) {k : Band → Instr}
    (hk : ∀ b, encode (k b) = header o.bits b.bits false false :: rest) (hwf : ∀ b, (k b).wellFormed = true)
    (ha : levelCommand h k = .cmd i) : encode i = h :: rest ∧ i.wellFormed = true := by
  have hh := header_of_opcOf ho hr
  unfold levelCommand at ha
  split at ha <;> cases ha
  next b hb =>
    rw [bits_of_bandOf hb, hf1, hf0] at hh
    exact ⟨by rw [hk, hh], hwf b⟩

/-- Every check a command's packet has passed fixes a part of it, and together they fix the whole. -/
theorem encode_of_assemble {o : Opc} (ho : opcOf (opcField h) = some o) (hf : fieldsOk o.format h = true)
    (hl : totalLength o.format h (h :: rest) = some (rest.length + 1)) (ha : assemble o h (h :: rest) = .cmd i) :
    encode i = h :: rest ∧ i.wellFormed = true := by
  cases o with
  | procM => exact encode_of_assemble_procM ho hf hl ha
  | procS => exact encode_of_assemble_procS ho hf hl ha
  | setLevel =>
    simp only [fieldsOk, Opc.format, Bool.and_eq_true, Bool.not_eq_true'] at hf
    obtain ⟨hr, ⟨-, hf1⟩, hf0⟩ := hf
    obtain ⟨v, rfl⟩ : ∃ v, rest = [v] := List.length_eq_one_iff.1 (by simpa [totalLength, Opc.format, eq_comm] using hl)
    exact encode_of_levelCommand ho hr hf1 hf0 (fun b => by cases b <;> rfl) (fun b => by cases b <;> rfl) ha
  | getLevel =>
    simp only [fieldsOk, Opc.format, Bool.and_eq_true, Bool.not_eq_true'] at hf
    obtain ⟨hr, ⟨-, hf1⟩, hf0⟩ := hf
    obtain rfl := eq_nil_of_one_word hl
    exact encode_of_levelCommand ho hr hf1 hf0 (fun b => by cases b <;> rfl) (fun b => by cases b <;> rfl) ha
  | setEn =>
    simp only [fieldsOk, Opc.format, Bool.and_eq_true, Bool.not_eq_true', beq_iff_eq] at hf
    obtain ⟨hr, hband, hf1⟩ := hf
    obtain rfl := eq_nil_of_one_word hl
    have hh := header_of_opcOf ho hr
    rw [hband, hf1] at hh
    cases ha
    exact ⟨by rw [encode, hh], rfl⟩
  | getEn | rstf =>
    simp only [fieldsOk, Opc.format, Bool.and_eq_true, Bool.not_eq_true', beq_iff_eq] at hf
    obtain ⟨hr, ⟨hband, hf1⟩, hf0⟩ := hf
    obtain rfl := eq_nil_of_one_word hl
    have hh := header_of_opcOf ho hr
    rw [hband, hf1, hf0] at hh
    cases ha
    exact ⟨by rw [encode, hh], rfl⟩

end Assembled

/-- Settles O3: the checks a decoded packet has passed, and its port. -/
theorem encodeOfDecodeIsThePacket : Obligations.EncodeOfDecodeIsThePacket := by
  intro port pkt i h
  obtain ⟨hd, rest, o, rfl, ho, -, hf, hl, ha⟩ := decode_cmd_cases h
  obtain ⟨henc, hwf⟩ := encode_of_assemble ho hf hl ha
  exact ⟨henc, port_of_decode h, hwf⟩

/-! ### The decoder's checks in their order -/

theorem mem_knownOpcs_iff {b : BitVec 8} : b ∈ knownOpcs ↔ ∃ o, opcOf b = some o := by
  constructor
  · intro hb
    simp only [knownOpcs, List.mem_cons, List.not_mem_nil, or_false] at hb
    obtain rfl | rfl | rfl | rfl | rfl | rfl | rfl := hb <;> exact ⟨_, rfl⟩
  · rintro ⟨o, ho⟩
    rw [bits_of_opcOf ho]
    cases o <;> decide

/-- R88: the two buffer commands are the P-port's. -/
theorem port_eq_iff {o : Opc} {port : Agent} :
    o.port = port ↔ (o.bits ∈ [0x40#8, 0x41#8] ↔ port = .processing) := by
  cases o <;> cases port <;> decide

/-- R85's checks of the band field and the flags, as `BadFields` has them. -/
noncomputable def operandsFail (c : BitVec 8) (b : BitVec 2) (f1 f0 : Bool) : Bool :=
  decide ((c ∈ [0x10#8, 0x11#8] ∧ b = 3#2) ∨ (c ∈ [0x01#8, 0x02#8, 0x20#8, 0x40#8, 0x41#8] ∧ b ≠ 0#2) ∨
    (c ≠ 0x41#8 ∧ f1 = true) ∨ (c ∈ [0x02#8, 0x10#8, 0x11#8, 0x20#8] ∧ f0 = true))

theorem operandsFail_bits : ∀ o ∈ [Opc.setEn, .getEn, .setLevel, .getLevel, .rstf, .procM, .procS],
    ∀ (b : BitVec 2) (f1 f0 : Bool), operandsFail o.bits b f1 f0 = !fieldsOk o.format (header 0#8 b f1 f0) := by
  decide

/-- R85's failures are those of the field check of the operation's format. -/
theorem not_badFields_iff {o : Opc} {h : Word} (ho : opcOf (opcField h) = some o) :
    ¬ BadFields h ↔ fieldsOk o.format h = true := by
  have hopc : opcBits h = o.bits := bits_of_opcOf ho
  have hbad : BadFields h ↔
      h.extractLsb' 18 6 ≠ 0#6 ∨ h.extractLsb' 2 14 ≠ 0#14 ∨ operandsFail o.bits (bandField h) (flag1 h) (flag0 h) = true := by
    rw [BadFields, hopc]
    exact or_congr_right (or_congr_right decide_eq_true_iff.symm)
  rw [hbad, operandsFail_bits o (by cases o <;> decide), fieldsOk.eq_def, reservedClear_header, Bool.true_and, bandField_header,
    flag1_header, flag0_header, fieldsOk.eq_def, reservedClear, Bool.and_eq_true, Bool.and_eq_true, beq_iff_eq, beq_iff_eq,
    not_or, not_or, not_not, not_not, and_assoc, Bool.not_eq_true, Bool.not_eq_false']

theorem map_add_map {k n : Nat} (h : n = k + 1) (p : Option Word) :
    p.map (fun w => n + w.toNat) = (p.map fun w => 1 + w.toNat).map (k + ·) := by
  rw [Option.map_map, h]
  exact Option.map_congr fun w _ => Nat.add_assoc k 1 w.toNat

/-- The word count of R72 to R77, read off the formats. -/
theorem need_eq_totalLength {o : Opc} {h : Word} (ho : opcOf (opcField h) = some o) (pkt : Packet) :
    need h pkt = totalLength o.format h pkt := by
  have hopc : opcBits h = o.bits := bits_of_opcOf ho
  rw [need, hopc]
  cases o with
  | procM =>
    change (if flag0 h then some 2 else _) = _
    rw [Opc.format, totalLength_pm, bufferWords]
    cases flag0 h with
    | true => rfl
    | false => exact map_add_map rfl pkt[2]?
  | procS =>
    change (match flag0 h, flag1 h with
      | true, true => some 2 | true, false => _ | false, true => _ | false, false => _) = _
    rw [Opc.format, totalLength_ps, rightLengthIndex, bufferWords, bufferWords]
    cases flag0 h with
    | true =>
      cases flag1 h with
      | true => rfl
      | false => exact map_add_map rfl pkt[2]?
    | false =>
      cases flag1 h with
      | true => cases pkt[2]? with
        | none => rfl
        | some l => exact congrArg some (Nat.add_assoc 2 1 _)
      | false => cases pkt[2]? with
        | none => rfl
        | some l =>
          exact map_add_map (show 4 + l.toNat = 2 + (1 + l.toNat) + 1 by omega) pkt[3]?
  | setEn | getEn | setLevel | getLevel | rstf => rfl

theorem exists_cmd_of_assemble {o : Opc} {h : Word} (hf : fieldsOk o.format h = true) (pkt : Packet) :
    ∃ i, assemble o h pkt = .cmd i := by
  have hnames : ∀ v : BitVec 2, v ≠ 3#2 → (bandOf v).isSome := by decide
  cases o with
  | setLevel | getLevel =>
    simp only [fieldsOk, Opc.format, Bool.and_eq_true, bne_iff_ne] at hf
    obtain ⟨-, ⟨hband, -⟩, -⟩ := hf
    obtain ⟨b, hb⟩ := Option.isSome_iff_exists.1 (hnames _ hband)
    simp [assemble, levelCommand, hb]
  | setEn | getEn | rstf | procM | procS => exact ⟨_, rfl⟩

/-- Settles O4: each clause of the statement is the decoder's check of the same name. -/
theorem decoderReportsTheFirstFailingCheck : Obligations.DecoderReportsTheFirstFailingCheck := by
  intro port h rest
  refine ⟨rfl, fun hunknown => ?_, fun hknown hport => ?_, fun hknown hport hbad => ?_,
    fun hknown hport hfields hlen => ?_, fun hknown hport hfields hlen => ?_⟩
  · have hnone : opcOf (opcField h) = none :=
      Option.eq_none_iff_forall_ne_some.2 fun o ho => hunknown (mem_knownOpcs_iff.2 ⟨o, ho⟩)
    simp only [decode, hnone]
    rfl
  all_goals
    obtain ⟨o, ho⟩ : ∃ o, opcOf (opcField h) = some o := mem_knownOpcs_iff.1 hknown
    have hopc : opcBits h = o.bits := bits_of_opcOf ho
    rw [hopc, ← port_eq_iff] at hport
  · simp only [decode, ho, ne_eq, hport, not_false_eq_true, if_true]
    rfl
  · subst hport
    have hf : fieldsOk o.format h = false := Bool.eq_false_iff.2 fun hok => (not_badFields_iff ho).2 hok hbad
    simp only [decode, ho, ne_eq, not_true_eq_false, if_false, hf, if_true]
    rfl
  all_goals
    subst hport
    rw [decode_of_header ho ((not_badFields_iff ho).1 hfields)]
    rw [need_eq_totalLength ho] at hlen
  · rw [if_neg hlen]
    rfl
  · rw [if_pos hlen]
    exact exists_cmd_of_assemble ((not_badFields_iff ho).1 hfields) _

/-! ### The rows of the opcode map -/

/-- Every row fixes the thirty bits above the flags. -/
theorem and_flags_of_selects {h : Word} {r : Row} (hr : r ∈ rows) (hs : Selects h r) :
    h &&& 0xFFFFFFFC#32 = r.matchBits &&& 0xFFFFFFFC#32 := by
  have hmask : ∀ r ∈ rows, r.mask &&& 0xFFFFFFFC#32 = 0xFFFFFFFC#32 := by decide
  rw [← hs, BitVec.and_assoc, hmask r hr]

theorem rows_disjoint (h : Word) : rows.Pairwise (fun r q => ¬ (Selects h r ∧ Selects h q)) := by
  have hdistinct : rows.Pairwise (fun r q => r.matchBits &&& 0xFFFFFFFC#32 ≠ q.matchBits &&& 0xFFFFFFFC#32) := by decide
  refine hdistinct.imp_of_mem fun hr hq hne hboth => hne ?_
  rw [← and_flags_of_selects hr hboth.1, ← and_flags_of_selects hq hboth.2]

/-- The header of an encoding selects the command's row. -/
theorem encode_selects {i : Instr} {h : Word} {rest : Packet} (he : encode i = h :: rest) :
    ∃ r, rows[rowIndex i]? = some r ∧ r.port = i.port ∧ Selects h r := by
  cases i with
  | setEn en =>
    cases he
    refine ⟨_, rfl, rfl, ?_⟩
    unfold Selects
    cases en <;> decide
  | procM fs buf =>
    obtain ⟨rfl, -⟩ := List.cons.inj he
    refine ⟨_, rfl, rfl, ?_⟩
    unfold Selects
    cases buf.isNone <;> decide
  | procS fs left right =>
    obtain ⟨rfl, -⟩ := List.cons.inj he
    refine ⟨_, rfl, rfl, ?_⟩
    unfold Selects
    cases left.isNone <;> cases right.isNone <;> decide
  | getEn | setBass | setMid | setTreb | getBass | getMid | getTreb | rstf => cases he; exact ⟨_, rfl, rfl, by unfold Selects; decide⟩

/-- A header is its upper thirty bits with one of the four values of its flags. -/
theorem eq_or_flags (h : Word) : ∃ f : Fin 4, h = h &&& 0xFFFFFFFC#32 ||| BitVec.ofNat 32 f := by
  have hlt : (h &&& 3#32).toNat < 4 := by
    rw [BitVec.toNat_and]
    exact Nat.lt_of_le_of_lt Nat.and_le_right (by decide)
  refine ⟨⟨_, hlt⟩, ?_⟩
  rw [BitVec.ofNat_toNat, BitVec.setWidth_eq, ← BitVec.and_or_distrib_left]
  exact BitVec.and_allOnes.symm

/-- The place in the table of an operation's row, for the band its header names. -/
noncomputable def rowOf (o : Opc) (band : BitVec 2) : Nat :=
  match o with
  | .setEn => 0
  | .getEn => 1
  | .setLevel => 2 + band.toNat
  | .getLevel => 5 + band.toNat
  | .rstf => 8
  | .procM => 9
  | .procS => 10

theorem rowIndex_of_assemble {o : Opc} {h : Word} {pkt : Packet} {i : Instr} (ha : assemble o h pkt = .cmd i) :
    rowIndex i = rowOf o (bandField h) := by
  have hlevel (k : Band → Instr) (first : Nat) (hk : ∀ b, rowIndex (k b) = first + b.bits.toNat)
      (hl : levelCommand h k = .cmd i) : rowIndex i = first + (bandField h).toNat := by
    unfold levelCommand at hl
    split at hl <;> cases hl
    next b hb => rw [hk, bits_of_bandOf hb]
  cases o with
  | setLevel => exact hlevel _ 2 (fun b => by cases b <;> rfl) ha
  | getLevel => exact hlevel _ 5 (fun b => by cases b <;> rfl) ha
  | setEn | getEn | rstf | procM | procS => cases ha; rfl

/-- A row's upper thirty bits with one of the four values of the flags. -/
noncomputable def rowHeader (r : Row) (f : Fin 4) : Word := r.matchBits &&& 0xFFFFFFFC#32 ||| BitVec.ofNat 32 f

/-- A header that selects the row `p` passes the checks of the row's operation. -/
noncomputable def rowChecked (p : Row × Nat) (f : Fin 4) : Bool :=
  rowHeader p.1 f &&& p.1.mask != p.1.matchBits ||
    (opcOf (opcField (rowHeader p.1 f))).any fun o => o.port = p.1.port && fieldsOk o.format (rowHeader p.1 f) &&
      rowOf o (bandField (rowHeader p.1 f)) == p.2

theorem rows_checked : (rows.zipIdx.all fun p => (List.finRange 4).all (rowChecked p)) = true := by decide

theorem fieldsOk_of_selects {h : Word} {k : Nat} {r : Row} (hk : rows[k]? = some r) (hs : Selects h r) :
    ∃ o, opcOf (opcField h) = some o ∧ o.port = r.port ∧ fieldsOk o.format h = true ∧ rowOf o (bandField h) = k := by
  have hr : (r, k) ∈ rows.zipIdx := List.mk_mem_zipIdx_iff_getElem?.2 hk
  obtain ⟨f, hh⟩ := eq_or_flags h
  rw [and_flags_of_selects (List.mem_of_getElem? hk) hs] at hh
  obtain rfl : h = rowHeader r f := hh
  have hchecked : rowChecked (r, k) f = true :=
    List.all_eq_true.1 (List.all_eq_true.1 rows_checked _ hr) f (List.mem_finRange f)
  obtain hne | hany := Bool.or_eq_true_iff.1 hchecked
  · exact absurd hs (bne_iff_ne.1 hne)
  obtain ⟨o, ho, hrow⟩ := (Option.any_eq_true ..).1 hany
  simp only [Bool.and_eq_true, decide_eq_true_eq, beq_iff_eq, and_assoc] at hrow
  exact ⟨o, ho, hrow⟩

/-- Settles O5: a decoded packet is an encoding, whose header selects its row; and a header that selects a row has only
its length left to fail. -/
theorem headerSelectsTheCommandsRow : Obligations.HeaderSelectsTheCommandsRow := by
  refine ⟨rows_disjoint, fun port h rest i hd => ?_, fun h rest k r hk hs => ?_⟩
  · obtain ⟨he, hport, -⟩ := encodeOfDecodeIsThePacket port _ i hd
    rw [← hport]
    exact encode_selects he
  · obtain ⟨o, ho, hport, hf, hrow⟩ := fieldsOk_of_selects hk hs
    rw [← hport, decode_of_header ho hf]
    split
    · obtain ⟨i, ha⟩ := exists_cmd_of_assemble hf (h :: rest)
      exact .inl ⟨i, (rowIndex_of_assemble ha).trans hrow, ha⟩
    · exact .inr rfl

/-! ### Words and bytes -/

/-- Settles O1. -/
theorem specWordsDecodeToTheirCommands : Obligations.SpecWordsDecodeToTheirCommands := by
  have hdecode {i : Instr} (h : i.wellFormed = true) {pkt : Packet} {port : Agent} (hpkt : encode i = pkt)
      (hport : i.port = port) : decode port pkt = .cmd i := hpkt ▸ hport ▸ decodeOfEncodeIsTheCommand i h
  exact ⟨hdecode rfl rfl rfl, hdecode rfl rfl rfl, hdecode rfl rfl rfl, hdecode rfl rfl rfl, hdecode rfl rfl rfl,
    hdecode rfl rfl rfl, hdecode rfl rfl rfl, hdecode rfl rfl rfl, hdecode rfl rfl rfl, hdecode rfl rfl rfl,
    hdecode rfl rfl rfl, hdecode rfl rfl rfl, hdecode rfl rfl rfl⟩

theorem wordBytes_toNat (w : Word) : (wordBytes w).map BitVec.toNat =
    [w.toNat % 256, w.toNat / 256 % 256, w.toNat / 65536 % 256, w.toNat / 16777216] := by
  have hlt := w.isLt
  have htop : w.toNat / 2 ^ 24 % 256 = w.toNat / 2 ^ 24 := Nat.mod_eq_of_lt (by omega)
  simp only [wordBytes, List.map_cons, List.map_nil, BitVec.extractLsb'_toNat, Nat.shiftRight_eq_div_pow, pow_zero,
    Nat.div_one]
  exact congrArg (fun top => [_, _, _, top]) htop

theorem append_wordBytes (w : Word) :
    w.extractLsb' 24 8 ++ w.extractLsb' 16 8 ++ w.extractLsb' 8 8 ++ w.extractLsb' 0 8 = w := by
  have h16 : w.extractLsb' 24 8 ++ w.extractLsb' 16 8 = w.extractLsb' 16 16 :=
    BitVec.extractLsb'_append_extractLsb'_eq_extractLsb' rfl
  have h8 : w.extractLsb' 16 16 ++ w.extractLsb' 8 8 = w.extractLsb' 8 24 :=
    BitVec.extractLsb'_append_extractLsb'_eq_extractLsb' rfl
  have h0 : w.extractLsb' 8 24 ++ w.extractLsb' 0 8 = w.extractLsb' 0 32 :=
    BitVec.extractLsb'_append_extractLsb'_eq_extractLsb' rfl
  rw [h16, h8, h0, BitVec.extractLsb'_eq_self]

theorem packetOfBytes_packetBytes (pkt : Packet) : packetOfBytes (packetBytes pkt) = some pkt := by
  induction pkt with
  | nil => rfl
  | cons w ws ih =>
    change (packetOfBytes (packetBytes ws)).map (_ :: ·) = _
    rw [ih, Option.map_some, append_wordBytes]

/-- Settles O6, by induction over the packet's words. -/
theorem packetIsReadBackFromItsBytes : Obligations.PacketIsReadBackFromItsBytes :=
  ⟨packetOfBytes_packetBytes, wordBytes_toNat⟩

end Sys2Proof.Proofs
end

section
/-! PROOFS. Steps (R55 to R59, R65): which agent goes and what it does, said once as `Serves`; the commands that answer and
change nothing; reset. -/

namespace Sys2Proof.Proofs

-- The proofs of this section are elaborated one after another: the check compiles the whole text in one process of
-- bounded memory.
set_option deprecated.oldSectionVars true
set_option linter.all false

open Sys2Proof Sys2Proof.Machine Sys2Proof.Claims

/-! ### Which agent goes -/

theorem controlReady_eq_true {s : State} : s.controlReady = true ↔ s.cIn ≠ [] := by
  rw [State.controlReady, Bool.not_eq_true', List.isEmpty_eq_false_iff]

theorem processingReady_eq_true {s : State} : s.processingReady = true ↔ s.job ≠ none ∨ s.pIn ≠ [] := by
  rw [State.processingReady, Bool.or_eq_true, Option.isSome_iff_ne_none, Bool.not_eq_true', List.isEmpty_eq_false_iff]

theorem controlReady_eq_false_iff {s : State} : s.controlReady = false ↔ s.cIn = [] := by
  rw [← Bool.not_eq_true, controlReady_eq_true, ne_eq, not_not]

theorem processingReady_eq_false_iff {s : State} : s.processingReady = false ↔ s.job = none ∧ s.pIn = [] := by
  rw [← Bool.not_eq_true, processingReady_eq_true, not_or, ne_eq, ne_eq, not_not, not_not]

theorem pick_neither {s : State} (hc : s.controlReady = false) (hp : s.processingReady = false) : s.pick = none := by
  rw [State.pick, hc, hp]

theorem pick_both {s : State} (hc : s.cIn ≠ []) (hp : s.job ≠ none ∨ s.pIn ≠ []) :
    (∀ a rest, s.sched = a :: rest → s.pick = some (a, { s with sched := rest })) ∧
    (s.sched = [] → s.pick = some (Config.freeTurn s.turns, { s with turns := s.turns + 1 })) := by
  rw [State.pick, controlReady_eq_true.2 hc, processingReady_eq_true.2 hp]
  exact ⟨fun a rest hs => by rw [hs], fun hs => by rw [hs]⟩

theorem pick_eq_none {s : State} : s.pick = none ↔ s.Idle := by
  constructor
  · intro h
    cases hc : s.controlReady <;> cases hp : s.processingReady
    · obtain ⟨hj, hp⟩ := processingReady_eq_false_iff.1 hp
      exact ⟨controlReady_eq_false_iff.1 hc, hp, hj⟩
    · exact absurd ((pick_processing_only hc hp).symm.trans h) (Option.some_ne_none _)
    · exact absurd ((pick_control_only hc hp).symm.trans h) (Option.some_ne_none _)
    · obtain ⟨hturn, hopen⟩ := pick_both (controlReady_eq_true.1 hc) (processingReady_eq_true.1 hp)
      cases hs : s.sched with
      | nil => exact absurd ((hopen hs).symm.trans h) (Option.some_ne_none _)
      | cons a rest => exact absurd ((hturn a rest hs).symm.trans h) (Option.some_ne_none _)
  · rintro ⟨hc, hp, hj⟩
    exact pick_neither (controlReady_eq_false_iff.2 hc) (processingReady_eq_false_iff.2 ⟨hj, hp⟩)

/-- Settles O7: which of the two agents is ready decides, and the schedule between two. -/
theorem theAgentThatGoesHasAnEnabledStep : Obligations.TheAgentThatGoesHasAnEnabledStep := by
  intro s
  refine ⟨fun hc hj hp => pick_eq_none.2 ⟨hc, hp, hj⟩, fun hc hj hp => ?_, fun hc hp => ?_, pick_both⟩
  · exact pick_control_only (controlReady_eq_true.2 hc) (processingReady_eq_false_iff.2 ⟨hj, hp⟩)
  · exact pick_processing_only (controlReady_eq_false_iff.2 hc) (processingReady_eq_true.2 hp)

/-! ### The packet at the head of a port -/

theorem action_of_atHead {s : State} {a : Agent} {pkt : Packet} (h : AtHead s a pkt) :
    (∀ i, decode a pkt = .cmd i → s.action a = .run i) ∧
    (∀ opc cause, decode a pkt = .illegal opc cause → s.action a = .done (s.refuseIllegal a opc cause)) := by
  cases a with
  | control =>
    obtain ⟨rest, hq⟩ := h
    exact ⟨fun i hd => by simp [State.action, State.fetch, hq, hd], fun opc cause hd => by simp [State.action, State.fetch, hq, hd]⟩
  | processing =>
    obtain ⟨hj, rest, hq⟩ := h
    exact ⟨fun i hd => by simp [State.action, State.fetch, hj, hq, hd], fun opc cause hd => by simp [State.action, State.fetch, hj, hq, hd]⟩

theorem step_of_run {s s1 : State} {a : Agent} {i : Instr} (hr : s.resetInput = false) (hpick : s.pick = some (a, s1))
    (h : s1.action a = .run i) : step s = exec i s1 := by
  simp only [step, hr, hpick, h, Bool.false_eq_true, if_false]

theorem step_of_done {s s1 t : State} {a : Agent} (hr : s.resetInput = false) (hpick : s.pick = some (a, s1))
    (h : s1.action a = .done t) : step s = .next t := by
  simp only [step, hr, hpick, h, Bool.false_eq_true, if_false]

/-- Settles O8. -/
theorem stepRunsTheDecodedCommand : Obligations.StepRunsTheDecodedCommand := by
  intro s s1 a pkt i hr hpick hhead hd
  exact step_of_run hr hpick ((action_of_atHead hhead).1 i hd)

/-- The status word of an illegal packet, its low byte the sub-cause and the code (R80, R206). -/
theorem statusWord_illegal (opc : BitVec 8) (cause : IllegalCause) :
    statusWord opc (.illegalCommand cause) = opc ++ 0#16 ++ illegalCode cause := by
  have hlow (hi lo : BitVec 4) : opc ++ 0#16 ++ hi ++ lo = opc ++ 0#16 ++ (hi ++ lo) := by
    rw [BitVec.append_assoc]; rfl
  cases cause <;> exact hlow _ _

/-- Settles O13: the refusal is a response with the status word alone. -/
theorem illegalPacketChangesNothing : Obligations.IllegalPacketChangesNothing := by
  intro s s1 a pkt opc cause hr hpick hhead hd
  rw [← statusWord_illegal, step_of_done hr hpick ((action_of_atHead hhead).2 opc cause hd)]
  cases a <;> rfl

/-- R65, R207: no arm of `exec` stops. -/
theorem exec_goes_on (i : Instr) (s : State) : ∃ t, exec i s = .next t := by
  cases i with
  | procM fs buf =>
    cases hj : s.job with
    | none => exact ⟨_, exec_procM hj fs buf⟩
    | some j => exact ⟨s, by simp only [exec, execProcM, hj]⟩
  | procS fs left right =>
    cases hj : s.job with
    | none => exact ⟨_, exec_procS hj fs left right⟩
    | some j => exact ⟨s, by simp only [exec, execProcS, hj]⟩
  | setEn | getEn | setBass | setMid | setTreb | getBass | getMid | getTreb | rstf => exact ⟨_, rfl⟩

theorem step_goes_on (s : State) : ∃ t, step s = .next t := by
  unfold step
  split
  · exact ⟨_, rfl⟩
  · split
    · exact ⟨_, rfl⟩
    · split
      · exact exec_goes_on _ _
      · exact ⟨_, rfl⟩

/-- Settles O9. -/
theorem everyCommandAndEveryStepGoesOn : Obligations.EveryCommandAndEveryStepGoesOn :=
  ⟨exec_goes_on, step_goes_on⟩

theorem step_of_idle {s : State} (hr : s.resetInput = false) (h : s.Idle) : step s = .next s := by
  simp [step, hr, pick_eq_none.2 h]

/-- Settles O10. -/
theorem idleBlockDoesNotChange : Obligations.IdleBlockDoesNotChange := fun _ => step_of_idle

/-! ### Reset -/

/-- Settles O11. -/
theorem hardwareResetDiscardsCommands : Obligations.HardwareResetDiscardsCommands := by
  intro s hr
  refine ⟨s.hardwareReset, by simp [step, hr], ?_⟩
  exact ⟨rfl, rfl, rfl, rfl, rfl, rfl, rfl, rfl, rfl, rfl, rfl⟩

theorem reset_coef (b : Band) : bandGet State.reset.coef b = compile b 50 Config.fsReset := by
  rw [State.reset, bandGet_bandAll]
  rfl

/-- Settles O12: R36's table, with the history by `zeroHistory_register`. -/
theorem resetStateIsTheSpecs : Obligations.ResetStateIsTheSpecs :=
  ⟨rfl, fun b => by cases b <;> rfl, rfl, Config.fsReset_pos, reset_coef, zeroHistory_register, rfl⟩

/-! ### Commands that only answer -/

/-- Settles O15: EN as a word (R102). -/
theorem getEnAnswersEnable : Obligations.GetEnAnswersEnable := by
  intro s
  have hword : (BitVec.ofBool s.en).setWidth 32 = if s.en then 1#32 else 0#32 := by cases s.en <;> rfl
  rw [← hword]
  rfl

/-- A level as a result word (R81). -/
theorem levelWord_toNat (v : BitVec 7) : levelWord v.toNat = v.setWidth 32 := by
  rw [levelWord, BitVec.ofInt_natCast, BitVec.ofNat_toNat]

theorem exec_getLvl_eq (b : Band) (s : State) : exec (Instr.getLvl b) s = .next { s with
    cIn := s.cIn.tail, cOut := s.cOut ++ [[0x11000000#32, (bandGet s.lvl b).setWidth 32]] } := by
  rw [exec_getLvl, ← levelWord_toNat]
  rfl

/-- Settles O17: the three getters are GetLevel at their bands. -/
theorem levelGettersAnswerTheStoredLevel : Obligations.LevelGettersAnswerTheStoredLevel :=
  fun s => ⟨exec_getLvl_eq .bass s, exec_getLvl_eq .mid s, exec_getLvl_eq .treble s⟩

/-- What every command of the C-port leaves, and its one response there. -/
structure AnswersControl (s t : State) : Prop where
  job : t.job = s.job
  pIn : t.pIn = s.pIn
  pOut : t.pOut = s.pOut
  fs : t.fs = s.fs
  cIn : t.cIn = s.cIn.tail
  cOut : ∃ resp, t.cOut = s.cOut ++ [resp]

/-- The response of a command that has written registers: `u` is the state with them. -/
theorem answersControl_respond {s u : State} {opc : BitVec 8} {st : Status} {ws : List Word} (hj : u.job = s.job)
    (hp : u.pIn = s.pIn) (hpo : u.pOut = s.pOut) (hf : u.fs = s.fs) (hc : u.cIn = s.cIn) (hco : u.cOut = s.cOut) :
    AnswersControl s (u.respond .control opc st ws) where
  job := (respond_job ..).trans hj
  pIn := (respond_control_pIn ..).trans hp
  pOut := (respond_control_pOut ..).trans hpo
  fs := (respond_fs ..).trans hf
  cIn := hc ▸ respond_control_cIn ..
  cOut := ⟨_, hco ▸ respond_control_cOut ..⟩

theorem answersControl_setLevel (b : Band) (v : Word) (s : State) : AnswersControl s (setLevel b v s) := by
  rw [setLevel_eq]
  exact ⟨rfl, rfl, rfl, rfl, rfl, _, rfl⟩

theorem answersControl_exec {i : Instr} {s t : State} (hp : i.port = .control) (h : exec i s = .next t) :
    AnswersControl s t := by
  cases i with
  | procM | procS => cases hp
  | setBass | setMid | setTreb => cases h; exact answersControl_setLevel _ _ s
  | setEn | getEn | getBass | getMid | getTreb | rstf => cases h; exact answersControl_respond rfl rfl rfl rfl rfl rfl

/-- Settles O48: each control command is a change of registers and one response on the C-port. -/
theorem controlCommandsLeaveTheJob : Obligations.ControlCommandsLeaveTheJob := fun _ _ _ hp h =>
  have hframe := answersControl_exec hp h
  ⟨hframe.job, hframe.pIn, hframe.pOut, hframe.fs, hframe.cIn, hframe.cOut⟩

/-! ### P-begin -/

/-- Settles O33. -/
theorem bufferCommandWaitsForTheJob : Obligations.BufferCommandWaitsForTheJob := by
  intro s j hj
  exact ⟨fun fs buf => by rw [exec, execProcM, hj], fun fs left right => by rw [exec, execProcS, hj]⟩

theorem pBegin_of_absent (kind : JobKind) (fs : Word) (s : State) :
    pBegin kind fs none s = s.raise .processing (JobKind.opcBits kind) (.invalidArgument .nullBuffer) := rfl

theorem pBegin_of_badRate {kind : JobKind} {fs : Word} (io : PerChannel Buffer) (s : State) (hfs : sext32 fs ≤ 0) :
    pBegin kind fs (some io) s = s.raise .processing (JobKind.opcBits kind) (.invalidArgument .badRate) := by
  rw [pBegin, if_pos hfs]

theorem pBegin_of_mismatch {fs : Word} {io : PerChannel Buffer} (s : State) (hfs : 0 < sext32 fs)
    (hlen : io.left.length ≠ io.right.length) :
    pBegin .stereo fs (some io) s = s.raise .processing (JobKind.opcBits .stereo) (.invalidArgument .lenMismatch) := by
  rw [pBegin, if_neg (not_le.2 hfs), if_pos ⟨rfl, hlen⟩]

theorem stereoInput_of_absent {left right : Option Buffer} (h : left = none ∨ right = none) :
    stereoInput left right = none := by
  obtain rfl | rfl := h
  · rfl
  · cases left <;> rfl

/-- Settles O29: the three failures of P-begin, each a status word alone. -/
theorem invalidBufferCommandsAnswerInOrder : Obligations.InvalidBufferCommandsAnswerInOrder := by
  intro fs s hj
  refine ⟨?_, fun buf hfs => ?_, fun left right habsent => ?_, fun l r hfs => ?_, fun l r hfs hlen => ?_⟩
  · rw [exec_procM hj, Option.map_none, pBegin_of_absent]; rfl
  · rw [exec_procM hj, Option.map_some, pBegin_of_badRate _ s hfs]; rfl
  · rw [exec_procS hj, stereoInput_of_absent habsent, pBegin_of_absent]; rfl
  · rw [exec_procS hj, stereoInput, pBegin_of_badRate _ s hfs]; rfl
  · rw [exec_procS hj, stereoInput, pBegin_of_mismatch s hfs hlen]; rfl

/-- R182. -/
theorem pBegin_of_empty {kind : JobKind} {fs : Word} {io : PerChannel Buffer} {s : State} (hfs : 0 < sext32 fs)
    (hlen : kind = .stereo → io.left.length = io.right.length) (hempty : io.left = []) :
    pBegin kind fs (some io) s = s.respond .processing (JobKind.opcBits kind) .ok (bufferResults kind 0 ⟨[], []⟩) := by
  rw [pBegin_of_valid s hfs hlen, if_pos (by rw [hempty, List.length_nil])]

/-- Settles O30: the zero-length path of P-begin. -/
theorem zeroLengthHasNoSideEffects : Obligations.ZeroLengthHasNoSideEffects := by
  intro fs s hj hfs
  constructor
  · rw [exec_procM hj, Option.map_some, pBegin_of_empty (kind := .mono) hfs nofun rfl, State.respond, response_mono]; rfl
  · rw [exec_procS hj, stereoInput, pBegin_of_empty hfs (fun _ => rfl) rfl, State.respond, response_stereo]; rfl

theorem pBegin_of_enabled {kind : JobKind} {fs : Word} {io : PerChannel Buffer} {s : State} (hfs : 0 < sext32 fs)
    (hlen : kind = .stereo → io.left.length = io.right.length) (hne : io.left ≠ []) (hen : s.en = true) :
    pBegin kind fs (some io) s = startJob kind io (syncRate fs s) := by
  rw [pBegin_of_valid s hfs hlen, if_neg (by simpa using hne), if_neg (by simp [hen])]

/-- SyncRate whole (R174): FS takes the rate, and the coefficients follow where it changes. -/
theorem syncRate_eq (fs : Word) (s : State) : syncRate fs s =
    { s with fs := fs, coef := if fs = s.fs then s.coef else bandAll (fun b => compile b (s.level b) fs) } := by
  unfold syncRate
  split
  case isTrue h => rw [h]
  case isFalse => rfl

/-- Settles O32: P-begin's last part, for one channel and for two. -/
theorem enabledCommandStartsItsJob : Obligations.EnabledCommandStartsItsJob := by
  intro fs s hj hfs hen
  refine ⟨fun buf hne => ⟨_, exec_procM hj fs _, ?_⟩, fun l r hne hlen => ⟨_, exec_procS hj fs _ _, ?_⟩⟩
  · rw [Option.map_some, pBegin_of_enabled (kind := .mono) hfs nofun hne hen, syncRate_eq]; rfl
  · rw [stereoInput, pBegin_of_enabled hfs (fun _ => hlen) hne hen, syncRate_eq]; rfl

/-! ### What a step can be -/

/-- The P-begin of an enabled, valid, non-empty buffer command at rate `fs` with the samples `io` (R173). -/
structure Starts (s : State) (kind : JobKind) (fs : Word) (io : PerChannel Buffer) : Prop where
  job : s.job = none
  en : s.en = true
  rate : 0 < sext32 fs
  left : io.left ≠ []
  command : ∃ pkt rest, s.pIn = pkt :: rest ∧
    ((kind = .mono ∧ io.right = [] ∧ decode .processing pkt = .cmd (.procM fs (some io.left))) ∨
     (kind = .stereo ∧ io.left.length = io.right.length ∧
       decode .processing pkt = .cmd (.procS fs (some io.left) (some io.right))))

/-- What an agent with an enabled step can do. -/
inductive Serves (s : State) : State → Prop
  | setEn {en : Bool} {pkt : Packet} {rest : List Packet} (hq : s.cIn = pkt :: rest)
      (hd : decode .control pkt = .cmd (.setEn en)) :
      Serves s ({ s with en := en }.respond .control Opc.setEn.bits .ok [])
  | setLevel {b : Band} {v : Word} {pkt : Packet} {rest : List Packet} (hq : s.cIn = pkt :: rest)
      (hd : decode .control pkt = .cmd (Instr.setLvl b v)) : Serves s (setLevel b v s)
  | reset {pkt : Packet} {rest : List Packet} (hq : s.cIn = pkt :: rest) (hd : decode .control pkt = .cmd .rstf) :
      Serves s ((resetHistory s).respond .control Opc.rstf.bits .ok [])
  /-- A command that only answers. -/
  | answer (opc : BitVec 8) (st : Status) (ws : List Word) (hq : s.cIn ≠ []) : Serves s (s.respond .control opc st ws)
  /-- The same on the P-port. -/
  | reply (opc : BitVec 8) (st : Status) (ws : List Word) (hj : s.job = none) (hq : s.pIn ≠ []) :
      Serves s (s.respond .processing opc st ws)
  | start {kind : JobKind} {fs : Word} {io : PerChannel Buffer} (hstart : Starts s kind fs io) :
      Serves s (startJob kind io (syncRate fs s))
  | sample {j : Job} (hj : s.job = some j) (hlt : j.idx < j.n) : Serves s (pSample j s)
  | finish {j : Job} (hj : s.job = some j) (hend : ¬ j.idx < j.n) : Serves s (pEnd j s)

theorem serves_of_control {i : Instr} {s t : State} {pkt : Packet} {rest : List Packet} (hq : s.cIn = pkt :: rest)
    (hd : decode .control pkt = .cmd i) (h : exec i s = .next t) : Serves s t := by
  have hne : s.cIn ≠ [] := hq ▸ List.cons_ne_nil _ _
  cases i with
  | setEn en => cases h; exact .setEn hq hd
  | setBass v => cases h; exact .setLevel (b := .bass) hq hd
  | setMid v => cases h; exact .setLevel (b := .mid) hq hd
  | setTreb v => cases h; exact .setLevel (b := .treble) hq hd
  | rstf => cases h; exact .reset hq hd
  | getEn | getBass | getMid | getTreb => cases h; exact .answer _ _ _ hne
  | procM | procS => cases port_of_decode hd

theorem serves_of_pBegin {s : State} {kind : JobKind} {fs : Word} {input : Option (PerChannel Buffer)} {pkt : Packet}
    {rest : List Packet} (hj : s.job = none) (hq : s.pIn = pkt :: rest)
    (hcmd : ∀ io, input = some io → (kind = .stereo → io.left.length = io.right.length) →
      (kind = .mono ∧ io.right = [] ∧ decode .processing pkt = .cmd (.procM fs (some io.left))) ∨
      (kind = .stereo ∧ io.left.length = io.right.length ∧
        decode .processing pkt = .cmd (.procS fs (some io.left) (some io.right)))) :
    Serves s (pBegin kind fs input s) := by
  obtain ⟨st, ws, heq⟩ | ⟨io, hio, hfs, hlen, hempty, hen, heq⟩ := pBegin_cases kind fs input s
  · exact heq ▸ .reply _ st ws hj (hq ▸ List.cons_ne_nil _ _)
  · exact heq ▸ .start ⟨hj, hen, hfs, fun h => hempty (congrArg List.length h), pkt, rest, hq, hcmd io hio hlen⟩

theorem serves_of_begin {i : Instr} {s t : State} {pkt : Packet} {rest : List Packet} (hj : s.job = none)
    (hq : s.pIn = pkt :: rest) (hd : decode .processing pkt = .cmd i) (h : exec i s = .next t) : Serves s t := by
  cases i with
  | procM fs buf =>
    rw [exec_procM hj] at h
    cases h
    refine serves_of_pBegin hj hq fun io hio _ => .inl ?_
    obtain ⟨b, rfl, rfl⟩ := Option.map_eq_some_iff.1 hio
    exact ⟨rfl, rfl, hd⟩
  | procS fs left right =>
    rw [exec_procS hj] at h
    cases h
    refine serves_of_pBegin hj hq fun io hio hlen => .inr ⟨rfl, hlen rfl, ?_⟩
    cases left with
    | none => cases hio
    | some l =>
      cases right with
      | none => cases hio
      | some r => cases hio; exact hd
  | setEn | getEn | setBass | setMid | setTreb | getBass | getMid | getTreb | rstf => cases port_of_decode hd

theorem action_of_job {s : State} {j : Job} (hj : s.job = some j) :
    s.action .processing = .done (if j.idx < j.n then pSample j s else pEnd j s) := by
  rw [apply_ite Action.done, State.action, hj]

/-- An agent with a packet at the head of its port is done with it only by refusing it. -/
theorem refused_of_done {s t : State} {a : Agent} {pkt : Packet} (hhead : AtHead s a pkt) (h : s.action a = .done t) :
    ∃ opc cause, t = s.refuseIllegal a opc cause := by
  obtain ⟨hrun, hrefuse⟩ := action_of_atHead hhead
  cases hd : decode a pkt with
  | cmd i => rw [hrun i hd] at h; cases h
  | illegal opc cause => rw [hrefuse opc cause hd] at h; cases h; exact ⟨opc, cause, rfl⟩

theorem serves_of_done {s t : State} {a : Agent} (h : s.action a = .done t)
    (hready : (a = .control ∧ s.cIn ≠ []) ∨ (a = .processing ∧ (s.job ≠ none ∨ s.pIn ≠ []))) : Serves s t := by
  obtain ⟨rfl, hc⟩ | ⟨rfl, hp⟩ := hready
  · obtain ⟨pkt, rest, hq⟩ := List.exists_cons_of_ne_nil hc
    obtain ⟨opc, cause, rfl⟩ := refused_of_done (a := .control) (pkt := pkt) ⟨rest, hq⟩ h
    exact .answer _ _ _ hc
  · cases hj : s.job with
    | some j =>
      rw [action_of_job hj] at h
      cases h
      by_cases hlt : j.idx < j.n
      · rw [if_pos hlt]; exact .sample hj hlt
      · rw [if_neg hlt]; exact .finish hj hlt
    | none =>
      have hne : s.pIn ≠ [] := hp.resolve_left (not_not_intro hj)
      obtain ⟨pkt, rest, hq⟩ := List.exists_cons_of_ne_nil hne
      obtain ⟨opc, cause, rfl⟩ := refused_of_done (a := .processing) (pkt := pkt) ⟨hj, rest, hq⟩ h
      exact .reply _ _ _ hj hne

/-- Every step that is no hardware reset: nothing of an idle block, or a service by the agent that goes, the schedule
having moved on. -/
theorem step_serves {s t : State} (hr : s.resetInput = false) (h : step s = .next t) :
    (s.Idle ∧ t = s) ∨ ∃ s1, s1 = { s with sched := s1.sched, turns := s1.turns } ∧ Serves s1 t := by
  obtain ⟨hreset, -⟩ | ⟨-, hpick, rfl⟩ | ⟨-, a, s1, i, hpick, hrun, hexec⟩ | ⟨-, a, s1, hpick, hdone⟩ := step_cases h
  · simp [hr] at hreset
  · exact .inl ⟨pick_eq_none.1 hpick, rfl⟩
  · refine .inr ⟨s1, pick_frame hpick, ?_⟩
    obtain ⟨-, pkt, rest, hq, hd⟩ | ⟨-, hj, pkt, rest, hq, hd⟩ := action_run hrun
    · exact serves_of_control hq hd hexec
    · exact serves_of_begin hj hq hd hexec
  · have hframe := pick_frame hpick
    refine .inr ⟨s1, hframe, serves_of_done hdone ?_⟩
    have hready := pick_ready hpick
    rw [hframe]
    cases a with
    | control => exact .inl ⟨rfl, controlReady_eq_true.1 hready⟩
    | processing => exact .inr ⟨rfl, processingReady_eq_true.1 hready⟩

/-! ### Who changes a register -/

theorem startJob_syncRate_fs (kind : JobKind) (io : PerChannel Buffer) (fs : Word) (s : State) :
    (startJob kind io (syncRate fs s)).fs = fs := by
  rw [syncRate_eq]; rfl

theorem beginsBuffer_of_starts {s : State} {kind : JobKind} {fs : Word} {io : PerChannel Buffer}
    (h : Starts s kind fs io) : BeginsBuffer s (startJob kind io (syncRate fs s)) := by
  obtain ⟨pkt, rest, hq, hcmd⟩ := h.command
  rw [BeginsBuffer, startJob_syncRate_fs]
  refine ⟨h.job, h.en, h.rate, nofun, pkt, rest, hq, ?_, ?_⟩
  · rw [startJob_pIn, syncRate_pIn, hq, List.tail_cons]
  · exact hcmd.imp (fun ⟨_, _, hd⟩ => ⟨_, h.left, hd⟩) (fun ⟨_, hlen, hd⟩ => ⟨_, _, h.left, hlen, hd⟩)

/-- A step serves from a state that differs from its own only in the schedule: a claim about services that reads no
schedule is a claim about steps. -/
theorem step_induction {P : State → State → Prop} (hidle : ∀ s, P s s) (hserves : ∀ s t, Serves s t → P s t)
    (hsched : ∀ s t sched turns, P { s with sched := sched, turns := turns } t → P s t)
    {s t : State} (hr : s.resetInput = false) (h : step s = .next t) : P s t := by
  obtain ⟨-, rfl⟩ | ⟨s1, hframe, hs⟩ := step_serves hr h
  · exact hidle t
  · exact hsched s t s1.sched s1.turns (hframe ▸ hserves s1 t hs)

theorem serves_en {s t : State} (h : Serves s t) : t.en = s.en ∨
    ∃ pkt rest, s.cIn = pkt :: rest ∧ decode .control pkt = .cmd (.setEn t.en) ∧ t.cIn = rest := by
  cases h with
  | setEn hq hd => exact .inr ⟨_, _, hq, hd, congrArg List.tail hq⟩
  | start => exact .inl ((startJob_en ..).trans (syncRate_en ..))
  | setLevel => exact .inl (by rw [setLevel_eq])
  | sample => exact .inl (pSample_en ..)
  | finish => exact .inl (pEnd_en ..)
  | reset | answer | reply => exact .inl (respond_en ..)

theorem serves_fs {s t : State} (h : Serves s t) : t.fs = s.fs ∨ BeginsBuffer s t := by
  cases h with
  | start hstart => exact .inr (beginsBuffer_of_starts hstart)
  | setLevel => exact .inl (answersControl_setLevel ..).fs
  | sample => exact .inl (pSample_fs ..)
  | finish => exact .inl (pEnd_fs ..)
  | setEn | reset | answer | reply => exact .inl (respond_fs ..)

theorem serves_coef {s t : State} (b : Band) (h : Serves s t) : bandGet t.coef b = bandGet s.coef b ∨
    (∃ pkt rest v, s.cIn = pkt :: rest ∧ decode .control pkt = .cmd (Instr.setLvl b v) ∧ t.cIn = rest) ∨
    (t.fs ≠ s.fs ∧ BeginsBuffer s t) := by
  cases h with
  | @setLevel c v pkt rest hq hd =>
    by_cases hbc : b = c
    · exact .inr (.inl ⟨pkt, rest, v, hq, hbc ▸ hd, congrArg List.tail hq⟩)
    · exact .inl (by rw [setLevel_eq, bandGet_bandSet_other _ _ _ _ hbc])
  | @start _ fs _ hstart =>
    by_cases hfs : fs = s.fs
    · exact .inl (by rw [startJob_coef, syncRate_eq, if_pos hfs])
    · exact .inr (.inr ⟨by rwa [startJob_syncRate_fs], beginsBuffer_of_starts hstart⟩)
  | sample => exact .inl (by rw [pSample_coef])
  | finish => exact .inl (by rw [pEnd_coef])
  | setEn | reset | answer | reply => exact .inl (congrArg (bandGet · b) (respond_coef ..))

theorem serves_hist {s t : State} (h : Serves s t) : t.hist = s.hist ∨
    (∃ pkt rest, s.cIn = pkt :: rest ∧ decode .control pkt = .cmd .rstf ∧ t.cIn = rest ∧
      ∀ b c, chanGet (bandGet t.hist b) c = ⟨0#64, 0#64, 0#64, 0#64⟩) ∨
    (t.cIn = s.cIn ∧ ∃ j, s.job = some j ∧ j.idx < j.n ∧ ∀ c, c ≠ j.ch → t.channelHist c = s.channelHist c) := by
  cases h with
  | reset hq hd => exact .inr (.inl ⟨_, _, hq, hd, congrArg List.tail hq, zeroHistory_register⟩)
  | @sample j hj hlt =>
    exact .inr (.inr ⟨rfl, j, hj, hlt, fun c hc => (channelHist_writeChannelHist s j.ch c _).trans (if_neg hc)⟩)
  | start => exact .inl ((startJob_hist ..).trans (syncRate_hist ..))
  | setLevel => exact .inl (by rw [setLevel_eq])
  | finish => exact .inl (pEnd_hist ..)
  | setEn | answer | reply => exact .inl (respond_hist ..)

/-- Settles O43: only the SETEN kind of step touches EN. -/
theorem onlySetEnChangesEnable : Obligations.OnlySetEnChangesEnable := fun _ _ hr h hne =>
  (step_induction (P := fun s t => t.en = s.en ∨ _) (fun _ => .inl rfl) (fun _ _ => serves_en) (fun _ _ _ _ => id)
    hr h).resolve_left hne

/-- Settles O44, by `step_lvl_cases`: a setter of another band leaves this band's level. -/
theorem onlyItsSetterChangesALevel : Obligations.OnlyItsSetterChangesALevel := by
  intro s t b hr h hne
  obtain hkeep | ⟨c, v, pkt, rest, hq, hd, htail, hlvl⟩ := step_lvl_cases hr h
  · exact absurd (by rw [hkeep]) hne
  · obtain rfl : b = c := by
      by_contra hbc
      exact hne (by rw [hlvl, bandGet_bandSet_other _ _ _ _ hbc])
    exact ⟨pkt, rest, v, hq, hd, htail⟩

/-- Settles O45: a setter compiles its own band, P-begin all three where the rate changes. -/
theorem onlyCompilationChangesCoefficients : Obligations.OnlyCompilationChangesCoefficients := fun _ _ b hr h hne =>
  (step_induction (P := fun s t => bandGet t.coef b = bandGet s.coef b ∨ _) (fun _ => .inl rfl)
    (fun _ _ => serves_coef b) (fun _ _ _ _ => id) hr h).resolve_left hne

/-- Settles O46: of the kinds of step only P-begin touches FS. -/
theorem onlyBufferCommandsChangeTheRate : Obligations.OnlyBufferCommandsChangeTheRate := fun _ _ hr h hne =>
  (step_induction (P := fun s t => t.fs = s.fs ∨ _) (fun _ => .inl rfl) (fun _ _ => serves_fs) (fun _ _ _ _ => id)
    hr h).resolve_left hne

/-- Settles O47: RSTF, or a P-sample step on its own channel. -/
theorem onlySamplesAndRstfChangeTheHistory : Obligations.OnlySamplesAndRstfChangeTheHistory := fun _ _ hr h hne =>
  (step_induction (P := fun s t => t.hist = s.hist ∨ _) (fun _ => .inl rfl) (fun _ _ => serves_hist)
    (fun _ _ _ _ => id) hr h).resolve_left hne

/-! ### One response for each command -/

/-- The commands waiting and answered on the C-port; on the P-port the one in flight counts too. -/
structure Balanced (s t : State) : Prop where
  control : t.cIn.length + t.cOut.length = s.cIn.length + s.cOut.length
  processing : t.pIn.length + t.pOut.length + (if t.job = none then 0 else 1)
    = s.pIn.length + s.pOut.length + (if s.job = none then 0 else 1)
  controlKept : ∃ new, t.cOut = s.cOut ++ new
  processingKept : ∃ new, t.pOut = s.pOut ++ new

theorem length_tail_add_append {α β : Type} {l : List α} (hl : l ≠ []) (m : List β) (x : β) :
    l.tail.length + (m ++ [x]).length = l.length + m.length := by
  obtain ⟨a, l, rfl⟩ := List.exists_cons_of_ne_nil hl
  rw [List.tail_cons, List.length_append, List.length_singleton, List.length_cons, ← Nat.add_assoc, Nat.add_right_comm]

theorem balanced_of_control {s t : State} (hq : s.cIn ≠ []) (h : AnswersControl s t) : Balanced s t := by
  obtain ⟨resp, hout⟩ := h.cOut
  refine ⟨?_, ?_, ⟨_, hout⟩, ⟨[], h.pOut.trans (List.append_nil _).symm⟩⟩
  · rw [h.cIn, hout, length_tail_add_append hq]
  · rw [h.pIn, h.pOut, h.job]

theorem balanced_of_processing {s t : State} (hc : t.cIn = s.cIn) (hco : t.cOut = s.cOut) {new : List Packet}
    (hout : t.pOut = s.pOut ++ new)
    (hp : t.pIn.length + t.pOut.length + (if t.job = none then 0 else 1)
      = s.pIn.length + s.pOut.length + (if s.job = none then 0 else 1)) : Balanced s t :=
  ⟨by rw [hc, hco], hp, ⟨[], by rw [hco, List.append_nil]⟩, ⟨_, hout⟩⟩

theorem serves_balanced {s t : State} (h : Serves s t) : Balanced s t := by
  cases h with
  | setLevel hq => exact balanced_of_control (hq ▸ List.cons_ne_nil _ _) (answersControl_setLevel ..)
  | setEn hq | reset hq =>
    exact balanced_of_control (hq ▸ List.cons_ne_nil _ _) (answersControl_respond rfl rfl rfl rfl rfl rfl)
  | answer _ _ _ hq => exact balanced_of_control hq (answersControl_respond rfl rfl rfl rfl rfl rfl)
  | reply _ _ _ hj hq =>
    refine balanced_of_processing (respond_processing_cIn ..) (respond_processing_cOut ..) (respond_processing_pOut ..) ?_
    rw [respond_processing_pIn, respond_processing_pOut, length_tail_add_append hq, respond_job]
  | start hstart =>
    obtain ⟨pkt, rest, hq, -⟩ := hstart.command
    refine balanced_of_processing ((startJob_cIn ..).trans (syncRate_cIn ..)) ((startJob_cOut ..).trans (syncRate_cOut ..))
      (new := []) ((startJob_pOut ..).trans ((syncRate_pOut ..).trans (List.append_nil _).symm)) ?_
    rw [startJob_job, if_neg (Option.some_ne_none _), if_pos hstart.job, startJob_pIn, startJob_pOut, syncRate_pIn,
      syncRate_pOut, hq]
    exact Nat.add_right_comm _ _ 1
  | @sample j hj =>
    refine balanced_of_processing (pSample_cIn ..) (pSample_cOut ..)
      (new := []) ((pSample_pOut ..).trans (List.append_nil _).symm) ?_
    rw [pSample_pIn, pSample_pOut, hj]
    rfl
  | @finish j hj =>
    refine balanced_of_processing (pEnd_cIn ..) (pEnd_cOut ..) (pEnd_pOut ..) ?_
    rw [pEnd_pIn, pEnd_pOut, pEnd_job, hj, if_neg (Option.some_ne_none _), if_pos rfl, List.length_append]
    rfl

theorem balanced_of_step {s t : State} (hr : s.resetInput = false) (h : step s = .next t) : Balanced s t :=
  step_induction (P := Balanced) (fun _ => ⟨rfl, rfl, ⟨[], (List.append_nil _).symm⟩, ⟨[], (List.append_nil _).symm⟩⟩)
    (fun _ _ => serves_balanced) (fun _ _ _ _ h => ⟨h.control, h.processing, h.controlKept, h.processingKept⟩) hr h

/-- Settles O49: each kind of step that takes a command answers it, but P-begin, which puts it in flight. -/
theorem oneResponseForEachCommand : Obligations.OneResponseForEachCommand := fun _ _ hr h =>
  have hbalanced := balanced_of_step hr h
  ⟨hbalanced.control, hbalanced.processing, hbalanced.controlKept, hbalanced.processingKept⟩

/-! ### P-sample -/

/-- The job after a P-sample step that has filtered its word to `w`. -/
noncomputable def sampledJob (j : Job) (w : Word) : Job :=
  { j with output := chanSet j.output j.ch (chanGet j.output j.ch ++ [w]) }.advance

/-- The word at the position, and as many output words before it (R30). -/
def AtPosition (j : Job) (w : Word) : Prop :=
  (chanGet j.input j.ch)[j.idx]? = some w ∧ (chanGet j.output j.ch).length = j.idx

theorem sampledJob_mono {j : Job} (hk : j.kind = .mono) (hc : j.ch = .left) (w : Word) : sampledJob j w =
    { j with output := { j.output with left := j.output.left ++ [w] }, idx := j.idx + 1 } := by
  cases j; cases hk; cases hc; rfl

theorem sampledJob_stereo_left {j : Job} (hk : j.kind = .stereo) (hc : j.ch = .left) (w : Word) : sampledJob j w =
    { j with output := { j.output with left := j.output.left ++ [w] }, ch := .right } := by
  cases j; cases hk; cases hc; rfl

theorem sampledJob_stereo_right {j : Job} (hk : j.kind = .stereo) (hc : j.ch = .right) (w : Word) : sampledJob j w =
    { j with output := { j.output with right := j.output.right ++ [w] }, idx := j.idx + 1, ch := .left } := by
  cases j; cases hk; cases hc; rfl

theorem pSample_eq {j : Job} {w : Word} (h : AtPosition j w) (s : State) :
    pSample j s = { s.writeChannelHist j.ch (processWord s.draws s.coef (s.channelHist j.ch) w).2 with
      job := some (sampledJob j (processWord s.draws s.coef (s.channelHist j.ch) w).1)
      draws := s.draws + drawsPerSample } := by
  obtain ⟨hw, hlen⟩ := h
  have hread : bufRead (chanGet j.input j.ch) j.idx = w := by
    rw [bufRead, List.getD_eq_getElem?_getD, hw, Option.getD_some]
  rw [pSample, hread, sampledJob, ← bufWrite_next, hlen]

/-- Which channel and kind the position of a job names: mono is always left. -/
theorem position_cases {j : Job} (hv : j.Valid) : (j.kind = .mono ∧ j.ch = .left) ∨
    (j.kind = .stereo ∧ j.ch = .left) ∨ (j.kind = .stereo ∧ j.ch = .right) := by
  cases hc : j.ch with
  | right => exact .inr (.inr ⟨(hv.right_stereo hc).1, rfl⟩)
  | left =>
    cases hk : j.kind with
    | mono => exact .inl ⟨rfl, rfl⟩
    | stereo => exact .inr (.inl ⟨rfl, rfl⟩)

theorem exists_atPosition {j : Job} (hv : j.Valid) (hlt : j.idx < j.n) : ∃ w, AtPosition j w := by
  have hread {buf : Buffer} (h : buf.length = j.n) : ∃ w, buf[j.idx]? = some w :=
    ⟨_, List.getElem?_eq_getElem (h ▸ hlt)⟩
  cases hc : j.ch with
  | left =>
    obtain ⟨w, hw⟩ := hread hv.input_left
    exact ⟨w, by rwa [hc], by rw [hc]; exact hv.output_left.trans (by simp [hc])⟩
  | right =>
    have hright := hv.input_right
    have hout := hv.output_right
    rw [(hv.right_stereo hc).1] at hright hout
    obtain ⟨w, hw⟩ := hread hright
    exact ⟨w, by rwa [hc], by rwa [hc]⟩

/-- Settles O34: `pSample_eq` at each of the three positions. -/
theorem sampleStepFiltersOneWord : Obligations.SampleStepFiltersOneWord := by
  intro s s1 j hr hpick hj hv hlt
  obtain ⟨w, hw⟩ := exists_atPosition hv hlt
  have hstep : step s = .next (pSample j s1) := by rw [step_of_job hr hpick hj, if_pos hlt]
  rw [hstep, pSample_eq hw]
  refine ⟨fun hk => ⟨w, ?_⟩, fun hk hc => ⟨w, ?_⟩, fun hk hc => ⟨w, ?_⟩⟩
  · have hc : j.ch = .left := by
      obtain ⟨-, hc⟩ | ⟨hk', -⟩ | ⟨hk', -⟩ := position_cases hv
      · exact hc
      · rw [hk] at hk'; cases hk'
      · rw [hk] at hk'; cases hk'
    rw [AtPosition, hc] at hw
    rw [sampledJob_mono hk hc, hc]
    exact ⟨hw.1, rfl⟩
  · rw [AtPosition, hc] at hw
    rw [sampledJob_stereo_left hk hc, hc]
    exact ⟨hw.1, rfl⟩
  · rw [AtPosition, hc] at hw
    rw [sampledJob_stereo_right hk hc, hc]
    exact ⟨hw.1, rfl⟩

/-! ### The job stays valid -/

theorem sampledJob_valid {j : Job} (hv : j.Valid) (hlt : j.idx < j.n) (w : Word) : (sampledJob j w).Valid := by
  have hpos := hv.n_pos
  have hle := hv.n_le
  have hinL := hv.input_left
  have hinR := hv.input_right
  have houtL := hv.output_left
  have houtR := hv.output_right
  obtain ⟨hk, hc⟩ | ⟨hk, hc⟩ | ⟨hk, hc⟩ := position_cases hv
  · rw [sampledJob_mono hk hc]
    refine ⟨hpos, hle, hlt, fun h => absurd (hc.symm.trans h) nofun, hinL, hinR, ?_, by rwa [hk] at houtR ⊢⟩
    simp [houtL, hc]
  · rw [sampledJob_stereo_left hk hc]
    refine ⟨hpos, hle, hlt.le, fun _ => ⟨hk, hlt⟩, hinL, hinR, ?_, houtR⟩
    simp [houtL, hc]
  · rw [sampledJob_stereo_right hk hc]
    refine ⟨hpos, hle, hlt, nofun, hinL, hinR, ?_, ?_⟩
    · simp [houtL, hc]
    · simp [houtR, hk, rightCount]

theorem newJob_valid {kind : JobKind} {io : PerChannel Buffer} (hne : io.left ≠ []) (hfit : bufferFits io.left = true)
    (hright : io.right.length = rightCount kind io.left.length) : (newJob kind io).Valid where
  n_pos := List.length_pos_iff.2 hne
  n_le := of_decide_eq_true hfit
  idx_le := Nat.zero_le _
  right_stereo := nofun
  input_left := rfl
  input_right := hright
  output_left := rfl
  output_right := by cases kind <;> rfl

/-! ### Every step keeps the invariants -/

theorem valid_of_same {s t : State} (hv : s.Valid) (hl : t.lvl = s.lvl) (hc : t.coef = s.coef) (hf : t.fs = s.fs)
    (hj : ∀ j, t.job = some j → j.Valid) : t.Valid where
  level_le := hl ▸ hv.level_le
  coef_eq b := by rw [hc, hf, State.level, hl]; exact hv.coef_eq b
  fs_pos := hf ▸ hv.fs_pos
  job_valid := hj

theorem reset_level (b : Band) : State.reset.level b = 50 := by cases b <;> rfl

/-- Settles O41, from R36's table. -/
theorem resetStateIsValid : Obligations.ResetStateIsValid where
  level_le b := by cases b <;> decide
  coef_eq b := by rw [reset_coef, reset_level]; rfl
  fs_pos := Config.fsReset_pos
  job_valid := nofun

theorem setLevel_lvl (b : Band) (v : Word) (s : State) :
    (setLevel b v s).lvl = bandSet s.lvl b (BitVec.ofInt 7 (clamped v.toInt)) := by rw [setLevel_eq]

theorem setLevel_coef (b : Band) (v : Word) (s : State) :
    (setLevel b v s).coef = bandSet s.coef b (compile b (clamped v.toInt) s.fs) := by rw [setLevel_eq]

theorem setLevel_valid {s : State} (hv : s.Valid) (b : Band) (v : Word) : (setLevel b v s).Valid := by
  refine ⟨fun c => ?_, fun c => ?_, hv.fs_pos, hv.job_valid⟩
  · by_cases hcb : c = b
    · subst hcb
      have hle : ((bandGet (setLevel c v s).lvl c).toNat : Int) ≤ 100 :=
        (level_setLevel_same c v s).trans_le (clamp_range v.toInt).2
      exact_mod_cast hle
    · rw [setLevel_lvl, bandGet_bandSet_other _ _ _ _ hcb]
      exact hv.level_le c
  · have hfs : (setLevel b v s).fs = s.fs := rfl
    by_cases hcb : c = b
    · subst hcb
      rw [level_setLevel_same, setLevel_coef, bandGet_bandSet_same, hfs]
    · rw [State.level, setLevel_lvl, setLevel_coef, bandGet_bandSet_other _ _ _ _ hcb, bandGet_bandSet_other _ _ _ _ hcb,
        hfs]
      exact hv.coef_eq c

theorem syncRate_valid {s : State} (hv : s.Valid) {fs : Word} (hfs : 0 < sext32 fs) : (syncRate fs s).Valid := by
  rw [syncRate_eq]
  refine ⟨hv.level_le, fun b => ?_, hfs, hv.job_valid⟩
  by_cases h : fs = s.fs
  · subst h
    exact (congrArg (bandGet · b) (if_pos rfl)).trans (hv.coef_eq b)
  · exact (congrArg (bandGet · b) (if_neg h)).trans (bandGet_bandAll _ b)

/-- A started job's words fit their packet (R30, R78). -/
theorem newJob_valid_of_starts {s : State} {kind : JobKind} {fs : Word} {io : PerChannel Buffer}
    (h : Starts s kind fs io) : (newJob kind io).Valid := by
  obtain ⟨pkt, -, -, ⟨rfl, hright, hd⟩ | ⟨rfl, hlen, hd⟩⟩ := h.command
  · obtain ⟨-, -, hwf⟩ := encodeOfDecodeIsThePacket _ _ _ hd
    exact newJob_valid h.left hwf (congrArg List.length hright)
  · obtain ⟨-, -, hwf⟩ := encodeOfDecodeIsThePacket _ _ _ hd
    exact newJob_valid h.left (Bool.and_eq_true_iff.1 hwf).1 hlen.symm

theorem respond_valid {s : State} {port : Agent} {opc : BitVec 8} {st : Status} {ws : List Word} (hv : s.Valid) :
    (s.respond port opc st ws).Valid :=
  valid_of_same hv (respond_lvl ..) (respond_coef ..) (respond_fs ..) fun j hj => hv.job_valid j (respond_job .. ▸ hj)

theorem serves_valid {s t : State} (hv : s.Valid) (h : Serves s t) : t.Valid := by
  cases h with
  | setLevel => exact setLevel_valid hv _ _
  | start hstart =>
    refine valid_of_same (syncRate_valid hv hstart.rate) (startJob_lvl ..) (startJob_coef ..) (startJob_fs ..) fun j hj => ?_
    rw [startJob_job, Option.some_inj] at hj
    exact hj ▸ newJob_valid_of_starts hstart
  | @sample j hj hlt =>
    have hjv := hv.job_valid j hj
    obtain ⟨w, hw⟩ := exists_atPosition hjv hlt
    refine valid_of_same hv (pSample_lvl ..) (pSample_coef ..) (pSample_fs ..) fun i hi => ?_
    rw [pSample_eq hw] at hi
    exact Option.some_inj.1 hi ▸ sampledJob_valid hjv hlt _
  | finish => exact valid_of_same hv (pEnd_lvl ..) (pEnd_coef ..) (pEnd_fs ..) nofun
  | setEn => exact respond_valid ⟨hv.level_le, hv.coef_eq, hv.fs_pos, hv.job_valid⟩
  | reset => exact respond_valid ⟨hv.level_le, hv.coef_eq, hv.fs_pos, hv.job_valid⟩
  | answer | reply => exact respond_valid hv

/-- Settles O42: the reset state is valid, and each kind of step keeps what it does not write and recompiles what it
must. -/
theorem everyStepKeepsTheInvariants : Obligations.EveryStepKeepsTheInvariants := by
  intro s t hv h
  cases hr : s.resetInput with
  | true =>
    rw [step, if_pos hr] at h
    cases h
    exact valid_of_same resetStateIsValid rfl rfl rfl nofun
  | false =>
    exact step_induction (P := fun s t => s.Valid → t.Valid) (fun _ => id) (fun _ _ hs hv => serves_valid hv hs)
      (fun s _ sched turns hP hv => hP ⟨hv.level_le, hv.coef_eq, hv.fs_pos, hv.job_valid⟩) hr h hv

/-! ### Progress (R65) -/

theorem stepsLeft_mono {j : Job} (hk : j.kind = .mono) : j.stepsLeft = (j.n - j.idx) + 1 := by
  rw [Job.stepsLeft, hk]

theorem stepsLeft_stereo_left {j : Job} (hk : j.kind = .stereo) (hc : j.ch = .left) :
    j.stepsLeft = 2 * (j.n - j.idx) + 1 := by
  rw [Job.stepsLeft, hk, hc]

theorem stepsLeft_stereo_right {j : Job} (hk : j.kind = .stereo) (hc : j.ch = .right) :
    j.stepsLeft = 2 * (j.n - j.idx) := by
  rw [Job.stepsLeft, hk, hc]

theorem stepsLeft_sampledJob {j : Job} (hv : j.Valid) (hlt : j.idx < j.n) (w : Word) :
    (sampledJob j w).stepsLeft + 1 = j.stepsLeft := by
  have hnext : j.n - j.idx = j.n - (j.idx + 1) + 1 := (Nat.sub_add_cancel (Nat.sub_pos_of_lt hlt)).symm
  obtain ⟨hk, hc⟩ | ⟨hk, hc⟩ | ⟨hk, hc⟩ := position_cases hv
  · rw [sampledJob_mono hk hc, stepsLeft_mono hk, hnext, stepsLeft_mono (by exact hk)]
  · rw [sampledJob_stereo_left hk hc, stepsLeft_stereo_left hk hc, stepsLeft_stereo_right (by exact hk) rfl]
  · rw [sampledJob_stereo_right hk hc, stepsLeft_stereo_right hk hc, hnext, stepsLeft_stereo_left (by exact hk) rfl, Nat.mul_succ]

theorem stepsLeft_pos {j : Job} (hv : j.Valid) : 0 < j.stepsLeft := by
  obtain ⟨hk, -⟩ | ⟨hk, hc⟩ | ⟨hk, hc⟩ := position_cases hv
  · rw [stepsLeft_mono hk]; exact Nat.succ_pos _
  · rw [stepsLeft_stereo_left hk hc]; exact Nat.succ_pos _
  · rw [stepsLeft_stereo_right hk hc]
    exact Nat.mul_pos two_pos (Nat.sub_pos_of_lt (hv.right_stereo hc).2)

/-- A packet's weight is more than the steps of the job it starts: it holds every sample word. -/
theorem stepsLeft_newJob {port : Agent} {pkt : Packet} {kind : JobKind} {fs : Word} {io : PerChannel Buffer}
    (h : (kind = .mono ∧ io.right = [] ∧ decode port pkt = .cmd (.procM fs (some io.left))) ∨
      (kind = .stereo ∧ io.left.length = io.right.length ∧
        decode port pkt = .cmd (.procS fs (some io.left) (some io.right)))) :
    (newJob kind io).stepsLeft < 2 + pkt.length := by
  obtain ⟨rfl, -, hd⟩ | ⟨rfl, hlen, hd⟩ := h
  · have hpkt : pkt.length = io.left.length + 3 := by
      rw [← (encodeOfDecodeIsThePacket _ _ _ hd).1]; rfl
    have hsteps : (newJob .mono io).stepsLeft = io.left.length + 1 := rfl
    rw [hsteps, hpkt, Nat.add_left_comm]
    exact Nat.add_lt_add_left (by decide) _
  · have hpkt : pkt.length = io.left.length + io.right.length + 4 := by
      rw [← (encodeOfDecodeIsThePacket _ _ _ hd).1, ← List.length_append]; rfl
    have hsteps : (newJob .stereo io).stepsLeft = 2 * io.left.length + 1 := rfl
    rw [hsteps, hpkt, ← hlen, ← Nat.two_mul, Nat.add_left_comm]
    exact Nat.add_lt_add_left (by decide) _

theorem work_of_control {s t : State} (hq : s.cIn ≠ []) (h : AnswersControl s t) : t.work < s.work := by
  have hless : s.cIn.tail.length < s.cIn.length :=
    List.length_tail.trans_lt (Nat.sub_lt (List.length_pos_iff.2 hq) Nat.one_pos)
  rw [State.work, State.work, h.cIn, h.pIn, h.job]
  exact Nat.add_lt_add_right (Nat.add_lt_add_right hless _) _

theorem work_of_processing {s t : State} {pkt : Packet} {rest : List Packet} (hq : s.pIn = pkt :: rest) (hj : s.job = none)
    (hc : t.cIn = s.cIn) (hp : t.pIn = rest) (hw : (t.job.map Job.stepsLeft).getD 0 < 2 + pkt.length) : t.work < s.work := by
  rw [State.work, State.work, hc, hp, hq, hj, List.map_cons, List.sum_cons, Option.map_none, Option.getD_none, Nat.add_zero,
    Nat.add_comm (2 + _), ← Nat.add_assoc]
  exact Nat.add_lt_add_left hw _

theorem serves_work {s t : State} (hv : s.Valid) (h : Serves s t) : t.work < s.work := by
  cases h with
  | setLevel hq => exact work_of_control (hq ▸ List.cons_ne_nil _ _) (answersControl_setLevel ..)
  | setEn hq | reset hq =>
    exact work_of_control (hq ▸ List.cons_ne_nil _ _) (answersControl_respond rfl rfl rfl rfl rfl rfl)
  | answer _ _ _ hq => exact work_of_control hq (answersControl_respond rfl rfl rfl rfl rfl rfl)
  | reply _ _ _ hj hq =>
    obtain ⟨pkt, rest, hq⟩ := List.exists_cons_of_ne_nil hq
    refine work_of_processing hq hj (respond_processing_cIn ..) ((respond_processing_pIn ..).trans (congrArg List.tail hq)) ?_
    rw [respond_job, hj]
    exact Nat.add_pos_left Nat.two_pos _
  | start hstart =>
    obtain ⟨pkt, rest, hq, hd⟩ := hstart.command
    exact work_of_processing hq hstart.job ((startJob_cIn ..).trans (syncRate_cIn ..))
      (by rw [startJob_pIn, syncRate_pIn, hq, List.tail_cons]) (stepsLeft_newJob hd)
  | @sample j hj hlt =>
    have hjv := hv.job_valid j hj
    obtain ⟨w, hw⟩ := exists_atPosition hjv hlt
    have hless := stepsLeft_sampledJob hjv hlt (processWord s.draws s.coef (s.channelHist j.ch) w).1
    rw [State.work, State.work, pSample_eq hw, hj]
    exact Nat.add_lt_add_left (Nat.lt_of_succ_le hless.le) _
  | @finish j hj =>
    rw [State.work, State.work, hj]
    exact Nat.add_lt_add_left (stepsLeft_pos (hv.job_valid j hj)) _

theorem serves_resetInput {s t : State} (h : Serves s t) : t.resetInput = s.resetInput := by
  cases h with
  | start => exact (startJob_resetInput ..).trans (syncRate_resetInput ..)
  | setLevel => rw [setLevel_eq]
  | sample => exact pSample_resetInput ..
  | finish => exact pEnd_resetInput ..
  | setEn | reset | answer | reply => exact respond_resetInput ..

/-- A step of a block that is not idle has less work left and keeps all that an answer in time rests on. -/
theorem exists_step_of_not_idle {s : State} (hv : s.Valid) (hr : s.resetInput = false) (hi : ¬ s.Idle) :
    ∃ t, step s = .next t ∧ t.work < s.work ∧ t.Valid ∧ t.resetInput = false ∧ Balanced s t := by
  obtain ⟨t, ht⟩ := step_goes_on s
  obtain ⟨hidle, -⟩ | ⟨s1, hframe, hserves⟩ := step_serves hr ht
  · exact absurd hidle hi
  · have hv1 : s1.Valid := hframe ▸ ⟨hv.level_le, hv.coef_eq, hv.fs_pos, hv.job_valid⟩
    have hwork : s1.work = s.work := by rw [hframe]; rfl
    have hreset : s1.resetInput = s.resetInput := by rw [hframe]
    exact ⟨t, ht, hwork ▸ serves_work hv1 hserves, everyStepKeepsTheInvariants s t hv ht,
      (serves_resetInput hserves).trans (hreset.trans hr), balanced_of_step hr ht⟩

theorem run_succ {s t : State} (h : step s = .next t) (k : Nat) : s.run (k + 1) = t.run k := by
  have hcore : Sys2Proof.core.step s = .next t := h
  unfold State.run
  rw [Host.Core.run.eq_2 Sys2Proof.core s k, hcore]

/-- Settles O50, by strong induction on the work left. -/
theorem everyCommandIsAnsweredInBoundedSteps : Obligations.EveryCommandIsAnsweredInBoundedSteps := by
  intro s
  induction hw : s.work using Nat.strong_induction_on generalizing s with
  | _ w ih =>
  intro hv hr
  by_cases hi : s.Idle
  · obtain ⟨hc, hp, hj⟩ := hi
    exact ⟨0, s, Nat.zero_le _, rfl, ⟨hc, hp, hj⟩, by rw [hc, List.length_nil, Nat.add_zero],
      by rw [hp, if_pos hj, List.length_nil, Nat.add_zero]⟩
  · obtain ⟨t, ht, hwork, htv, htr, hbal⟩ := exists_step_of_not_idle hv hr hi
    obtain ⟨k, u, hk, hrun, hidle, hcu, hpu⟩ := ih t.work (hw ▸ hwork) t rfl htv htr
    exact ⟨k + 1, u, (Nat.succ_le_succ hk).trans (hw ▸ hwork), (run_succ ht k).trans hrun, hidle,
      hcu.trans ((Nat.add_comm ..).trans (hbal.control.trans (Nat.add_comm ..))),
      by rw [hpu, Nat.add_comm t.pOut.length, hbal.processing, Nat.add_comm s.pOut.length]⟩

end Sys2Proof.Proofs
end

section
/-! PROOFS. Special values of the arithmetic (R11, R157): NaNs, infinities and zeros as operands and results, the NaN that
poisons its channel, and that the open bits drawn for a NaN touch nothing but NaNs. -/

namespace Sys2Proof.Proofs

-- The proofs of this section are elaborated one after another: the check compiles the whole text in one process of
-- bounded memory.
set_option deprecated.oldSectionVars true
set_option linter.all false

open Sys2Proof Sys2Proof.Machine Sys2Proof.Claims

/-! ### The other sign -/

theorem fneg_bits (a : F64) : (fneg a).toNat % 2 ^ 63 = a.toNat % 2 ^ 63 := by
  rw [fneg, BitVec.toNat_xor, Nat.xor_mod_two_pow]
  exact Nat.xor_zero _

theorem fneg_msb (a : F64) : (fneg a).msb = !a.msb := by
  rw [fneg, BitVec.msb_xor]
  exact Bool.xor_true _

theorem isNan64_fneg {a : F64} (h : isNan64 a) : isNan64 (fneg a) := by
  simp only [isNan64, unpack64, fneg_bits] at h ⊢
  split_ifs at h ⊢
  rfl

theorem fneg_inf64 (s : Bool) : fneg (inf64 s) = inf64 (!s) := by cases s <;> decide

theorem units64_fneg {a : F64} {m : Int} (h : units64 a = some m) : units64 (fneg a) = some (-m) := by
  obtain ⟨n, hu, rfl⟩ := units64_eq_some h
  rw [units64_of_unpack64 (unpack64_fneg hu), neg_signedUnits]

/-! ### NaN operands -/

section NanOperand

variable {a : F64} (h : isNan64 a) (b : F64) (d : NanDraw)

include h

theorem fadd_nan_left : fadd d a b = quietNan64 d := by rw [fadd, show unpack64 a = .nan from h]

theorem fadd_nan_right : fadd d b a = quietNan64 d := by
  rw [fadd, show unpack64 a = .nan from h]
  cases unpack64 b <;> rfl

theorem fsub_nan_left : fsub d a b = quietNan64 d := fadd_nan_left h _ d

theorem fsub_nan_right : fsub d b a = quietNan64 d := fadd_nan_right (isNan64_fneg h) b d

theorem fmul_nan_left : fmul d a b = quietNan64 d := by rw [fmul, show unpack64 a = .nan from h]

theorem fmul_nan_right : fmul d b a = quietNan64 d := by
  rw [fmul, show unpack64 a = .nan from h]
  cases unpack64 b <;> rfl

theorem fdiv_nan_left : fdiv d a b = quietNan64 d := by rw [fdiv, show unpack64 a = .nan from h]

theorem fdiv_nan_right : fdiv d b a = quietNan64 d := by
  rw [fdiv, show unpack64 a = .nan from h]
  cases unpack64 b <;> rfl

theorem fsqrt_nan : fsqrt d a = quietNan64 d := by rw [fsqrt, show unpack64 a = .nan from h]

end NanOperand

/-! ### Finite operands -/

theorem fdiv_of_finite (d : NanDraw) {a b : F64} {s t : Bool} {m n : Nat} (ha : unpack64 a = .fin s m)
    (hb : unpack64 b = .fin t n) (hn : n ≠ 0) : fdiv d a b = round64 (s != t) (m * 2 ^ 1074) n := by
  simp only [fdiv, ha, hb, if_neg hn]

theorem fsqrt_of_finite (d : NanDraw) {a : F64} {m : Nat} (ha : unpack64 a = .fin false m) (hm : m ≠ 0) :
    fsqrt d a = round64 false (2 * isqrt (m * 2 ^ 1074)
      + (if isqrt (m * 2 ^ 1074) * isqrt (m * 2 ^ 1074) = m * 2 ^ 1074 then 0 else 1)) 2 := by
  simp only [fsqrt, ha, if_neg hm, Bool.false_eq_true, if_false]

theorem unpack64_signed64_zero (s : Bool) : unpack64 (signed64 s 0) = .fin s 0 := by
  rw [unpack64_signed64 (by decide)]; rfl

theorem isZero64_signed64_zero (s : Bool) : isZero64 (signed64 s 0) := by
  cases s
  · exact .inl rfl
  · exact .inr rfl

theorem round64_msb (s : Bool) (num den : Nat) : (round64 s num den).msb = s :=
  signed64_msb ((Nat.min_le_right _ _).trans_lt (by decide))

theorem round64_zero (s : Bool) (den : Nat) : round64 s 0 den = signed64 s 0 := by
  rw [round64, roundBits_zero]; rfl

theorem signedUnits_eq_zero {s : Bool} {n : Nat} : signedUnits s n = 0 ↔ n = 0 := by
  cases s <;> simp [signedUnits]

/-- An exact zero sum is +0.0 but where both terms are negative zeros (R157). -/
theorem addFinite_of_cancel {s t : Bool} {m n : Nat} (h : signedUnits s m + signedUnits t n = 0) :
    addFinite s m t n = if s && t then 0x8000000000000000#64 else 0x0000000000000000#64 := by
  by_cases hst : s = t
  · subst hst
    have hzero : m + n = 0 := by cases s <;> simp only [signedUnits, if_true, Bool.false_eq_true, if_false] at h <;> omega
    rw [addFinite, if_pos rfl, hzero, round64_zero, Bool.and_self]
    cases s <;> rfl
  · have heq : m = n := by cases s <;> cases t <;> simp [signedUnits] at h hst <;> omega
    have hand : (s && t) = false := by cases s <;> cases t <;> simp at hst ⊢
    rw [addFinite, if_neg hst, heq, if_neg (lt_irrefl _), if_neg (lt_irrefl _), hand]
    rfl

/-! ### The obligations on special values -/

/-- Settles O54: the NaN operands by the lemmas above, the invalid operations by evaluating the case they fall in. -/
theorem invalidOperationsGiveQuietNans : Obligations.InvalidOperationsGiveQuietNans := by
  intro d a s t
  refine ⟨?_, ?_, ?_, ?_, ?_, ?_, fun m hm hneg => ?_, ?_, fun h b => ?_, unpack64_quietNan64 d, quietNan64_quiet d⟩
  · rw [fadd, unpack64_inf64, unpack64_inf64]
    exact if_neg (Bool.self_ne_not s)
  · rw [fsub, fneg_inf64, fadd, unpack64_inf64, unpack64_inf64]
    exact if_neg (Bool.self_ne_not s)
  · rw [fmul, unpack64_signed64_zero, unpack64_inf64]
    exact if_pos rfl
  · rw [fmul, unpack64_inf64, unpack64_signed64_zero]
    exact if_pos rfl
  · rw [fdiv, unpack64_signed64_zero, unpack64_signed64_zero]
    exact (if_pos rfl).trans (if_pos rfl)
  · rw [fdiv, unpack64_inf64, unpack64_inf64]
  · obtain ⟨n, hu, rfl⟩ := units64_eq_some hm
    have hn : n ≠ 0 := fun h => hneg.ne (signedUnits_eq_zero.2 h)
    have hsign : a.msb = true := by
      cases hs : a.msb with
      | true => rfl
      | false => rw [hs] at hneg; exact absurd hneg (not_lt.2 (Int.natCast_nonneg n))
    rw [fsqrt, hu, hsign]
    exact (if_neg hn).trans (if_pos rfl)
  · rw [fsqrt, unpack64_inf64]
    exact if_pos rfl
  · exact ⟨fadd_nan_left h b d, fadd_nan_right h b d, fsub_nan_left h b d, fsub_nan_right h b d, fmul_nan_left h b d,
      fmul_nan_right h b d, fdiv_nan_left h b d, fdiv_nan_right h b d, fsqrt_nan h d⟩

/-- Settles O55: the sign of a result from the operands' signs, an exact zero sum by `addFinite_of_cancel`. -/
theorem specialValuesFollowTheStandard : Obligations.SpecialValuesFollowTheStandard := by
  refine ⟨by decide, by decide, fun d s t a m ha => ?_⟩
  obtain ⟨p, hu, rfl⟩ := units64_eq_some ha
  have hnegzero : unpack64 0x8000000000000000#64 = .fin true 0 := unpack64_signed64_zero true
  have hfin (q : Bool) : fadd d a (inf64 q) = inf64 q := by rw [fadd, hu, unpack64_inf64]
  have hquot : fdiv d a (inf64 s) = signed64 (a.msb != s) 0 := by rw [fdiv, hu, unpack64_inf64]
  refine ⟨⟨?_, ?_, ?_⟩, ⟨?_, hfin s, ?_, ?_⟩, ⟨?_, ?_⟩, fun hm => ?_, ⟨?_, ?_, ?_⟩, fun b n hb => ?_⟩
  · rw [fadd, unpack64_inf64]
    exact if_pos rfl
  · rw [fsub, fneg_inf64, Bool.not_not, fadd, unpack64_inf64]
    exact if_pos rfl
  · rw [fmul, unpack64_inf64, unpack64_inf64]
  · rw [fadd, unpack64_inf64, hu]
  · rw [fsub, fadd, unpack64_inf64, unpack64_fneg hu]
  · rw [fsub, fneg_inf64, hfin]
  · rw [fdiv, unpack64_inf64, hu]
  · rw [hquot]
    exact ⟨isZero64_signed64_zero _, signed64_msb (by decide)⟩
  · have hp : p ≠ 0 := fun h => hm (signedUnits_eq_zero.2 h)
    refine ⟨?_, ?_, ?_, ?_⟩
    · rw [fmul, hu, unpack64_inf64]
      exact if_neg hp
    · rw [fmul, unpack64_inf64, hu]
      exact if_neg hp
    · rw [fdiv, hu, unpack64_zero]
      exact (if_pos rfl).trans ((if_neg hp).trans (congrArg inf64 (Bool.bne_false _)))
    · rw [fdiv, hu, hnegzero]
      exact (if_pos rfl).trans ((if_neg hp).trans (congrArg inf64 (Bool.bne_true _)))
  · rw [fsqrt, unpack64_inf64]
    exact if_neg Bool.false_ne_true
  · rw [fsqrt, unpack64_zero]
    exact if_pos rfl
  · rw [fsqrt, hnegzero]
    exact if_pos rfl
  · obtain ⟨k, hub, rfl⟩ := units64_eq_some hb
    refine ⟨fun hsum => ?_, fun hdiff => ?_, ?_, fun hn => ?_⟩
    · rw [fadd_of_finite d hu hub, addFinite_of_cancel hsum]
    · rw [fsub, fadd_of_finite d hu (unpack64_fneg hub), addFinite_of_cancel]
      rwa [← neg_signedUnits, ← sub_eq_add_neg]
    · rw [fmul_of_finite d hu hub, round64_msb]
    · rw [fdiv_of_finite d hu hub (fun h => hn (signedUnits_eq_zero.2 h)), round64_msb]

/-! ### A NaN poisons its channel (R157, R234) -/

/-- Some register of the stage, or its input, is a NaN. -/
def NanIn (h : Hist) (x : F64) : Prop := isNan64 x ∨ isNan64 h.x1 ∨ isNan64 h.x2 ∨ isNan64 h.y1 ∨ isNan64 h.y2

theorem isNan64_fadd_left (d : NanDraw) {a : F64} (h : isNan64 a) (b : F64) : isNan64 (fadd d a b) := by
  rw [fadd_nan_left h]; exact unpack64_quietNan64 d

theorem isNan64_fadd_right (d : NanDraw) (b : F64) {a : F64} (h : isNan64 a) : isNan64 (fadd d b a) := by
  rw [fadd_nan_right h]; exact unpack64_quietNan64 d

theorem isNan64_fsub_left (d : NanDraw) {a : F64} (h : isNan64 a) (b : F64) : isNan64 (fsub d a b) :=
  isNan64_fadd_left d h _

theorem isNan64_fsub_right (d : NanDraw) (b : F64) {a : F64} (h : isNan64 a) : isNan64 (fsub d b a) :=
  isNan64_fadd_right d b (isNan64_fneg h)

theorem isNan64_fmul_right (d : NanDraw) (b : F64) {a : F64} (h : isNan64 a) : isNan64 (fmul d b a) := by
  rw [fmul_nan_right h]; exact unpack64_quietNan64 d

/-- The NaN enters the accumulator at its own term and stays through the terms after it. -/
theorem isNan64_stageOutput (d : Nat → NanDraw) (k : Coef) {h : Hist} {x : F64} (hn : NanIn h x) :
    isNan64 (stageOutput d k h x) := by
  obtain hx | hx1 | hx2 | hy1 | hy2 := hn
  · exact isNan64_fsub_left _ (isNan64_fsub_left _ (isNan64_fadd_left _ (isNan64_fadd_left _
      (isNan64_fmul_right _ _ hx) _) _) _) _
  · exact isNan64_fsub_left _ (isNan64_fsub_left _ (isNan64_fadd_left _ (isNan64_fadd_right _ _
      (isNan64_fmul_right _ _ hx1)) _) _) _
  · exact isNan64_fsub_left _ (isNan64_fsub_left _ (isNan64_fadd_right _ _ (isNan64_fmul_right _ _ hx2)) _) _
  · exact isNan64_fsub_left _ (isNan64_fsub_right _ _ (isNan64_fmul_right _ _ hy1)) _
  · exact isNan64_fsub_right _ _ (isNan64_fmul_right _ _ hy2)

theorem isNan64_applySample (d : Nat → NanDraw) (k : PerBand Coef) {h : PerBand Hist} {x : F64} (hn : NanIn h.bass x) :
    isNan64 (applySample d k h x).1 ∧ ∀ b, isNan64 (bandGet (applySample d k h x).2 b).y1 := by
  rw [applySample]
  have h1 := isNan64_stageOutput d k.bass hn
  generalize stageOutput d k.bass h.bass x = v1 at h1 ⊢
  have h2 := isNan64_stageOutput (fun i => d (9 + i)) k.mid (h := h.mid) (.inl h1)
  generalize stageOutput (fun i => d (9 + i)) k.mid h.mid v1 = v2 at h2 ⊢
  have h3 := isNan64_stageOutput (fun i => d (18 + i)) k.treble (h := h.treble) (.inl h2)
  refine ⟨h3, fun b => ?_⟩
  cases b with
  | bass => exact h1
  | mid => exact h2
  | treble => exact h3

theorem isNan32_d2f (e : NanDraw32) {v : F64} (h : isNan64 v) : isNan32 (d2f e v) := by
  rw [d2f_nan e h]; exact unpack32_quietNan32 e

theorem isNan32_monoSeq (k : PerBand Coef) {h : PerBand Hist} (hn : isNan64 h.bass.y1) (d : Nat) (ws : Buffer) :
    (∀ w ∈ (monoSeq k d h ws).1, isNan32 w) ∧ isNan64 (monoSeq k d h ws).2.bass.y1 := by
  induction ws generalizing h d with
  | nil => exact ⟨nofun, hn⟩
  | cons w ws ih =>
    have hsample := isNan64_applySample (fun i => Config.freeNan (d + 1 + i)) k (x := f2d (Config.freeNan d) w)
      (.inr (.inr (.inr (.inl hn))))
    obtain ⟨hwords, hlast⟩ := ih (hsample.2 .bass) (d + drawsPerSample)
    exact ⟨List.forall_mem_cons.2 ⟨isNan32_d2f _ hsample.1, hwords⟩, hlast⟩

/-- Settles O23: the stage, the cascade, and by induction the words after a poisoned one. -/
theorem nanPoisonsItsChannel : Obligations.NanPoisonsItsChannel := fun k _ =>
  ⟨fun d b _ hn => isNan64_stageOutput d (bandGet k b) hn, fun d _ hn => isNan64_applySample d k hn, isNan32_monoSeq k⟩

/-! ### The draws touch nothing but NaNs (R11, U9) -/

/-- An operation reads its draw only for the bits of a NaN it gives. -/
def DrawsOnlyNans (f : NanDraw → F64) : Prop := (∀ d, f d = quietNan64 d) ∨ ∃ r, ∀ d, f d = r

theorem drawsOnlyNans_fadd (a b : F64) : DrawsOnlyNans (fun d => fadd d a b) := by
  unfold fadd
  cases unpack64 a with
  | nan => exact .inl fun _ => rfl
  | inf s =>
    cases unpack64 b with
    | nan => exact .inl fun _ => rfl
    | inf t =>
      by_cases heq : s = t
      · exact .inr ⟨inf64 s, fun _ => if_pos heq⟩
      · exact .inl fun _ => if_neg heq
    | fin => exact .inr ⟨_, fun _ => rfl⟩
  | fin =>
    cases unpack64 b with
    | nan => exact .inl fun _ => rfl
    | inf | fin => exact .inr ⟨_, fun _ => rfl⟩

theorem drawsOnlyNans_fmul (a b : F64) : DrawsOnlyNans (fun d => fmul d a b) := by
  unfold fmul
  cases unpack64 a with
  | nan => exact .inl fun _ => rfl
  | inf s =>
    cases unpack64 b with
    | nan => exact .inl fun _ => rfl
    | inf => exact .inr ⟨_, fun _ => rfl⟩
    | fin t n =>
      by_cases h : n = 0
      · exact .inl fun _ => if_pos h
      · exact .inr ⟨_, fun _ => if_neg h⟩
  | fin s m =>
    cases unpack64 b with
    | nan => exact .inl fun _ => rfl
    | inf =>
      by_cases h : m = 0
      · exact .inl fun _ => if_pos h
      · exact .inr ⟨_, fun _ => if_neg h⟩
    | fin => exact .inr ⟨_, fun _ => rfl⟩

theorem drawsOnlyNans_fdiv (a b : F64) : DrawsOnlyNans (fun d => fdiv d a b) := by
  unfold fdiv
  cases unpack64 a with
  | nan => exact .inl fun _ => rfl
  | inf =>
    cases unpack64 b with
    | nan | inf => exact .inl fun _ => rfl
    | fin => exact .inr ⟨_, fun _ => rfl⟩
  | fin s m =>
    cases unpack64 b with
    | nan => exact .inl fun _ => rfl
    | inf => exact .inr ⟨_, fun _ => rfl⟩
    | fin t n =>
      by_cases hn : n = 0
      · by_cases hm : m = 0
        · exact .inl fun _ => (if_pos hn).trans (if_pos hm)
        · exact .inr ⟨_, fun _ => (if_pos hn).trans (if_neg hm)⟩
      · exact .inr ⟨_, fun _ => if_neg hn⟩

theorem drawsOnlyNans_f2d (w : Word) : DrawsOnlyNans (fun d => f2d d w) := by
  unfold f2d
  cases unpack32 w with
  | nan => exact .inl fun _ => rfl
  | inf | fin => exact .inr ⟨_, fun _ => rfl⟩

theorem same64_of_draws {f : NanDraw → F64} (h : DrawsOnlyNans f) (d e : NanDraw) : Same64 (f d) (f e) := by
  obtain h | ⟨r, h⟩ := h
  · rw [h, h]; exact .inr ⟨unpack64_quietNan64 d, unpack64_quietNan64 e⟩
  · rw [h, h]; exact .inl rfl

/-- Settles O28: b1 and a1 are quotients of the same two numbers. -/
theorem peakingB1EqualsA1 : Obligations.PeakingB1EqualsA1 := fun _ _ _ => same64_of_draws (drawsOnlyNans_fdiv _ _) _ _

/-! ### Equality up to NaNs is an equivalence -/

@[refl] theorem same64_refl (a : F64) : Same64 a a := .inl rfl

theorem same64_symm {a b : F64} (h : Same64 a b) : Same64 b a := h.imp Eq.symm And.symm

theorem same64_trans {a b c : F64} (h : Same64 a b) (g : Same64 b c) : Same64 a c := by
  obtain rfl | ⟨ha, hb⟩ := h
  · exact g
  · obtain rfl | ⟨-, hc⟩ := g
    · exact .inr ⟨ha, hb⟩
    · exact .inr ⟨ha, hc⟩

@[refl] theorem same32_refl (a : Word) : Same32 a a := .inl rfl

theorem same32_symm {a b : Word} (h : Same32 a b) : Same32 b a := h.imp Eq.symm And.symm

theorem same32_trans {a b c : Word} (h : Same32 a b) (g : Same32 b c) : Same32 a c := by
  obtain rfl | ⟨ha, hb⟩ := h
  · exact g
  · obtain rfl | ⟨-, hc⟩ := g
    · exact .inr ⟨ha, hb⟩
    · exact .inr ⟨ha, hc⟩

@[refl] theorem sameWords_refl (ws : List Word) : SameWords ws ws := List.forall₂_same.2 fun w _ => same32_refl w

theorem sameWords_symm {v w : List Word} (h : SameWords v w) : SameWords w v := (h.imp fun _ _ => same32_symm).flip

theorem sameWords_trans {u v w : List Word} (h : SameWords u v) (g : SameWords v w) : SameWords u w := by
  induction h generalizing w with
  | nil => exact g
  | cons hab _ ih =>
    cases g with
    | cons hbc hrest => exact .cons (same32_trans hab hbc) (ih hrest)

theorem sameWords_append {v w v' w' : List Word} (h : SameWords v w) (g : SameWords v' w') :
    SameWords (v ++ v') (w ++ w') := List.rel_append h g

theorem sameHist_refl (h : Hist) : SameHist h h := ⟨.inl rfl, .inl rfl, .inl rfl, .inl rfl⟩

@[refl] theorem sameHists_refl (h : PerBand Hist) : SameHists h h := fun b => sameHist_refl (bandGet h b)

theorem sameHists_symm {g h : PerBand Hist} (hs : SameHists g h) : SameHists h g := fun b => by
  obtain ⟨hx1, hx2, hy1, hy2⟩ := hs b
  exact ⟨same64_symm hx1, same64_symm hx2, same64_symm hy1, same64_symm hy2⟩

theorem sameHists_trans {f g h : PerBand Hist} (hfg : SameHists f g) (hgh : SameHists g h) : SameHists f h := fun b => by
  obtain ⟨hx1, hx2, hy1, hy2⟩ := hfg b
  obtain ⟨gx1, gx2, gy1, gy2⟩ := hgh b
  exact ⟨same64_trans hx1 gx1, same64_trans hx2 gx2, same64_trans hy1 gy1, same64_trans hy2 gy2⟩

/-! ### Through the arithmetic -/

/-- An operation that gives a NaN for a NaN operand and reads its draw for nothing else keeps equality up to NaNs. -/
theorem same64_of_operation {f : NanDraw → F64 → F64 → F64} (hl : ∀ {a : F64}, isNan64 a → ∀ b d, f d a b = quietNan64 d)
    (hr : ∀ {a : F64}, isNan64 a → ∀ b d, f d b a = quietNan64 d) (hd : ∀ a b, DrawsOnlyNans (fun d => f d a b))
    (d e : NanDraw) {a a' b b' : F64} (ha : Same64 a a') (hb : Same64 b b') : Same64 (f d a b) (f e a' b') := by
  have hnan : Same64 (quietNan64 d) (quietNan64 e) := .inr ⟨unpack64_quietNan64 d, unpack64_quietNan64 e⟩
  obtain rfl | ⟨hna, hna'⟩ := ha
  · obtain rfl | ⟨hnb, hnb'⟩ := hb
    · exact same64_of_draws (hd a b) d e
    · rw [hr hnb, hr hnb']; exact hnan
  · rw [hl hna, hl hna']; exact hnan

theorem same64_fadd (d e : NanDraw) {a a' b b' : F64} (ha : Same64 a a') (hb : Same64 b b') :
    Same64 (fadd d a b) (fadd e a' b') := same64_of_operation fadd_nan_left fadd_nan_right drawsOnlyNans_fadd d e ha hb

theorem same64_fmul (d e : NanDraw) (a : F64) {b b' : F64} (hb : Same64 b b') : Same64 (fmul d a b) (fmul e a b') :=
  same64_of_operation fmul_nan_left fmul_nan_right drawsOnlyNans_fmul d e (same64_refl a) hb

theorem same64_fsub (d e : NanDraw) {a a' b b' : F64} (ha : Same64 a a') (hb : Same64 b b') :
    Same64 (fsub d a b) (fsub e a' b') :=
  same64_fadd d e ha (hb.imp (congrArg fneg) fun ⟨hnb, hnb'⟩ => ⟨isNan64_fneg hnb, isNan64_fneg hnb'⟩)

theorem same32_d2f (d e : NanDraw32) {v v' : F64} (h : Same64 v v') : Same32 (d2f d v) (d2f e v') := by
  obtain rfl | ⟨hn, hn'⟩ := h
  · cases hv : unpack64 v with
    | nan => exact .inr ⟨isNan32_d2f d hv, isNan32_d2f e hv⟩
    | inf | fin => exact .inl (by rw [d2f, d2f, hv])
  · exact .inr ⟨isNan32_d2f d hn, isNan32_d2f e hn'⟩

/-! ### Through the filter -/

theorem same64_stageOutput (d e : Nat → NanDraw) (k : Coef) {g h : Hist} {x y : F64} (hh : SameHist g h)
    (hx : Same64 x y) : Same64 (stageOutput d k g x) (stageOutput e k h y) := by
  obtain ⟨hx1, hx2, hy1, hy2⟩ := hh
  exact same64_fsub _ _ (same64_fsub _ _ (same64_fadd _ _ (same64_fadd _ _ (same64_fmul _ _ _ hx) (same64_fmul _ _ _ hx1))
    (same64_fmul _ _ _ hx2)) (same64_fmul _ _ _ hy1)) (same64_fmul _ _ _ hy2)

theorem sameHist_shiftHist {g h : Hist} {x x' y y' : F64} (hh : SameHist g h) (hx : Same64 x x') (hy : Same64 y y') :
    SameHist (shiftHist g x y) (shiftHist h x' y') := ⟨hx, hh.1, hy, hh.2.2.1⟩

theorem same_applySample (d e : Nat → NanDraw) (k : PerBand Coef) {g h : PerBand Hist} {x y : F64} (hh : SameHists g h)
    (hx : Same64 x y) :
    Same64 (applySample d k g x).1 (applySample e k h y).1 ∧
      SameHists (applySample d k g x).2 (applySample e k h y).2 := by
  rw [applySample, applySample]
  have h1 : Same64 (stageOutput d k.bass g.bass x) (stageOutput e k.bass h.bass y) :=
    same64_stageOutput d e k.bass (hh .bass) hx
  generalize stageOutput d k.bass g.bass x = v1 at h1 ⊢
  generalize stageOutput e k.bass h.bass y = w1 at h1 ⊢
  have h2 : Same64 (stageOutput (fun i => d (9 + i)) k.mid g.mid v1) (stageOutput (fun i => e (9 + i)) k.mid h.mid w1) :=
    same64_stageOutput _ _ k.mid (hh .mid) h1
  generalize stageOutput (fun i => d (9 + i)) k.mid g.mid v1 = v2 at h2 ⊢
  generalize stageOutput (fun i => e (9 + i)) k.mid h.mid w1 = w2 at h2 ⊢
  have h3 : Same64 (stageOutput (fun i => d (18 + i)) k.treble g.treble v2)
    (stageOutput (fun i => e (18 + i)) k.treble h.treble w2) := same64_stageOutput _ _ k.treble (hh .treble) h2
  refine ⟨h3, fun b => ?_⟩
  cases b with
  | bass => exact sameHist_shiftHist (hh .bass) hx h1
  | mid => exact sameHist_shiftHist (hh .mid) h1 h2
  | treble => exact sameHist_shiftHist (hh .treble) h2 h3

theorem same_processWord (d e : Nat) (k : PerBand Coef) {g h : PerBand Hist} (hh : SameHists g h) (w : Word) :
    Same32 (processWord d k g w).1 (processWord e k h w).1 ∧
      SameHists (processWord d k g w).2 (processWord e k h w).2 := by
  rw [processWord, processWord, filterWord, filterWord]
  dsimp only
  obtain ⟨hout, hhist⟩ := same_applySample (fun i => Config.freeNan (d + 1 + i)) (fun i => Config.freeNan (e + 1 + i)) k hh
    (same64_of_draws (drawsOnlyNans_f2d w) (Config.freeNan d) (Config.freeNan e))
  exact ⟨same32_d2f _ _ hout, hhist⟩

/-! ### Through a step -/

/-- The state with the parts that may hold bits of NaNs replaced. -/
noncomputable def withNans (s : State) (hist : PerBand (PerChannel Hist)) (job : Option Job) (pOut : List Packet) (draws : Nat) : State :=
  { s with hist := hist, job := job, pOut := pOut, draws := draws }

/-- `SameButNans` with the second state written out. -/
inductive ReplacesNans (s : State) : State → Prop
  | intro {hist : PerBand (PerChannel Hist)} {job : Option Job} {pOut : List Packet} {draws : Nat}
      (hh : ∀ c, SameHists (s.channelHist c) ((withNans s hist job pOut draws).channelHist c)) (hj : SameJobs s.job job)
      (hp : List.Forall₂ SameWords s.pOut pOut) : ReplacesNans s (withNans s hist job pOut draws)

theorem replacesNans_of_same {s t : State} (h : s.SameButNans t) : ReplacesNans s t := by
  have ht : withNans s t.hist t.job t.pOut t.draws = t := h.rest
  exact ht ▸ ReplacesNans.intro h.hist h.job h.pOut

theorem sameButNans_respond {s t : State} (h : s.SameButNans t) (port : Agent) (opc : BitVec 8) (st : Status)
    (ws : List Word) : (s.respond port opc st ws).SameButNans (t.respond port opc st ws) := by
  obtain ⟨hh, hj, hp⟩ := replacesNans_of_same h
  cases port with
  | control => exact ⟨rfl, hh, hj, hp⟩
  | processing => exact ⟨rfl, hh, hj, List.rel_append hp (.cons (sameWords_refl _) .nil)⟩

theorem sameButNans_startJob {s t : State} (h : s.SameButNans t) (kind : JobKind) (io : PerChannel Buffer) (fs : Word) :
    (startJob kind io (syncRate fs s)).SameButNans (startJob kind io (syncRate fs t)) := by
  obtain ⟨hh, -, hp⟩ := replacesNans_of_same h
  rw [syncRate_eq, syncRate_eq]
  exact ⟨rfl, hh, ⟨rfl, sameWords_refl _, sameWords_refl _⟩, hp⟩

theorem sameButNans_pBegin {s t : State} (h : s.SameButNans t) (kind : JobKind) (fs : Word)
    (input : Option (PerChannel Buffer)) : (pBegin kind fs input s).SameButNans (pBegin kind fs input t) := by
  have hen : t.en = s.en := by rw [← h.rest]
  cases input with
  | none =>
    rw [pBegin_of_absent, pBegin_of_absent]
    exact sameButNans_respond h _ _ _ _
  | some io =>
    by_cases hfs : sext32 fs ≤ 0
    · rw [pBegin_of_badRate io s hfs, pBegin_of_badRate io t hfs]
      exact sameButNans_respond h _ _ _ _
    by_cases hlen : kind = .stereo ∧ io.left.length ≠ io.right.length
    · obtain ⟨rfl, hlen⟩ := hlen
      rw [pBegin_of_mismatch s (not_le.1 hfs) hlen, pBegin_of_mismatch t (not_le.1 hfs) hlen]
      exact sameButNans_respond h _ _ _ _
    have hmatch : kind = .stereo → io.left.length = io.right.length := fun hk => by_contra fun hne => hlen ⟨hk, hne⟩
    rw [pBegin_of_valid s (not_le.1 hfs) hmatch, pBegin_of_valid t (not_le.1 hfs) hmatch, hen]
    split
    · exact sameButNans_respond h _ _ _ _
    · split
      · exact sameButNans_respond h _ _ _ _
      · exact sameButNans_startJob h kind io fs

theorem job_eq_none_iff_of_same {s t : State} (h : s.SameButNans t) : t.job = none ↔ s.job = none := by
  have hjob := h.job
  cases hs : s.job <;> cases ht : t.job <;> simp [hs, ht, SameJobs] at hjob ⊢

/-- A service that neither reads nor writes what may hold bits of NaNs. -/
theorem sameButNans_of_kept {f : State → State} {s t : State} (h : s.SameButNans t)
    (hf : ∀ hist job pOut draws, f (withNans s hist job pOut draws) = withNans (f s) hist job pOut draws)
    (hhist : (f s).hist = s.hist) (hjob : (f s).job = s.job) (hout : (f s).pOut = s.pOut) : (f s).SameButNans (f t) := by
  obtain ⟨hh, hj, hp⟩ := replacesNans_of_same h
  rw [hf]
  refine ⟨rfl, fun c => ?_, hjob ▸ hj, hout ▸ hp⟩
  rw [State.channelHist, hhist]
  exact hh c

theorem sameButNans_resetHistory {s t : State} (h : s.SameButNans t) :
    (resetHistory s).SameButNans (resetHistory t) := by
  obtain ⟨-, hj, hp⟩ := replacesNans_of_same h
  exact ⟨rfl, fun c => sameHists_refl _, hj, hp⟩

theorem sameButNans_setLevel {s t : State} (h : s.SameButNans t) (b : Band) (v : Word) :
    (setLevel b v s).SameButNans (setLevel b v t) :=
  sameButNans_of_kept h (fun _ _ _ _ => by rw [setLevel_eq, setLevel_eq]; rfl) (by rw [setLevel_eq])
    (answersControl_setLevel b v s).job (answersControl_setLevel b v s).pOut

theorem sameButNans_getLevel {s t : State} (h : s.SameButNans t) (b : Band) :
    (getLevel b s).SameButNans (getLevel b t) := by
  have hlevel : t.level b = s.level b := by rw [← h.rest]; rfl
  rw [getLevel, getLevel, hlevel]
  exact sameButNans_respond h _ _ _ _

theorem sameButNans_pBegin_of_exec {i : Instr} {kind : JobKind} {fs : Word} {input : Option (PerChannel Buffer)}
    (hrun : ∀ u : State, u.job = none → exec i u = .next (pBegin kind fs input u))
    (hwait : ∀ (u : State) (j : Job), u.job = some j → exec i u = .next u) {s t s' t' : State} (h : s.SameButNans t)
    (hs : exec i s = .next s') (ht : exec i t = .next t') : s'.SameButNans t' := by
  cases hj : s.job with
  | none =>
    rw [hrun s hj] at hs
    rw [hrun t ((job_eq_none_iff_of_same h).2 hj)] at ht
    cases hs; cases ht
    exact sameButNans_pBegin h _ _ _
  | some j =>
    obtain ⟨k, hk⟩ := Option.ne_none_iff_exists'.1 fun hn => Option.some_ne_none j (hj ▸ (job_eq_none_iff_of_same h).1 hn)
    rw [hwait s j hj] at hs
    rw [hwait t k hk] at ht
    cases hs; cases ht
    exact h

theorem sameButNans_exec {i : Instr} {s t s' t' : State} (h : s.SameButNans t) (hs : exec i s = .next s')
    (ht : exec i t = .next t') : s'.SameButNans t' := by
  cases i with
  | procM fs buf =>
    exact sameButNans_pBegin_of_exec (fun u hu => exec_procM hu fs buf)
      (fun u j hu => (bufferCommandWaitsForTheJob u j hu).1 fs buf) h hs ht
  | procS fs left right =>
    exact sameButNans_pBegin_of_exec (fun u hu => exec_procS hu fs left right)
      (fun u j hu => (bufferCommandWaitsForTheJob u j hu).2 fs left right) h hs ht
  | rstf =>
    rw [← Host.Outcome.next.inj hs, ← Host.Outcome.next.inj ht]
    exact sameButNans_respond (sameButNans_resetHistory h) _ _ _ _
  | setEn en =>
    rw [← Host.Outcome.next.inj hs, ← Host.Outcome.next.inj ht]
    exact sameButNans_respond (sameButNans_of_kept (f := fun u => { u with en := en }) h (fun _ _ _ _ => rfl) rfl rfl rfl) _ _ _ _
  | getEn =>
    have hen : t.en = s.en := by rw [← h.rest]
    rw [← Host.Outcome.next.inj hs, ← Host.Outcome.next.inj ht, hen]
    exact sameButNans_respond h _ _ _ _
  | setBass | setMid | setTreb =>
    rw [← Host.Outcome.next.inj hs, ← Host.Outcome.next.inj ht]
    exact sameButNans_setLevel h _ _
  | getBass | getMid | getTreb =>
    rw [← Host.Outcome.next.inj hs, ← Host.Outcome.next.inj ht]
    exact sameButNans_getLevel h _

theorem sameWords_bufWrite {v w : Buffer} (h : SameWords v w) (i : Nat) {x y : Word} (hxy : Same32 x y) :
    SameWords (bufWrite v i x) (bufWrite w i y) :=
  sameWords_append (List.forall₂_take i h) (.cons hxy (List.forall₂_drop (i + 1) h))

theorem sameJob_advance {j : Job} {out out' : PerChannel Buffer} (hl : SameWords out.left out'.left)
    (hr : SameWords out.right out'.right) :
    SameJob { j with output := out }.advance { j with output := out' }.advance := by
  obtain ⟨kind, _, _, _, _, ch⟩ := j
  cases kind <;> cases ch <;> exact ⟨rfl, hl, hr⟩

theorem sameJob_sampled {i : Job} {out : PerChannel Buffer} (hl : SameWords i.output.left out.left)
    (hr : SameWords i.output.right out.right) {x y : Word} (hxy : Same32 x y) :
    SameJob { i with output := chanSet i.output i.ch (bufWrite (chanGet i.output i.ch) i.idx x) }.advance
      { i with output := chanSet out i.ch (bufWrite (chanGet out i.ch) i.idx y) }.advance := by
  obtain ⟨hleft, hright⟩ := And.intro (sameWords_bufWrite hl i.idx hxy) (sameWords_bufWrite hr i.idx hxy)
  cases hc : i.ch with
  | left => exact sameJob_advance (j := { i with ch := .left }) hleft hr
  | right => exact sameJob_advance (j := { i with ch := .right }) hl hright

theorem channelHist_pSample (j : Job) (s : State) (c : Channel) : (pSample j s).channelHist c =
    if c = j.ch then (processWord s.draws s.coef (s.channelHist j.ch) (bufRead (chanGet j.input j.ch) j.idx)).2
    else s.channelHist c := channelHist_writeChannelHist s j.ch c _

theorem sameButNans_pSample {s t : State} (h : s.SameButNans t) {i j : Job} (hij : SameJob i j) :
    (pSample i s).SameButNans (pSample j t) := by
  obtain ⟨hh, -, hp⟩ := replacesNans_of_same h
  obtain ⟨hjob, hl, hr⟩ := hij
  obtain ⟨hword, hhist⟩ := same_processWord s.draws _ s.coef (hh i.ch) (bufRead (chanGet i.input i.ch) i.idx)
  rw [← hjob]
  refine ⟨rfl, fun c => ?_, sameJob_sampled hl hr hword, hp⟩
  rw [channelHist_pSample, channelHist_pSample]
  by_cases hc : c = i.ch
  · rw [if_pos hc, if_pos hc]; exact hhist
  · rw [if_neg hc, if_neg hc]; exact hh c

theorem sameButNans_pEnd {s t : State} (h : s.SameButNans t) {i j : Job} (hij : SameJob i j) :
    (pEnd i s).SameButNans (pEnd j t) := by
  obtain ⟨hh, -, hp⟩ := replacesNans_of_same h
  obtain ⟨hjob, hl, hr⟩ := hij
  rw [← hjob] at hl hr ⊢
  refine ⟨rfl, hh, trivial, List.rel_append hp (.cons (.cons (same32_refl _) ?_) .nil)⟩
  cases i.kind with
  | mono => exact .cons (same32_refl _) hl
  | stereo => exact .cons (same32_refl _) (.cons (same32_refl _) (sameWords_append hl hr))

theorem pick_withNans {s : State} {hist : PerBand (PerChannel Hist)} {job : Option Job} {pOut : List Packet} {draws : Nat}
    (hready : (withNans s hist job pOut draws).processingReady = s.processingReady) :
    (withNans s hist job pOut draws).pick = s.pick.map fun p => (p.1, withNans p.2 hist job pOut draws) := by
  have hcontrol : (withNans s hist job pOut draws).controlReady = s.controlReady := rfl
  have hsched : (withNans s hist job pOut draws).sched = s.sched := rfl
  rw [State.pick, State.pick, hready, hcontrol, hsched]
  cases s.controlReady <;> cases s.processingReady
  case true.true => cases s.sched <;> rfl
  all_goals rfl

/-- The same agent goes in both. -/
theorem pick_of_same {s t s1 : State} {a : Agent} (h : s.SameButNans t) (hpick : s.pick = some (a, s1)) :
    ∃ t1, t.pick = some (a, t1) ∧ s1.SameButNans t1 := by
  have hready : t.processingReady = s.processingReady := by
    rw [Bool.eq_iff_iff, processingReady_eq_true, processingReady_eq_true, ne_eq, ne_eq, job_eq_none_iff_of_same h]
    rw [← h.rest]
  obtain ⟨hh, hj, hp⟩ := replacesNans_of_same h
  refine ⟨withNans s1 _ _ _ _, by rw [pick_withNans hready, hpick, Option.map_some], ?_⟩
  rw [pick_frame hpick]
  exact ⟨rfl, hh, hj, hp⟩

/-- The same command, or two complete steps the same up to NaNs. -/
inductive SameAction : Action → Action → Prop
  | run (i : Instr) : SameAction (.run i) (.run i)
  | done {s t : State} (h : s.SameButNans t) : SameAction (.done s) (.done t)

theorem sameAction_fetch {s t : State} (h : s.SameButNans t) (port : Agent) (queue : List Packet) :
    SameAction (s.fetch port queue) (t.fetch port queue) := by
  cases queue with
  | nil => exact .done h
  | cons pkt rest =>
    rw [State.fetch, State.fetch]
    cases decode port pkt with
    | cmd i => exact .run i
    | illegal opc cause => exact .done (sameButNans_respond h _ _ _ _)

theorem sameAction_action {s t : State} (h : s.SameButNans t) (a : Agent) : SameAction (s.action a) (t.action a) := by
  cases a with
  | control =>
    have hqueue : t.cIn = s.cIn := by rw [← h.rest]
    rw [State.action, State.action, hqueue]
    exact sameAction_fetch h _ _
  | processing =>
    have hjob := h.job
    cases hs : s.job with
    | none =>
      have hqueue : t.pIn = s.pIn := by rw [← h.rest]
      rw [State.action, State.action, hs, (job_eq_none_iff_of_same h).2 hs, hqueue]
      exact sameAction_fetch h _ _
    | some i =>
      cases ht : t.job with
      | none => rw [hs, ht] at hjob; exact hjob.elim
      | some j =>
        rw [hs, ht] at hjob
        have hpos : j.idx = i.idx ∧ j.n = i.n := by rw [← hjob.1]; exact ⟨rfl, rfl⟩
        rw [action_of_job hs, action_of_job ht, hpos.1, hpos.2]
        refine .done ?_
        by_cases hlt : i.idx < i.n
        · rw [if_pos hlt, if_pos hlt]; exact sameButNans_pSample h hjob
        · rw [if_neg hlt, if_neg hlt]; exact sameButNans_pEnd h hjob

theorem sameButNans_hardwareReset {s t : State} (h : s.SameButNans t) :
    s.hardwareReset.SameButNans t.hardwareReset := by
  obtain ⟨-, -, hp⟩ := replacesNans_of_same h
  exact ⟨rfl, fun c => sameHists_refl _, trivial, hp⟩

/-- Settles O51: the same agent goes in both, to the same effect up to the bits of NaNs. -/
theorem nanBitsAreNeverRead : Obligations.NanBitsAreNeverRead := by
  intro s t s' t' h hs ht
  have hreset : t.resetInput = s.resetInput := by rw [← h.rest]
  cases hr : s.resetInput with
  | true =>
    rw [step, if_pos hr] at hs
    rw [step, if_pos (hreset.trans hr)] at ht
    cases hs; cases ht
    exact sameButNans_hardwareReset h
  | false =>
    have hrt := hreset.trans hr
    cases hpick : s.pick with
    | none =>
      have hidle := pick_eq_none.1 hpick
      have hidle' : t.Idle := by
        obtain ⟨hc, hp, hj⟩ := hidle
        exact ⟨by rw [← h.rest, hc], by rw [← h.rest, hp], (job_eq_none_iff_of_same h).2 hj⟩
      rw [step_of_idle hr hidle] at hs
      rw [step_of_idle hrt hidle'] at ht
      cases hs; cases ht
      exact h
    | some p =>
      obtain ⟨a, s1⟩ := p
      obtain ⟨t1, hpick', h1⟩ := pick_of_same h hpick
      have hsame := sameAction_action h1 a
      generalize hsa : s1.action a = x at hsame
      generalize hta : t1.action a = y at hsame
      cases hsame with
      | run i => exact sameButNans_exec h1 ((step_of_run hr hpick hsa).symm.trans hs) ((step_of_run hrt hpick' hta).symm.trans ht)
      | done h2 =>
        cases (step_of_done hr hpick hsa).symm.trans hs
        cases (step_of_done hrt hpick' hta).symm.trans ht
        exact h2

end Sys2Proof.Proofs
end

section
/-! PROOFS. Whole buffer commands (R183 to R185): an uninterrupted command is the fold of the cascade over its words, in one
piece or in two, each channel by itself. -/

namespace Sys2Proof.Proofs

-- The proofs of this section are elaborated one after another: the check compiles the whole text in one process of
-- bounded memory.
set_option deprecated.oldSectionVars true
set_option linter.all false

open Sys2Proof Sys2Proof.Machine Sys2Proof.Claims

/-! ### Runs -/

theorem run_add {s t : State} {k : Nat} (h : s.run k = .next t) (m : Nat) : s.run (k + m) = t.run m := by
  induction k generalizing s with
  | zero => cases h; rw [Nat.zero_add]
  | succ k ih =>
    obtain ⟨u, hu⟩ := step_goes_on s
    rw [run_succ hu] at h
    rw [Nat.add_right_comm, run_succ hu, ih h]

/-- With nothing on the C-port, the step of a buffer in flight is the processing agent's. -/
theorem step_of_job_alone {s : State} {j : Job} (hr : s.resetInput = false) (hc : s.cIn = []) (hj : s.job = some j) :
    step s = .next (if j.idx < j.n then pSample j s else pEnd j s) :=
  step_of_job hr (pick_processing_only (controlReady_eq_false_iff.2 hc)
    (processingReady_eq_true.2 (.inl (by rw [hj]; exact Option.some_ne_none j)))) hj

theorem step_of_command_alone {s : State} (hq : Quiet s) {i : Instr} {pkt : Packet} {rest : List Packet}
    (hp : s.pIn = pkt :: rest) (hd : decode .processing pkt = .cmd i) : step s = exec i s :=
  stepRunsTheDecodedCommand s s .processing pkt i hq.reset
    (pick_processing_only (controlReady_eq_false_iff.2 hq.port) (processingReady_eq_true.2 (.inr (by rw [hp]; exact List.cons_ne_nil _ _))))
    ⟨hq.job, rest, hp⟩ hd

/-! ### The samples of a job in flight -/

/-- Both channels' histories as the registers hold them. -/
noncomputable def joinHists (left right : PerBand Hist) : PerBand (PerChannel Hist) := bandAll fun b => ⟨bandGet left b, bandGet right b⟩

/-- A mono job of the words `ws` still to come, those before them filtered to `out`. -/
noncomputable def monoJob (done ws out : Buffer) : Job := ⟨.mono, (done ++ ws).length, ⟨done ++ ws, []⟩, ⟨out, []⟩, done.length, .left⟩

theorem getElem?_append_cons_length (done ws : Buffer) (w : Word) : (done ++ w :: ws)[done.length]? = some w := by
  rw [List.getElem?_append_right le_rfl, Nat.sub_self, List.getElem?_cons_zero]

/-- The state after the left word `w` of the job that goes on as `next`. -/
noncomputable def afterLeft (s : State) (w : Word) (next : Word → Job) : State :=
  { s with
    hist := setLeft s (processWord s.draws s.coef (leftHist s) w).2
    job := some (next (processWord s.draws s.coef (leftHist s) w).1)
    draws := s.draws + 29 }

/-- The same of a right word. -/
noncomputable def afterRight (s : State) (w : Word) (next : Word → Job) : State :=
  { s with
    hist := setRight s (processWord s.draws s.coef (rightHist s) w).2
    job := some (next (processWord s.draws s.coef (rightHist s) w).1)
    draws := s.draws + 29 }

theorem step_left {s : State} {j : Job} (hr : s.resetInput = false) (hc : s.cIn = []) (hj : s.job = some j)
    (hlt : j.idx < j.n) (hch : j.ch = .left) {w : Word} (hw : AtPosition j w) {next : Word → Job}
    (hnext : ∀ v, sampledJob j v = next v) : step s = .next (afterLeft s w next) := by
  rw [step_of_job_alone hr hc hj, if_pos hlt, pSample_eq hw, hnext, hch]
  rfl

theorem step_right {s : State} {j : Job} (hr : s.resetInput = false) (hc : s.cIn = []) (hj : s.job = some j)
    (hlt : j.idx < j.n) (hch : j.ch = .right) {w : Word} (hw : AtPosition j w) {next : Word → Job}
    (hnext : ∀ v, sampledJob j v = next v) : step s = .next (afterRight s w next) := by
  rw [step_of_job_alone hr hc hj, if_pos hlt, pSample_eq hw, hnext, hch]
  rfl

theorem leftHist_afterLeft (s : State) (w : Word) (next : Word → Job) :
    leftHist (afterLeft s w next) = (processWord s.draws s.coef (leftHist s) w).2 := rfl

theorem rightHist_afterLeft (s : State) (w : Word) (next : Word → Job) : rightHist (afterLeft s w next) = rightHist s := by
  rw [rightHist, afterLeft, setLeft, rightHist]

theorem rightHist_afterRight (s : State) (w : Word) (next : Word → Job) :
    rightHist (afterRight s w next) = (processWord s.draws s.coef (rightHist s) w).2 := rfl

theorem leftHist_afterRight (s : State) (w : Word) (next : Word → Job) : leftHist (afterRight s w next) = leftHist s := by
  rw [leftHist, afterRight, setRight, leftHist]

/-- The state with the job done: its response given, the histories and the number of the next draw as it leaves them. -/
noncomputable def finished (s : State) (hist : PerBand (PerChannel Hist)) (resp : Packet) (draws : Nat) : State :=
  { s with job := none, hist := hist, pOut := s.pOut ++ [resp], draws := draws }

theorem finished_afterLeft (s : State) (w : Word) (next : Word → Job) (hist : PerBand (PerChannel Hist)) (resp : Packet)
    (draws : Nat) : finished (afterLeft s w next) hist resp draws = finished s hist resp draws := rfl

theorem finished_afterRight (s : State) (w : Word) (next : Word → Job) (hist : PerBand (PerChannel Hist)) (resp : Packet)
    (draws : Nat) : finished (afterRight s w next) hist resp draws = finished s hist resp draws := rfl

theorem pEnd_eq_finished (j : Job) (s : State) : pEnd j s =
    finished s s.hist (response (JobKind.opcBits j.kind) .ok (bufferResults j.kind j.n j.output)) s.draws := rfl

theorem joinHists_self (s : State) : joinHists (leftHist s) (rightHist s) = s.hist := rfl

theorem length_append_singleton {a b : Buffer} (h : a.length = b.length) (v w : Word) :
    (a ++ [v]).length = (b ++ [w]).length := by
  rw [List.length_append, List.length_append, h]; rfl

theorem length_append_cons (done ws : Buffer) (w : Word) : (done ++ [w] ++ ws).length = (done ++ w :: ws).length := by
  rw [List.append_assoc, List.singleton_append]

/-- The state after the rest of a mono job: `ws` filtered, the response given. -/
noncomputable def afterMono (s : State) (done ws out : Buffer) : State :=
  finished s (joinHists (monoSeq s.coef s.draws (leftHist s) ws).2 (rightHist s))
    (0x40000000#32 :: BitVec.ofNat 32 (done ++ ws).length :: (out ++ (monoSeq s.coef s.draws (leftHist s) ws).1))
    (s.draws + 29 * ws.length)

theorem afterMono_afterLeft (s : State) (done ws out : Buffer) (w : Word) (next : Word → Job) :
    afterMono (afterLeft s w next) (done ++ [w]) ws (out ++ [(processWord s.draws s.coef (leftHist s) w).1]) =
      afterMono s done (w :: ws) out := by
  have hdraws : s.draws + 29 * (ws.length + 1) = s.draws + 29 + 29 * ws.length := by
    rw [Nat.mul_succ, Nat.add_comm (29 * _), Nat.add_assoc]
  rw [afterMono, afterMono, finished_afterLeft, leftHist_afterLeft, rightHist_afterLeft, monoSeq, length_append_cons,
    List.append_assoc, List.length_cons, hdraws]
  rfl

theorem run_monoJob {s : State} {done ws out : Buffer} (hr : s.resetInput = false) (hc : s.cIn = [])
    (hj : s.job = some (monoJob done ws out)) (hout : out.length = done.length) :
    s.run (ws.length + 1) = .next (afterMono s done ws out) := by
  induction ws generalizing s done out with
  | nil =>
    have hend : ¬ (monoJob done [] out).idx < (monoJob done [] out).n := by simp [monoJob]
    rw [List.length_nil, run_succ (step_of_job_alone hr hc hj), if_neg hend, pEnd_eq_finished, afterMono, monoSeq, joinHists_self,
      monoJob, response_mono, List.append_nil, List.append_nil]
    rfl
  | cons w ws ih =>
    have hnext (v : Word) : sampledJob (monoJob done (w :: ws) out) v = monoJob (done ++ [w]) ws (out ++ [v]) := by
      rw [sampledJob_mono rfl rfl, monoJob, monoJob, List.append_assoc, List.length_append (as := done) (bs := [w])]
      rfl
    have hstep := step_left hr hc hj (by simp [monoJob]) rfl ⟨getElem?_append_cons_length done ws w, hout⟩ hnext
    rw [List.length_cons, run_succ hstep, ← afterMono_afterLeft]
    exact ih hr hc rfl (length_append_singleton hout _ w)

/-- A stereo job at the left word of an index. -/
noncomputable def stereoJob (doneL doneR ls rs outL outR : Buffer) : Job :=
  ⟨.stereo, (doneL ++ ls).length, ⟨doneL ++ ls, doneR ++ rs⟩, ⟨outL, outR⟩, doneL.length, .left⟩

/-- A stereo job at the right word of an index. -/
noncomputable def stereoJobRight (doneL doneR ls rs outL outR : Buffer) : Job :=
  { stereoJob doneL doneR ls rs outL outR with ch := .right }

/-- The state after the rest of a stereo job, `q` the fold of its words. -/
noncomputable def afterStereo (s : State) (doneL ls outL outR : Buffer) (q : StereoResult) : State :=
  finished s (joinHists q.histL q.histR)
    (0x41000000#32 :: BitVec.ofNat 32 (doneL ++ ls).length :: BitVec.ofNat 32 (doneL ++ ls).length ::
      (outL ++ q.outL ++ (outR ++ q.outR)))
    (s.draws + 58 * ls.length)

theorem afterStereo_afterBoth (s : State) (doneL ls outL outR : Buffer) (q : StereoResult) (l r v x : Word)
    (next next' : Word → Job) :
    afterStereo (afterRight (afterLeft s l next) r next') (doneL ++ [l]) ls (outL ++ [v]) (outR ++ [x]) q =
      afterStereo s doneL (l :: ls) outL outR { q with outL := v :: q.outL, outR := x :: q.outR } := by
  have hdraws : s.draws + 58 * (ls.length + 1) = s.draws + 58 + 58 * ls.length := by
    rw [Nat.mul_succ, Nat.add_comm (58 * _), Nat.add_assoc]
  rw [afterStereo, afterStereo, finished_afterRight, finished_afterLeft, length_append_cons,
    List.append_assoc outL [v], List.append_assoc outR [x], List.length_cons, hdraws]
  rfl

theorem stereoSeq_nil (k : PerBand Coef) (d : Nat) (hL hR : PerBand Hist) (rs : Buffer) :
    stereoSeq k d hL hR [] rs = ⟨[], [], hL, hR⟩ := by
  rw [stereoSeq]; nofun

theorem stereoSeq_cons (k : PerBand Coef) (d : Nat) (hL hR : PerBand Hist) (l r : Word) (ls rs : Buffer) :
    stereoSeq k d hL hR (l :: ls) (r :: rs) =
      let q := stereoSeq k (d + 58) (processWord d k hL l).2 (processWord (d + 29) k hR r).2 ls rs
      { q with outL := (processWord d k hL l).1 :: q.outL, outR := (processWord (d + 29) k hR r).1 :: q.outR } := by
  rw [stereoSeq]; rfl

/-- The state after both words of an index. -/
noncomputable def afterIndex (s : State) (doneL doneR ls rs outL outR : Buffer) (l r : Word) : State :=
  afterRight (afterLeft s l fun v => stereoJobRight doneL doneR (l :: ls) (r :: rs) (outL ++ [v]) outR) r fun x =>
    stereoJob (doneL ++ [l]) (doneR ++ [r]) ls rs (outL ++ [(processWord s.draws s.coef (leftHist s) l).1]) (outR ++ [x])

theorem run_stereoJob_index {s : State} {doneL doneR ls rs outL outR : Buffer} {l r : Word} (hr : s.resetInput = false)
    (hc : s.cIn = []) (hj : s.job = some (stereoJob doneL doneR (l :: ls) (r :: rs) outL outR))
    (hdone : doneR.length = doneL.length) (houtL : outL.length = doneL.length) (houtR : outR.length = doneL.length) (k : Nat) :
    s.run (k + 2) = (afterIndex s doneL doneR ls rs outL outR l r).run k := by
  have hleft := step_left hr hc hj (by simp [stereoJob]) rfl ⟨getElem?_append_cons_length doneL ls l, houtL⟩
    (next := fun v => stereoJobRight doneL doneR (l :: ls) (r :: rs) (outL ++ [v]) outR)
    fun v => sampledJob_stereo_left rfl rfl v
  have hnext (v x : Word) : sampledJob (stereoJobRight doneL doneR (l :: ls) (r :: rs) (outL ++ [v]) outR) x
      = stereoJob (doneL ++ [l]) (doneR ++ [r]) ls rs (outL ++ [v]) (outR ++ [x]) := by
    rw [sampledJob_stereo_right rfl rfl, stereoJobRight, stereoJob, stereoJob, List.append_assoc, List.append_assoc,
      List.length_append (as := doneL) (bs := [l])]
    rfl
  have hpos (v : Word) : AtPosition (stereoJobRight doneL doneR (l :: ls) (r :: rs) (outL ++ [v]) outR) r := by
    have hread := getElem?_append_cons_length doneR rs r
    rw [hdone] at hread
    exact ⟨hread, houtR⟩
  have hright := step_right (s := afterLeft s l fun v => stereoJobRight doneL doneR (l :: ls) (r :: rs) (outL ++ [v]) outR)
    hr hc rfl (by simp [stereoJobRight, stereoJob]) rfl (hpos _) (hnext (processWord s.draws s.coef (leftHist s) l).1)
  exact (run_succ hleft (k + 1)).trans (run_succ hright k)

theorem run_stereoJob {s : State} {doneL doneR ls rs outL outR : Buffer} (hr : s.resetInput = false) (hc : s.cIn = [])
    (hj : s.job = some (stereoJob doneL doneR ls rs outL outR)) (hlen : ls.length = rs.length)
    (hdone : doneR.length = doneL.length) (houtL : outL.length = doneL.length) (houtR : outR.length = doneL.length) :
    s.run (2 * ls.length + 1) =
      .next (afterStereo s doneL ls outL outR (stereoSeq s.coef s.draws (leftHist s) (rightHist s) ls rs)) := by
  induction ls generalizing s doneL doneR rs outL outR with
  | nil =>
    have hend : ¬ (stereoJob doneL doneR [] rs outL outR).idx < (stereoJob doneL doneR [] rs outL outR).n := by
      simp [stereoJob]
    rw [List.length_nil, run_succ (step_of_job_alone hr hc hj), if_neg hend, pEnd_eq_finished, afterStereo, stereoSeq_nil,
      joinHists_self, stereoJob, response_stereo, List.append_nil, List.append_nil, List.append_nil]
    rfl
  | cons l ls ih =>
    obtain ⟨r, rs, rfl⟩ := List.exists_cons_of_length_eq_add_one hlen.symm
    have hrest := ih (s := afterIndex s doneL doneR ls rs outL outR l r) hr hc rfl (Nat.succ.inj hlen)
      (length_append_singleton hdone r l) (length_append_singleton houtL _ l) (length_append_singleton houtR _ l)
    rw [afterIndex, leftHist_afterRight, leftHist_afterLeft, rightHist_afterRight, rightHist_afterLeft] at hrest
    rw [List.length_cons, Nat.mul_succ, run_stereoJob_index hr hc hj hdone houtL houtR, stereoSeq_cons, ← afterStereo_afterBoth]
    exact hrest

/-! ### Whole commands -/

theorem operandFits_of_length {buf : Buffer} (h : buf.length ≤ 2 ^ 32 - 1) : operandFits (some buf) = true :=
  decide_eq_true h

theorem leftHist_startJob (kind : JobKind) (io : PerChannel Buffer) (fs : Word) (s : State) :
    leftHist (startJob kind io (syncRate fs s)) = leftHist s := by
  rw [leftHist, startJob_hist, syncRate_hist, leftHist]

theorem rightHist_startJob (kind : JobKind) (io : PerChannel Buffer) (fs : Word) (s : State) :
    rightHist (startJob kind io (syncRate fs s)) = rightHist s := by
  rw [rightHist, startJob_hist, syncRate_hist, rightHist]

/-- What a whole command leaves: P-begin has taken it from the port and synchronised the rate. -/
theorem finished_startJob {s : State} {pkt : Packet} {rest : List Packet} (hj : s.job = none) (hp : s.pIn = pkt :: rest)
    (kind : JobKind) (io : PerChannel Buffer) (fs : Word) (hist : PerBand (PerChannel Hist)) (resp : Packet) (draws : Nat) :
    finished (startJob kind io (syncRate fs s)) hist resp draws =
      { syncRate fs s with pIn := rest, hist := hist, pOut := s.pOut ++ [resp], draws := draws } := by
  have hrest : s.pIn.tail = rest := by rw [hp, List.tail_cons]
  subst hrest
  rw [syncRate_eq, finished, ← hj]
  rfl

/-- Settles O36: P-begin, then the job from its first word on. -/
theorem monoCommandIsTheFoldOfItsWords : Obligations.MonoCommandIsTheFoldOfItsWords := by
  intro s fs buf rest hq hen hfs hne hlen hp
  have hbegin : step s = .next (startJob .mono ⟨buf, []⟩ (syncRate fs s)) := by
    rw [step_of_command_alone hq hp (decode_encode_procM fs (operandFits_of_length hlen)), exec_procM hq.job, Option.map_some,
      pBegin_of_enabled (kind := .mono) hfs nofun hne hen]
  rw [run_succ hbegin, run_monoJob (done := []) (ws := buf) (out := []) (by rw [startJob_resetInput, syncRate_resetInput, hq.reset])
    (by rw [startJob_cIn, syncRate_cIn, hq.port]) rfl rfl, afterMono, finished_startJob hq.job hp, leftHist_startJob,
    rightHist_startJob, startJob_coef, startJob_draws, syncRate_draws]
  rfl

/-- Settles O37: the same with both channels. -/
theorem stereoCommandIsTheFoldOfItsWords : Obligations.StereoCommandIsTheFoldOfItsWords := by
  intro s fs l r rest hq hen hfs hne hlr hlen hp
  have hbegin : step s = .next (startJob .stereo ⟨l, r⟩ (syncRate fs s)) := by
    rw [step_of_command_alone hq hp (decode_encode_procS fs (operandFits_of_length hlen) (operandFits_of_length (hlr ▸ hlen))),
      exec_procS hq.job, stereoInput, pBegin_of_enabled hfs (fun _ => hlr) hne hen]
  refine ⟨_, rfl, ?_⟩
  rw [run_succ hbegin, run_stereoJob (doneL := []) (doneR := []) (ls := l) (rs := r) (outL := []) (outR := [])
    (by rw [startJob_resetInput, syncRate_resetInput, hq.reset]) (by rw [startJob_cIn, syncRate_cIn, hq.port]) rfl hlr rfl rfl
    rfl, afterStereo, finished_startJob hq.job hp, leftHist_startJob, rightHist_startJob, startJob_coef, startJob_draws,
    syncRate_draws, ← hlr]
  rfl

/-! ### The folds up to NaNs -/

/-- Two results of a channel's fold, the same up to NaNs. -/
def SameFold (p q : Buffer × PerBand Hist) : Prop := SameWords p.1 q.1 ∧ SameHists p.2 q.2

theorem sameFold_trans {p q r : Buffer × PerBand Hist} (h : SameFold p q) (g : SameFold q r) : SameFold p r :=
  ⟨sameWords_trans h.1 g.1, sameHists_trans h.2 g.2⟩

theorem sameFold_symm {p q : Buffer × PerBand Hist} (h : SameFold p q) : SameFold q p :=
  ⟨sameWords_symm h.1, sameHists_symm h.2⟩

theorem sameFold_monoSeq (k : PerBand Coef) (d e : Nat) {g h : PerBand Hist} (hh : SameHists g h) (ws : Buffer) :
    SameFold (monoSeq k d g ws) (monoSeq k e h ws) := by
  induction ws generalizing d e g h with
  | nil => exact ⟨.nil, hh⟩
  | cons w ws ih =>
    obtain ⟨hword, hhist⟩ := same_processWord d e k hh w
    obtain ⟨hwords, hlast⟩ := ih (d + drawsPerSample) (e + drawsPerSample) hhist
    exact ⟨.cons hword hwords, hlast⟩

/-- The fold of two sequences one after the other, whatever is drawn in each. -/
theorem sameFold_monoSeq_append (k : PerBand Coef) (d e e' : Nat) {g h : PerBand Hist} (hh : SameHists g h) (a b : Buffer) :
    SameFold (monoSeq k d g (a ++ b))
      ((monoSeq k e h a).1 ++ (monoSeq k e' (monoSeq k e h a).2 b).1, (monoSeq k e' (monoSeq k e h a).2 b).2) := by
  induction a generalizing d e g h with
  | nil => exact sameFold_monoSeq k d e' hh b
  | cons w ws ih =>
    obtain ⟨hword, hhist⟩ := same_processWord d e k hh w
    obtain ⟨hwords, hlast⟩ := ih (d + drawsPerSample) (e + drawsPerSample) hhist
    exact ⟨.cons hword hwords, hlast⟩

theorem monoSeq_length (k : PerBand Coef) (d : Nat) (h : PerBand Hist) (ws : Buffer) :
    (monoSeq k d h ws).1.length = ws.length := by
  induction ws generalizing d h with
  | nil => rfl
  | cons w ws ih => exact congrArg (· + 1) (ih _ _)

/-- Each channel of the stereo fold is the fold of its own words on its own histories. -/
theorem sameFold_stereoSeq (k : PerBand Coef) (d e e' : Nat) (hL hR : PerBand Hist) {l r : Buffer}
    (hlen : l.length = r.length) :
    SameFold ((stereoSeq k d hL hR l r).outL, (stereoSeq k d hL hR l r).histL) (monoSeq k e hL l) ∧
    SameFold ((stereoSeq k d hL hR l r).outR, (stereoSeq k d hL hR l r).histR) (monoSeq k e' hR r) := by
  suffices h : ∀ gL gR, SameHists gL hL → SameHists gR hR →
      SameFold ((stereoSeq k d gL gR l r).outL, (stereoSeq k d gL gR l r).histL) (monoSeq k e hL l) ∧
      SameFold ((stereoSeq k d gL gR l r).outR, (stereoSeq k d gL gR l r).histR) (monoSeq k e' hR r) from
    h hL hR (sameHists_refl _) (sameHists_refl _)
  intro gL gR hgL hgR
  induction l generalizing d e e' hL hR gL gR r with
  | nil =>
    obtain rfl := List.eq_nil_of_length_eq_zero hlen.symm
    exact ⟨⟨.nil, hgL⟩, ⟨.nil, hgR⟩⟩
  | cons x l ih =>
    obtain ⟨y, r, rfl⟩ := List.exists_cons_of_length_eq_add_one hlen.symm
    obtain ⟨hx, hhL⟩ := same_processWord d e k hgL x
    obtain ⟨hy, hhR⟩ := same_processWord (d + drawsPerSample) e' k hgR y
    obtain ⟨⟨hwordsL, hlastL⟩, ⟨hwordsR, hlastR⟩⟩ := ih (d + 2 * drawsPerSample) (e + drawsPerSample)
      (e' + drawsPerSample) _ _ (Nat.succ.inj hlen) _ _ hhL hhR
    exact ⟨⟨.cons hx hwordsL, hlastL⟩, ⟨.cons hy hwordsR, hlastR⟩⟩

/-- A channel's fold over a whole sequence, against the folds over its two parts. -/
theorem sameFold_split {k : PerBand Coef} {d e e' : Nat} {h : PerBand Hist} {a b : Buffer} {p q r : Buffer × PerBand Hist}
    (hp : SameFold p (monoSeq k d h (a ++ b))) (hq : SameFold q (monoSeq k e h a)) (hr : SameFold r (monoSeq k e' q.2 b)) :
    SameFold p (q.1 ++ r.1, r.2) := by
  have hrest := sameFold_trans hr (sameFold_monoSeq k e' e' hq.2 b)
  refine sameFold_trans (sameFold_trans hp (sameFold_monoSeq_append k d e e' (sameHists_refl h) a b)) ?_
  exact ⟨sameWords_append (sameWords_symm hq.1) (sameWords_symm hrest.1), sameHists_symm hrest.2⟩

/-! ### Commands in a row -/

/-- What a command at rate `fs`, with samples where `active`, leaves of the registers but the histories, and of the port. -/
structure Served (fs : Word) (active : Prop) [Decidable active] (rest : List Packet) (s t : State) : Prop where
  quiet : Quiet t
  en : t.en = s.en
  lvl : t.lvl = s.lvl
  port : t.pIn = rest
  rate : t.fs = if active then fs else s.fs
  coef : t.coef = if active then (syncRate fs s).coef else s.coef

theorem idle_of_served {fs : Word} {p : Prop} [Decidable p] {s t : State} (h : Served fs p [] s t) : t.Idle :=
  ⟨h.quiet.port, h.port, h.quiet.job⟩

theorem syncRate_coef (fs : Word) (s : State) :
    (syncRate fs s).coef = if fs = s.fs then s.coef else bandAll (fun b => compile b (bandGet s.lvl b).toNat fs) := by
  rw [syncRate_eq]; rfl

/-- The coefficients of a command depend on levels, rate and coefficients alone. -/
theorem syncRate_coef_congr {fs : Word} {s t : State} (hlvl : t.lvl = s.lvl) (hfs : t.fs = s.fs) (hcoef : t.coef = s.coef) :
    (syncRate fs t).coef = (syncRate fs s).coef := by rw [syncRate_coef, syncRate_coef, hlvl, hfs, hcoef]

/-- A second command at the same rate finds the coefficients of the first. -/
theorem syncRate_coef_of_served {fs : Word} {active : Prop} [Decidable active] {rest : List Packet} {s t : State}
    (h : Served fs active rest s t) : (syncRate fs t).coef = (syncRate fs s).coef := by
  by_cases ha : active
  · rw [syncRate_coef fs t, h.rate, if_pos ha, if_pos rfl, h.coef, if_pos ha]
  · exact syncRate_coef_congr h.lvl (h.rate.trans (if_neg ha)) (h.coef.trans (if_neg ha))

theorem served_trans {fs : Word} {p q : Prop} [Decidable p] [Decidable q] {rest rest' : List Packet} {s t u : State}
    (h : Served fs p rest s t) (g : Served fs q rest' t u) : Served fs (p ∨ q) rest' s u := by
  refine ⟨g.quiet, g.en.trans h.en, g.lvl.trans h.lvl, g.port, ?_, ?_⟩
  · rw [g.rate, h.rate]
    by_cases hq : q <;> by_cases hp : p <;> simp [hp, hq]
  · rw [g.coef, syncRate_coef_of_served h, h.coef]
    by_cases hq : q <;> by_cases hp : p <;> simp [hp, hq]

/-- What a mono command leaves, its words filtered with the coefficients `k` to `out`. -/
structure ServedMono (k : PerBand Coef) (fs : Word) (buf out : Buffer) (rest : List Packet) (s t : State) : Prop where
  served : Served fs (buf ≠ []) rest s t
  response : t.pOut = s.pOut ++ [0x40000000#32 :: BitVec.ofNat 32 buf.length :: out]
  length : out.length = buf.length
  left : SameFold (out, leftHist t) (monoSeq k 0 (leftHist s) buf)
  right : rightHist t = rightHist s

/-- After `n` steps a mono command is answered. -/
inductive MonoAnswered (k : PerBand Coef) (fs : Word) (buf : Buffer) (rest : List Packet) (s : State) (n : Nat) : Prop
  | intro {t : State} {out : Buffer} (hrun : s.run n = .next t) (h : ServedMono k fs buf out rest s t)

theorem mono_answered_of_ne_nil {s : State} {fs : Word} {buf : Buffer} {rest : List Packet} {k : PerBand Coef} (hq : Quiet s)
    (hen : s.en = true) (hfs : 0 < fs.toInt) (hne : buf ≠ []) (hlen : buf.length ≤ 2 ^ 32 - 1)
    (hp : s.pIn = encode (.procM fs (some buf)) :: rest) (hk : (syncRate fs s).coef = k) :
    MonoAnswered k fs buf rest s (buf.length + 2) := by
  subst hk
  refine ⟨monoCommandIsTheFoldOfItsWords s fs buf rest hq hen hfs hne hlen hp,
    ⟨⟨?_, ?_, ?_⟩, syncRate_en fs s, syncRate_lvl fs s, rfl, ?_, (if_pos hne).symm⟩, rfl, monoSeq_length ..,
    sameFold_monoSeq _ _ _ (sameHists_refl _) buf, rfl⟩
  · exact (syncRate_resetInput fs s).trans hq.reset
  · exact (syncRate_cIn fs s).trans hq.port
  · exact (syncRate_job fs s).trans hq.job
  · exact (syncRate_fs fs s).trans (if_pos hne).symm

theorem mono_answered {s : State} {fs : Word} {buf : Buffer} {rest : List Packet} {k : PerBand Coef} (hq : Quiet s)
    (hen : s.en = true) (hfs : 0 < fs.toInt) (hlen : buf.length ≤ 2 ^ 32 - 1)
    (hp : s.pIn = encode (.procM fs (some buf)) :: rest) (hk : (syncRate fs s).coef = k) :
    ∃ n, MonoAnswered k fs buf rest s n := by
  by_cases hne : buf = []
  · subst hne
    have hstep := (step_of_command_alone hq hp (decode_encode_procM fs (operandFits_of_length hlen))).trans
      (zeroLengthHasNoSideEffects fs s hq.job hfs).1
    exact ⟨1, run_succ hstep 0, ⟨⟨hq.reset, hq.port, hq.job⟩, rfl, rfl, by rw [hp, List.tail_cons], rfl, rfl⟩, rfl,
      rfl, ⟨.nil, sameHists_refl _⟩, rfl⟩
  · exact ⟨_, mono_answered_of_ne_nil hq hen hfs hne hlen hp hk⟩

/-- After `n` steps two mono commands in a row are answered, the second from where the first ends. -/
inductive MonoAnsweredTwice (k : PerBand Coef) (fs : Word) (a b : Buffer) (rest : List Packet) (s : State) (n : Nat) : Prop
  | intro {u t : State} {first second : Buffer} {rest' : List Packet} (hrun : s.run n = .next t)
      (h : ServedMono k fs a first rest' s u) (h' : ServedMono k fs b second rest u t)

theorem mono_answered_twice {s : State} {fs : Word} {a b : Buffer} {k : PerBand Coef} (hq : Quiet s) (hen : s.en = true)
    (hfs : 0 < fs.toInt) (hlen : (a ++ b).length ≤ 2 ^ 32 - 1)
    (hp : s.pIn = [encode (.procM fs (some a)), encode (.procM fs (some b))]) (hk : (syncRate fs s).coef = k) :
    ∃ n, MonoAnsweredTwice k fs a b [] s n := by
  rw [List.length_append] at hlen
  obtain ⟨n, hrun, h⟩ := mono_answered hq hen hfs ((Nat.le_add_right ..).trans hlen) hp hk
  obtain ⟨m, hrun', h'⟩ := mono_answered h.served.quiet (h.served.en.trans hen) hfs ((Nat.le_add_left ..).trans hlen) h.served.port
    ((syncRate_coef_of_served h.served).trans hk)
  exact ⟨n + m, (run_add hrun m).trans hrun', h, h'⟩

/-- What a stereo command leaves, its words filtered to `outL` and `outR`: each channel by itself. -/
structure ServedStereo (k : PerBand Coef) (fs : Word) (l r outL outR : Buffer) (rest : List Packet) (s t : State) :
    Prop where
  served : Served fs (l ≠ []) rest s t
  response : t.pOut = s.pOut ++
    [0x41000000#32 :: BitVec.ofNat 32 l.length :: BitVec.ofNat 32 l.length :: (outL ++ outR)]
  left : SameFold (outL, leftHist t) (monoSeq k 0 (leftHist s) l)
  right : SameFold (outR, rightHist t) (monoSeq k 0 (rightHist s) r)

theorem length_of_sameFold {out ws : Buffer} {g h : PerBand Hist} {k : PerBand Coef} {d : Nat}
    (hf : SameFold (out, g) (monoSeq k d h ws)) : out.length = ws.length := hf.1.length_eq.trans (monoSeq_length ..)

/-- After `n` steps a stereo command is answered. -/
inductive StereoAnswered (k : PerBand Coef) (fs : Word) (l r : Buffer) (rest : List Packet) (s : State) (n : Nat) : Prop
  | intro {t : State} {outL outR : Buffer} (hrun : s.run n = .next t) (h : ServedStereo k fs l r outL outR rest s t)

theorem stereo_answered_of_ne_nil {s : State} {fs : Word} {l r : Buffer} {rest : List Packet} {k : PerBand Coef}
    (hq : Quiet s) (hen : s.en = true) (hfs : 0 < fs.toInt) (hne : l ≠ []) (hlr : l.length = r.length)
    (hlen : l.length ≤ 2 ^ 32 - 1) (hp : s.pIn = encode (.procS fs (some l) (some r)) :: rest)
    (hk : (syncRate fs s).coef = k) :
    StereoAnswered k fs l r rest s (2 * l.length + 2) := by
  subst hk
  obtain ⟨_, rfl, hrun⟩ := stereoCommandIsTheFoldOfItsWords s fs l r rest hq hen hfs hne hlr hlen hp
  have hfolds := sameFold_stereoSeq (syncRate fs s).coef s.draws 0 0 (leftHist s) (rightHist s) hlr
  rw [← hlr] at hrun
  refine ⟨hrun, ⟨⟨?_, ?_, ?_⟩, syncRate_en fs s, syncRate_lvl fs s, rfl, ?_, (if_pos hne).symm⟩, rfl, hfolds.1,
    hfolds.2⟩
  · exact (syncRate_resetInput fs s).trans hq.reset
  · exact (syncRate_cIn fs s).trans hq.port
  · exact (syncRate_job fs s).trans hq.job
  · exact (syncRate_fs fs s).trans (if_pos hne).symm

theorem stereo_answered {s : State} {fs : Word} {l r : Buffer} {rest : List Packet} {k : PerBand Coef} (hq : Quiet s)
    (hen : s.en = true) (hfs : 0 < fs.toInt) (hlr : l.length = r.length) (hlen : l.length ≤ 2 ^ 32 - 1)
    (hp : s.pIn = encode (.procS fs (some l) (some r)) :: rest) (hk : (syncRate fs s).coef = k) :
    ∃ n, StereoAnswered k fs l r rest s n := by
  by_cases hne : l = []
  · subst hne
    obtain rfl := List.eq_nil_of_length_eq_zero hlr.symm
    have hstep := (step_of_command_alone hq hp (decode_encode_procS fs (operandFits_of_length hlen)
      (operandFits_of_length hlen))).trans (zeroLengthHasNoSideEffects fs s hq.job hfs).2
    exact ⟨1, run_succ hstep 0, ⟨⟨hq.reset, hq.port, hq.job⟩, rfl, rfl, by rw [hp, List.tail_cons], rfl, rfl⟩,
      rfl, ⟨.nil, sameHists_refl _⟩, ⟨.nil, sameHists_refl _⟩⟩
  · exact ⟨_, stereo_answered_of_ne_nil hq hen hfs hne hlr hlen hp hk⟩

/-- After `n` steps two stereo commands in a row are answered. -/
inductive StereoAnsweredTwice (k : PerBand Coef) (fs : Word) (a b a' b' : Buffer) (rest : List Packet) (s : State) (n : Nat) :
    Prop
  | intro {u t : State} {firstL firstR secondL secondR : Buffer} {rest' : List Packet} (hrun : s.run n = .next t)
      (h : ServedStereo k fs a a' firstL firstR rest' s u) (h' : ServedStereo k fs b b' secondL secondR rest u t)

theorem stereo_answered_twice {s : State} {fs : Word} {a b a' b' : Buffer} {k : PerBand Coef} (hq : Quiet s)
    (hen : s.en = true) (hfs : 0 < fs.toInt) (ha : a.length = a'.length) (hb : b.length = b'.length)
    (hlen : (a ++ b).length ≤ 2 ^ 32 - 1)
    (hp : s.pIn = [encode (.procS fs (some a) (some a')), encode (.procS fs (some b) (some b'))])
    (hk : (syncRate fs s).coef = k) :
    ∃ n, StereoAnsweredTwice k fs a b a' b' [] s n := by
  rw [List.length_append] at hlen
  obtain ⟨n, hrun, h⟩ := stereo_answered hq hen hfs ha ((Nat.le_add_right ..).trans hlen) hp hk
  obtain ⟨m, hrun', h'⟩ := stereo_answered h.served.quiet (h.served.en.trans hen) hfs hb
    ((Nat.le_add_left ..).trans hlen) h.served.port ((syncRate_coef_of_served h.served).trans hk)
  exact ⟨n + m, (run_add hrun m).trans hrun', h, h'⟩

theorem sameRegisters_of_served {fs : Word} {p q : Prop} [Decidable p] [Decidable q] (hpq : p ↔ q) {rest rest' : List Packet}
    {s s' t u : State} (h : Served fs p rest s t) (g : Served fs q rest' s' u) (hen : s'.en = s.en) (hlvl : s'.lvl = s.lvl)
    (hfs : s'.fs = s.fs) (hcoef : s'.coef = s.coef) (hl : SameHists (leftHist t) (leftHist u))
    (hr : SameHists (rightHist t) (rightHist u)) : SameRegisters t u := by
  refine ⟨h.en.trans (hen.symm.trans g.en.symm), h.lvl.trans (hlvl.symm.trans g.lvl.symm), ?_, ?_, fun c => ?_⟩
  · rw [h.rate, g.rate, hfs, if_congr hpq rfl rfl]
  · rw [h.coef, g.coef, syncRate_coef_congr hlvl hfs hcoef, hcoef, if_congr hpq rfl rfl]
  · cases c with
    | left => exact hl
    | right => exact hr

theorem append_ne_nil_iff {a b : Buffer} : a ++ b ≠ [] ↔ a ≠ [] ∨ b ≠ [] := by
  rw [ne_eq, List.append_eq_nil_iff, not_and_or]

theorem response_append {p q r : List Packet} {x y : Packet} (h : q = p ++ [x]) (h' : r = q ++ [y]) : r = p ++ [x, y] := by
  rw [h', h, List.append_assoc]; rfl

theorem sameHists_of_eq {g h : PerBand Hist} (e : g = h) : SameHists g h := e ▸ sameHists_refl g

/-- Settles O38: the fold over an appended sequence is the fold over its parts. -/
theorem splittingAMonoBufferChangesNothing : Obligations.SplittingAMonoBufferChangesNothing := by
  intro s d fs a b hq hen hfs hlen
  have hquiet (p : List Packet) (n : Nat) : Quiet { s with pIn := p, draws := n } := ⟨hq.reset, hq.port, hq.job⟩
  have hk (p : List Packet) (n : Nat) := syncRate_coef_congr (fs := fs) (s := s) (t := { s with pIn := p, draws := n }) rfl rfl rfl
  obtain ⟨k1, hrun1, h1⟩ := mono_answered (hquiet [encode (.procM fs (some (a ++ b)))] s.draws) hen hfs hlen rfl (hk ..)
  obtain ⟨k2, hrun2, h2, h3⟩ := mono_answered_twice
    (hquiet [encode (.procM fs (some a)), encode (.procM fs (some b))] d) hen hfs hlen rfl (hk ..)
  have hfold := sameFold_split h1.left h2.left h3.left
  have hright := sameHists_of_eq (h1.right.trans (h3.right.trans h2.right).symm)
  exact ⟨k1, _, k2, _, _, _, _, hrun1, idle_of_served h1.served, hrun2, idle_of_served h3.served, h1.response,
    response_append h2.response h3.response, h2.length, h3.length, hfold.1,
    sameRegisters_of_served append_ne_nil_iff h1.served (served_trans h2.served h3.served) rfl rfl rfl rfl hfold.2 hright⟩

/-- Settles O39: each channel's fold over an appended sequence is the fold over its parts. -/
theorem splittingAStereoBufferChangesNothing : Obligations.SplittingAStereoBufferChangesNothing := by
  intro s d fs a b a' b' hq hen hfs ha hb hlen
  have hquiet (p : List Packet) (n : Nat) : Quiet { s with pIn := p, draws := n } := ⟨hq.reset, hq.port, hq.job⟩
  have hk (p : List Packet) (n : Nat) := syncRate_coef_congr (fs := fs) (s := s) (t := { s with pIn := p, draws := n }) rfl rfl rfl
  have hlr : (a ++ b).length = (a' ++ b').length := by rw [List.length_append, List.length_append, ha, hb]
  obtain ⟨k1, hrun1, h1⟩ := stereo_answered 
    (hquiet [encode (.procS fs (some (a ++ b)) (some (a' ++ b')))] s.draws) hen hfs hlr hlen rfl (hk ..)
  obtain ⟨k2, hrun2, h2, h3⟩ := stereo_answered_twice
     (hquiet [encode (.procS fs (some a) (some a')), encode (.procS fs (some b) (some b'))] d) hen hfs ha hb hlen rfl (hk ..)
  have hleft := sameFold_split h1.left h2.left h3.left
  have hright := sameFold_split h1.right h2.right h3.right
  exact ⟨k1, _, k2, _, _, _, _, _, _, _, hrun1, idle_of_served h1.served, hrun2,
    idle_of_served h3.served, h1.response, response_append h2.response h3.response, length_of_sameFold h2.left,
    (length_of_sameFold h2.right).trans ha.symm, length_of_sameFold h3.left, (length_of_sameFold h3.right).trans hb.symm,
    hleft.1, hright.1, sameRegisters_of_served append_ne_nil_iff h1.served (served_trans h2.served h3.served) rfl rfl rfl rfl
      hleft.2 hright.2⟩

/-- Folds of the same words from the same histories are the same. -/
theorem sameFold_of_eq {p q : Buffer × PerBand Hist} {k : PerBand Coef} {g h : PerBand Hist} {ws vs : Buffer}
    (hp : SameFold p (monoSeq k 0 g ws)) (hq : SameFold q (monoSeq k 0 h vs)) (hws : vs = ws) (hh : h = g) : SameFold p q :=
  sameFold_trans hp (sameFold_symm (hh ▸ hws ▸ hq))

/-- Settles O40: each channel's output is its own fold, and so is that of a mono command. -/
theorem stereoChannelsAreIndependent : Obligations.StereoChannelsAreIndependent := by
  intro s s' d fs l r l' r' hq hq' hen hen' hfs hne hlr hl' hr' hlen hlvl hrate hcoef
  have hne' : l' ≠ [] := fun h => hne (List.eq_nil_of_length_eq_zero (by rw [← hl', h, List.length_nil]))
  obtain ⟨hrun, ht⟩ := stereo_answered_of_ne_nil (s := { s with pIn := [encode (.procS fs (some l) (some r))] })
    ⟨hq.reset, hq.port, hq.job⟩ hen hfs
    hne hlr hlen rfl (syncRate_coef_congr (s := s) rfl rfl rfl)
  obtain ⟨hrunM, hm⟩ := mono_answered_of_ne_nil (s := { s with pIn := [encode (.procM fs (some l))], draws := d })
    ⟨hq.reset, hq.port, hq.job⟩ hen
    hfs hne hlen rfl (syncRate_coef_congr (s := s) rfl rfl rfl)
  obtain ⟨hrun', ht'⟩ := stereo_answered_of_ne_nil (s := { s' with pIn := [encode (.procS fs (some l') (some r'))] })
    ⟨hq'.reset, hq'.port, hq'.job⟩
    hen' hfs hne' (hl'.trans hr'.symm) (hl'.le.trans hlen) rfl (syncRate_coef_congr (s := s) hlvl hrate hcoef)
  have hleft : SameFold _ (monoSeq _ 0 (leftHist s) l) := ht.left
  have hmono := sameFold_of_eq hleft hm.left rfl rfl
  have hresponse := ht'.response
  rw [hl'] at hrun' hresponse
  exact ⟨_, _, _, _, _, _, _, _, hrun, hrunM, hrun', ht.response, hm.response, hresponse,
    length_of_sameFold ht.left, (length_of_sameFold ht'.left).trans hl', sameFold_of_eq ht.left ht'.left,
    sameFold_of_eq ht.right ht'.right, hmono.1, hmono.2⟩

end Sys2Proof.Proofs
end
